-- ==== Sys2Proof/Word.lean ====
section
/-! DEFINITION. The word types of the machine (00_scope.md R8, R11, R12): bit 0 is the least significant bit and
arithmetic is modulo `2^W`. -/

namespace Sys2Proof

/-- An 8-bit value. -/
abbrev Byte := BitVec 8

/-- A 16-bit value: an opcode word, an extension word, a data-bus word. -/
abbrev Word := BitVec 16

/-- A 32-bit value: a register, an address. -/
abbrev Long := BitVec 32

end Sys2Proof
end

