-- ==== Sys2Proof/Syntax.lean ====
section
/-! DEFINITION. The syntax: the value types of 10_state.md section 2, the microcode steps of 30_encoding.md R111, and
`Instr`, one constructor for each row of spec/opcode_table.json. -/

namespace Sys2Proof

/-- Size class: byte, word or long (10_state.md R22). -/
inductive Size where
  | byte | word | long
deriving DecidableEq, Repr, Inhabited

/-- Addressing-mode variant, in the source's order (10_state.md R26). -/
inductive Variant where
  | dataReg | addrReg | addr | addrInc | addrDec | addrDisp | addrIdx | pcDisp | pcIdx | absShort | absLong | imm
deriving DecidableEq, Repr, Inhabited

/-- The two effective-address slots, the `transfer` of a step (00_scope.md R15). -/
inductive Slot where
  | src | dst
deriving DecidableEq, Repr, Inhabited

/-- The register class of `ldreg` and `streg` (44_microcode.md R215). -/
inductive RegClass where
  | data | addr
deriving DecidableEq, Repr, Inhabited

/-- The transfer part of an `ea` step (44_microcode.md R200). -/
inductive EaOp where
  | load | store | none
deriving DecidableEq, Repr, Inhabited

/-- The operation of a `bcd` step (44_microcode.md R221). -/
inductive BcdOp where
  | add | sub
deriving DecidableEq, Repr, Inhabited

/-- Opcode pattern `(set, any)` (10_state.md R21). -/
structure Pattern where
  set : Word
  any : Word
deriving DecidableEq, Repr, Inhabited

/-- Size encoding: a partial mapping from size classes to codes (10_state.md R22, 43_size_addrmode.md R175). -/
structure SizeEnc where
  byte : Option Nat
  word : Option Nat
  long : Option Nat
deriving DecidableEq, Repr, Inhabited

/-- One row of an addressing-mode table: a variant and its `(m, n)` constraint, each side nullable (43_size_addrmode.md R185). -/
structure AmRow where
  variant : Variant
  m : Option Nat
  n : Option Nat
deriving DecidableEq, Repr, Inhabited

/-- Addressing-mode encoding: the positions and widths of the two fields and the table; a variant without a row cannot
be encoded (43_size_addrmode.md R185). -/
structure AmEnc where
  mPos : Nat
  mWidth : Nat
  nPos : Nat
  nWidth : Nat
  rows : List AmRow
deriving DecidableEq, Repr, Inhabited

/-- The six kinds of microcode step with their fields (30_encoding.md R111). -/
inductive Step where
  | ea (transfer : Slot) (wantCalc wantClk : Bool) (op : EaOp) (enc : AmEnc)
  | ldReg (transfer : Slot) (cls : RegClass) (bitPos : Nat)
  | stReg (cls : RegClass) (bitPos : Nat)
  | fetch
  | bcd (op : BcdOp)
  | cycles (n : Nat)
deriving DecidableEq, Repr, Inhabited

/-- An operand descriptor of the `info` sidecar (44_microcode.md R226). -/
inductive Transfer where
  | none
  | addrMode (enc : AmEnc)
  | dataReg (bitPos : Nat)
  | addrReg (bitPos : Nat)
deriving DecidableEq, Repr, Inhabited

/-- The `info` record of a pipeline (10_state.md R24). -/
structure Info where
  src : Transfer
  dst : Transfer
deriving DecidableEq, Repr, Inhabited

/-- Microcode pipeline: an ordered list of steps and an `info` record (10_state.md R24). -/
structure Pipeline where
  steps : List Step
  info : Info
deriving DecidableEq, Repr, Inhabited

/-- The `size` of a descriptor (10_state.md R23). -/
inductive SizeSpec where
  | absent
  | dynamic (pos : Nat) (enc : SizeEnc)
  | static (size : Size)
deriving DecidableEq, Repr, Inhabited

/-- Instruction descriptor (10_state.md R23). The name is the mnemonic, a list of characters. -/
structure Descriptor where
  name : List Char
  size : SizeSpec
  opcode : Pattern
  code : Pipeline
deriving DecidableEq, Repr, Inhabited

/-- Bus parameters (20_memory.md R54). -/
structure BusParams where
  addrWidth : Nat
  dataWidth : Nat
  pageSize : Nat
  maxDevices : Nat
deriving DecidableEq, Repr, Inhabited

/-- What stands behind a device's `read` and `write` (20_memory.md R56): plain RAM, the open bus of R59, or a device whose
behaviour the host gives (93_implementation_defined.md U22), told apart by a number. -/
inductive DeviceKind where
  | ram
  | openBus
  | external (id : Nat)
deriving DecidableEq, Repr, Inhabited

/-- A device and its page range `[first, last]`, both ends included (20_memory.md R56). -/
structure Device where
  first : Nat
  last : Nat
  kind : DeviceKind
deriving DecidableEq, Repr, Inhabited

/-- One constructor for each row of spec/opcode_table.json. A value whose width is an operand is a `Nat` beside its width;
`Instr.wf` states its domain. A width-parameterised step carries the width it is finalised at (44_microcode.md R227). -/
inductive Instr where
  /-- `EXTRACT(x, lo, w)`, `x` of width `wx` (R120). -/
  | extract (wx x lo w : Nat)
  /-- `OVERWRITE(x, y)`, `x` of width `wx`, `y` of width `wy` (R122). -/
  | overwrite (wx x wy y : Nat)
  /-- `EXTEND(T, y)`, `T` the width `wt`, `y` of width `wy` (R124). -/
  | extend (wt wy y : Nat)
  /-- `TRUNCATE(T, y)`, `T` the width `wt`, `y` of width `wy` (R126). -/
  | truncate (wt wy y : Nat)
  /-- `ADDO(W, a, b)` (R128). -/
  | addo (w a b : Nat)
  /-- `SUBO(W, a, b)` (R130). -/
  | subo (w a b : Nat)
  /-- `TOBCD(v)` (R141). -/
  | tobcd (v : Byte)
  /-- `FROMBCD(b)` (R144). -/
  | frombcd (b : Byte)
  /-- `BCDADD(dst, src, x)` (R146). -/
  | bcdadd (dst src : Byte) (x : Bool)
  /-- `BCDSUB(dst, src, x)` (R149). -/
  | bcdsub (dst src : Byte) (x : Bool)
  /-- `PATNEW(template)` (R160). -/
  | patnew (template : List Char)
  /-- `MATCH(p, w)` (R163). -/
  | matchWord (p : Pattern) (w : Word)
  /-- `SPECIFICITY(p)` (R166). -/
  | specificity (p : Pattern)
  /-- `SZWIDTH(E)` (R176). -/
  | szwidth (enc : SizeEnc)
  /-- `SZDEC(E, bits)` (R177). -/
  | szdec (enc : SizeEnc) (bits : Nat)
  /-- `SZENC(E, s)` (R178). -/
  | szenc (enc : SizeEnc) (size : Size)
  /-- `SZCOUNT(E)` (R179). -/
  | szcount (enc : SizeEnc)
  /-- `AMDEC(A, w)` (R187). -/
  | amdec (enc : AmEnc) (w : Word)
  /-- `PERMUTE(instr)`, the descriptor given by its place in ISD (R240). -/
  | permute (index : Nat)
  /-- `SORT` of the builder's unsorted list (R246). -/
  | sort
  /-- `MATCHIDX(w)` (R255). -/
  | matchidx (w : Word)
  /-- `VISIT(prefix, level)` (R260). -/
  | visit (pfx level : Nat)
  /-- `STUB(x, depth_left)` (R262). -/
  | stub (x depthLeft : Nat)
  /-- `INTERN(page)` (R264). -/
  | intern (page : Vector Nat 16)
  /-- `COMPRESS` of the builder's pages (R270). -/
  | compress
  /-- `BIND` of the builder's permutations (R286). -/
  | bind
  /-- `DECODE(word)` (R280). -/
  | decode (w : Word)
  /-- `STEP(cpu, bus)` (R290). -/
  | step
  /-- The `ea` step at width `w` (R200). -/
  | eaStep (w : Size) (transfer : Slot) (wantCalc wantClk : Bool) (op : EaOp) (enc : AmEnc)
  /-- The `ldreg` step at width `w` (R215). -/
  | ldReg (w : Size) (transfer : Slot) (cls : RegClass) (bitPos : Nat)
  /-- The `streg` step at width `w` (R217). -/
  | stReg (w : Size) (cls : RegClass) (bitPos : Nat)
  /-- The `fetch` step (R219). -/
  | fetch
  /-- The `bcd` step (R221). -/
  | bcd (op : BcdOp)
  /-- The `cycles` step (R223). -/
  | cycles (n : Nat)
  /-- The helper `extword(cpu)` (R211). -/
  | extword
  /-- The helper `fetch(width, cpu)` (R72). -/
  | fetchw (w : Size)
  /-- The helper `MemRead(addr, n)` (R66 to R68). -/
  | read (w : Size) (addr : Long)
  /-- The helper `MemWrite(addr, n, v)` (R69 to R71). -/
  | write (w : Size) (addr : Long) (v : Long)
  /-- `init(open_bus?, devices)` of a bus with the given parameters (R60). -/
  | businit (params : BusParams) (openBus : Bool) (devices : List Device)
  /-- `abcd.b dS,dD`, opcode word `1100ddd100000sss` (R232). -/
  | abcdReg (dst src : BitVec 3)
  /-- `abcd.b -(aS),-(aD)`, opcode word `1100ddd100001sss` (R232). -/
  | abcdMem (dst src : BitVec 3)
  /-- The illegal example word `0x4AFC` (R303). -/
  | illegal
deriving DecidableEq, Repr

end Sys2Proof
end

