-- ==== Sys2Proof/Machine/Primitives.lean ====
section
/-! DEFINITION. The pure functions of the block: the integer primitives and BCD tables of ZPU (40_int_primitives.md,
41_bcd.md), the opcode pattern (42_opcode_pattern.md), the size and addressing-mode encodings (43_size_addrmode.md).
None reads or writes a state. -/

namespace Sys2Proof

/-! ### Integer primitives -/

/-- `x[lo+w-1:lo]` (R120). -/
def extract {wx : Nat} (x : BitVec wx) (lo w : Nat) : BitVec w := x.extractLsb' lo w

/-- `x` with its low `wy` bits replaced by `y` (R122): `(x & ~(2^wy - 1)) | y`. -/
def overwrite {wx wy : Nat} (x : BitVec wx) (y : BitVec wy) : BitVec wx :=
  (x &&& ~~~(BitVec.ofNat wx (2 ^ wy - 1))) ||| y.setWidth wx

/-- Sign extension of `y` to `wt` bits (R124). -/
def extend {wy : Nat} (wt : Nat) (y : BitVec wy) : BitVec wt := y.signExtend wt

/-- The low `wt` bits of `y` (R126). -/
def truncate {wy : Nat} (wt : Nat) (y : BitVec wy) : BitVec wt := y.setWidth wt

/-- `zext_N` (00_scope.md R13). -/
def zext {wy : Nat} (wt : Nat) (y : BitVec wy) : BitVec wt := y.setWidth wt

/-- Addition with the unsigned and the signed overflow indication (R128). -/
def addo {w : Nat} (a b : BitVec w) : BitVec w × Bool × Bool :=
  let result := a + b
  (result, decide (2 ^ w ≤ a.toNat + b.toNat), (a.msb == b.msb) && (result.msb != a.msb))

/-- Subtraction with the borrow and the signed overflow indication (R130). -/
def subo {w : Nat} (a b : BitVec w) : BitVec w × Bool × Bool :=
  let result := a - b
  (result, decide (a.toNat < b.toNat), (a.msb != b.msb) && (result.msb != a.msb))

/-- Number of 1 bits (00_scope.md R13). -/
def popcount {w : Nat} (x : BitVec w) : Nat := (List.range w).countP (fun i => x.getLsbD i)

/-- `ceil(log2(k))`: the least `b` with `2^b >= k` (00_scope.md R13). -/
def ceilLog2 (k : Nat) : Nat := if k ≤ 1 then 0 else Nat.log2 (k - 1) + 1

/-- Is `k` a power of two (20_memory.md R54)? -/
def isPowerOfTwo (k : Nat) : Bool := k == 2 ^ Nat.log2 k

/-! ### BCD -/

/-- A byte whose two nibbles are decimal digits (R145). -/
def validBcd (b : Byte) : Bool := decide (b.toNat / 16 ≤ 9 ∧ b.toNat % 16 ≤ 9)

/-- One entry of the table TOBCD (R140). -/
def tobcdEntry (v : Nat) : Byte × Bool :=
  let r := v % 100
  (BitVec.ofNat 8 (r / 10 * 16 + r % 10), decide (99 < v))

/-- One entry of the table FROMBCD (R143; D8 for the bytes that are not BCD). -/
def frombcdEntry (b : Nat) : Byte := BitVec.ofNat 8 (10 * (b / 16) + b % 16)

/-- The 256 entries of TOBCD (R140). -/
def tobcdTable : List (Byte × Bool) := (List.range 256).map tobcdEntry

/-- The 256 entries of FROMBCD (R143). -/
def frombcdTable : List Byte := (List.range 256).map frombcdEntry

/-- `TOBCD[v]`: entry `v` of the table (R141). -/
def tobcd (v : Byte) : Byte × Bool :=
  tobcdTable[v.toNat]'(by simp only [tobcdTable, List.length_map, List.length_range]; exact v.isLt)

/-- `FROMBCD[b]`: entry `b` of the table (R144). -/
def frombcd (b : Byte) : Byte :=
  frombcdTable[b.toNat]'(by simp only [frombcdTable, List.length_map, List.length_range]; exact b.isLt)

/-! ### Opcode pattern -/

/-- The errors of construction (60_exceptions.md R300, R301). -/
inductive ConstructionError where
  /-- `PATNEW`: not exactly 16 characters over `0`, `1`, `x`. -/
  | invalidTemplate (template : List Char)
  /-- Bus construction: `page_size` is not a power of two. -/
  | badPageSize
  /-- `init`: two devices' page ranges share a page. -/
  | conflictingDeviceMappings
  /-- `init`: a page has no device and no open bus was given. -/
  | unmappedPages
  /-- `init`: more than `max_devices` devices. -/
  | maxDeviceLimitReached
  /-- `BIND`: a width-parameterised step in a pipeline finalised with the width absent (44_microcode.md R227). -/
  | parameterizedStepWithoutSize
deriving DecidableEq, Repr

/-- Is the character one of the template's alphabet (30_encoding.md R91)? -/
def templateChar (c : Char) : Bool := c == '0' || c == '1' || c == 'x'

/-- The number whose binary digits are the places of `c` in the template, leftmost most significant (30_encoding.md R92). -/
def templateBits (c : Char) (template : List Char) : Nat :=
  template.foldl (fun acc d => 2 * acc + (if d = c then 1 else 0)) 0

/-- `PATNEW(template)` (R160). -/
def patnew (template : List Char) : Except ConstructionError Pattern :=
  if template.length = 16 ∧ template.all templateChar = true then
    .ok { set := BitVec.ofNat 16 (templateBits '1' template), any := BitVec.ofNat 16 (templateBits 'x' template) }
  else
    .error (.invalidTemplate template)

/-- `MATCH(p, w)`: `((w & ~any) ^ set) == 0` (R163). -/
def Pattern.matchesWord (p : Pattern) (w : Word) : Bool := ((w &&& ~~~p.any) ^^^ p.set) == 0

/-- `SPECIFICITY(p)`: `popcount(any)`, lower is more specific (R166). -/
def Pattern.specificity (p : Pattern) : Nat := popcount p.any

/-- Two patterns overlap on some word (R167). -/
def Pattern.overlaps (p q : Pattern) : Bool := ((p.set ^^^ q.set) &&& ~~~p.any &&& ~~~q.any) == 0

/-- `REFINE((set, any), pos, bw, code)` (45_permutation.md R242). -/
def Pattern.refine (p : Pattern) (pos bw code : Nat) : Pattern :=
  let fm : Word := BitVec.ofNat 16 ((2 ^ bw - 1) * 2 ^ pos)
  { set := (p.set &&& ~~~fm) ||| BitVec.ofNat 16 (code * 2 ^ pos), any := p.any &&& ~~~fm }

/-! ### Size classes and size encodings -/

/-- Width of a size class in bits (R22). -/
def Size.bits : Size → Nat
  | .byte => 8
  | .word => 16
  | .long => 32

/-- `W/8` (44_microcode.md R204). -/
def Size.bytes : Size → Nat
  | .byte => 1
  | .word => 2
  | .long => 4

/-- `SZENC(E, s)`: the code or absent (R178). -/
def SizeEnc.encode (e : SizeEnc) : Size → Option Nat
  | .byte => e.byte
  | .word => e.word
  | .long => e.long

/-- `codes(E)` (R175), in the order byte, word, long. -/
def SizeEnc.codes (e : SizeEnc) : List Nat := [Size.byte, .word, .long].filterMap e.encode

/-- `SZWIDTH(E)`: `ceil(log2(max(codes) + 1))` (R176). -/
def SizeEnc.width (e : SizeEnc) : Nat := ceilLog2 (e.codes.foldl max 0 + 1)

/-- `SZDEC(E, bits)`: the size mapped to `bits`, or absent (R177). -/
def SizeEnc.decode (e : SizeEnc) (bits : Nat) : Option Size :=
  [Size.byte, .word, .long].find? (fun s => e.encode s == some bits)

/-- `SZCOUNT(E)`: the number of sizes mapped (R179). -/
def SizeEnc.count (e : SizeEnc) : Nat := e.codes.length

/-- A size encoding maps one to three classes to distinct codes (R175). -/
def SizeEnc.wf (e : SizeEnc) : Bool := decide (e.codes ≠ [] ∧ e.codes.Nodup)

/-- The default encodings (R180). -/
def SizeEnc.oneBit : SizeEnc := { byte := none, word := some 0, long := some 1 }
/-- "2-bit field" (R180). -/
def SizeEnc.twoBit : SizeEnc := { byte := some 0, word := some 1, long := some 2 }
/-- "move" (R180). -/
def SizeEnc.move : SizeEnc := { byte := some 1, word := some 3, long := some 2 }
/-- "movea" (R180). -/
def SizeEnc.movea : SizeEnc := { byte := none, word := some 3, long := some 2 }

/-! ### Addressing-mode encodings -/

/-- A field value satisfies a nullable constraint (R186). -/
def fieldAccepts (c : Option Nat) (v : Nat) : Bool :=
  match c with
  | none => true
  | some k => v == k

/-- Some value of a `width`-bit field satisfies both constraints. -/
def fieldMeets (width : Nat) (a b : Option Nat) : Bool :=
  match a, b with
  | none, none => true
  | some k, none => decide (k < 2 ^ width)
  | none, some k => decide (k < 2 ^ width)
  | some j, some k => decide (j = k ∧ k < 2 ^ width)

/-- The row of the table that `(m, n)` satisfies (R187). -/
def AmEnc.variantOf (e : AmEnc) (m n : Nat) : Option Variant :=
  (e.rows.find? (fun r => fieldAccepts r.m m && fieldAccepts r.n n)).map AmRow.variant

/-- The `m` field of an opcode word. -/
def AmEnc.mField (e : AmEnc) (w : Word) : Nat := (extract w e.mPos e.mWidth).toNat

/-- The `n` field of an opcode word. -/
def AmEnc.nField (e : AmEnc) (w : Word) : Nat := (extract w e.nPos e.nWidth).toNat

/-- `AMDEC(A, w)` (R187). -/
def AmEnc.decode (e : AmEnc) (w : Word) : Option Variant := e.variantOf (e.mField w) (e.nField w)

/-- The dense table, index `(m << n_width) | n` (R189). -/
def AmEnc.dense (e : AmEnc) : List (Option Variant) :=
  (List.range (2 ^ (e.mWidth + e.nWidth))).map (fun k => e.variantOf (k / 2 ^ e.nWidth) (k % 2 ^ e.nWidth))

/-- An encoding is well formed: both fields inside the word, at most six bits together (R98), no variant with two rows
(R185), and no `(m, n)` that satisfies two rows (R188). -/
def AmEnc.wf (e : AmEnc) : Bool :=
  decide (e.mPos + e.mWidth ≤ 16 ∧ e.nPos + e.nWidth ≤ 16 ∧ e.mWidth + e.nWidth ≤ 6 ∧
    e.rows.Pairwise (fun r q => r.variant ≠ q.variant ∧
      ¬ (fieldMeets e.mWidth r.m q.m = true ∧ fieldMeets e.nWidth r.n q.n = true)))

/-- The default encoding: 3-bit `m` at 3, 3-bit `n` at 0 (30_encoding.md R95). -/
def AmEnc.default : AmEnc :=
  { mPos := 3, mWidth := 3, nPos := 0, nWidth := 3
    rows :=
      [ ⟨.dataReg, some 0, none⟩, ⟨.addrReg, some 1, none⟩, ⟨.addr, some 2, none⟩, ⟨.addrInc, some 3, none⟩
      , ⟨.addrDec, some 4, none⟩, ⟨.addrDisp, some 5, none⟩, ⟨.addrIdx, some 6, none⟩
      , ⟨.absShort, some 7, some 0⟩, ⟨.absLong, some 7, some 1⟩, ⟨.pcDisp, some 7, some 2⟩
      , ⟨.pcIdx, some 7, some 3⟩, ⟨.imm, some 7, some 4⟩ ] }

/-- The reg/reg encoding: 1-bit `m` at 3, the register number of 3 bits at the place the use names (30_encoding.md R96). -/
def AmEnc.regReg (nPos : Nat) : AmEnc :=
  { mPos := 3, mWidth := 1, nPos := nPos, nWidth := 3
    rows := [⟨.dataReg, some 0, none⟩, ⟨.addrDec, some 1, none⟩] }

/-! ### Widths, penalties, page ranges -/

/-- The low `w` bits of `v`, zero-extended to 32 (`zext_32(TRUNCATE(W, v))`, 44_microcode.md R207). -/
def Size.zeroLow (w : Size) (v : Long) : Long := zext 32 (truncate w.bits v)
/-- The low `w` bits of `v`, sign-extended to 32 (`sext_32(TRUNCATE(W, v))`, R207). -/
def Size.signLow (w : Size) (v : Long) : Long := extend 32 (truncate w.bits v)

/-- The mode's extra cycle penalty (44_microcode.md R206). -/
def Variant.penalty : Variant → Nat
  | .addrDec => 2
  | .addrIdx => 2
  | .pcIdx => 2
  | .dataReg => 0
  | .addrReg => 0
  | .addr => 0
  | .addrInc => 0
  | .addrDisp => 0
  | .pcDisp => 0
  | .absShort => 0
  | .absLong => 0
  | .imm => 0

/-- `2^addr_width / page_size` (20_memory.md R55). Where a page is larger than the address space the quotient is 0; `initBus` builds
no such bus (DESIGN CHOICE, log 33). -/
def BusParams.numPages (p : BusParams) : Nat := 2 ^ p.addrWidth / p.pageSize

/-- The device owns the page (20_memory.md R56: both ends included). -/
def Device.covers (d : Device) (page : Nat) : Bool := decide (d.first ≤ page ∧ page ≤ d.last)

/-- Two page ranges share a page (20_memory.md R60); a range whose first page is above its last has no page (log 18). -/
def Device.conflicts (d e : Device) : Bool := decide (max d.first e.first ≤ min d.last e.last)

/-- A variant uses the register that the `n` field numbers: as a base or index of the address (44_microcode.md R203), or as the value
transferred (R207, R208). -/
def Variant.usesRegister (v : Variant) (wantCalc : Bool) (op : EaOp) : Bool :=
  match v with
  | .dataReg => op != .none
  | .addrReg => op != .none
  | .addr => wantCalc
  | .addrInc => wantCalc
  | .addrDec => wantCalc
  | .addrDisp => wantCalc
  | .addrIdx => wantCalc
  | .pcDisp => false
  | .pcIdx => false
  | .absShort => false
  | .absLong => false
  | .imm => false

/-! ### Descriptors and pipelines -/

/-- Is the step width-parameterised (44_microcode.md R227)? -/
def Step.parameterized : Step → Bool
  | .ea .. => true
  | .ldReg .. => true
  | .stReg .. => true
  | .fetch => false
  | .bcd _ => false
  | .cycles _ => false

/-- The empty pipeline: no step, `info` is `{src: none, dst: none}` (44_microcode.md R226). -/
def Pipeline.empty : Pipeline := { steps := [], info := { src := .none, dst := .none } }

/-- Replace one slot's descriptor of the sidecar (R226). -/
def Info.update (i : Info) (t : Slot) (x : Transfer) : Info :=
  match t with
  | .src => { i with src := x }
  | .dst => { i with dst := x }

/-- The descriptor `ldreg` and `streg` put into the sidecar (R226). -/
def RegClass.transfer (c : RegClass) (bitPos : Nat) : Transfer :=
  match c with
  | .data => .dataReg bitPos
  | .addr => .addrReg bitPos

/-- The builder operations of a pipeline: each appends a step and updates `info` (R225, R226). -/
def Pipeline.ea (p : Pipeline) (t : Slot) (wantCalc wantClk : Bool) (op : EaOp) (enc : AmEnc) : Pipeline :=
  { steps := p.steps ++ [.ea t wantCalc wantClk op enc], info := p.info.update t (.addrMode enc) }
/-- Append `ldreg` (R225, R226). -/
def Pipeline.ldReg (p : Pipeline) (t : Slot) (c : RegClass) (bitPos : Nat) : Pipeline :=
  { steps := p.steps ++ [.ldReg t c bitPos], info := p.info.update t (c.transfer bitPos) }
/-- Append `streg`, which describes the destination (R225, R226). -/
def Pipeline.stReg (p : Pipeline) (c : RegClass) (bitPos : Nat) : Pipeline :=
  { steps := p.steps ++ [.stReg c bitPos], info := p.info.update .dst (c.transfer bitPos) }
/-- Append `fetch` (R225). -/
def Pipeline.fetch (p : Pipeline) : Pipeline := { p with steps := p.steps ++ [.fetch] }
/-- Append `bcd` (R225). -/
def Pipeline.bcd (p : Pipeline) (op : BcdOp) : Pipeline := { p with steps := p.steps ++ [.bcd op] }
/-- Append `cycles` (R225). -/
def Pipeline.cycles (p : Pipeline) (n : Nat) : Pipeline := { p with steps := p.steps ++ [.cycles n] }

/-- The fields of a step are inside the opcode word and its tables are well formed (70_reset_and_hazards.md R335). -/
def Step.wf : Step → Bool
  | .ea _ _ _ _ enc => enc.wf
  | .ldReg _ _ p => decide (p ≤ 13)
  | .stReg _ p => decide (p ≤ 13)
  | .fetch => true
  | .bcd _ => true
  | .cycles _ => true

/-- The size field of a descriptor is inside the word and its encoding is a size encoding (R335, R175). -/
def SizeSpec.wf : SizeSpec → Bool
  | .absent => true
  | .static _ => true
  | .dynamic pos enc => enc.wf && decide (pos + enc.width ≤ 16)

/-- What ISD must satisfy, for one descriptor (R335); a size-less pipeline with a width-parameterised step is BIND's to refuse. -/
def Descriptor.wf (d : Descriptor) : Bool :=
  d.size.wf && (d.opcode.set &&& d.opcode.any == 0) && d.code.steps.all Step.wf

end Sys2Proof
end

