-- ==== Sys2Proof/WellFormed.lean ====
section
/-! DEFINITION. The domain of each operation's operands, as its rule states it. An instruction outside it is no member of
the instruction set: the decoder rejects it by name and a meaning refuses it by name (log 21). -/

namespace Sys2Proof

/-- The operands are inside the domain the operation's rule states. `OVERWRITE`, `EXTEND` and `TRUNCATE` take every width that meets the
constraint of R122, R124 and R126, also 0 where it allows it and above 32 bits (DESIGN CHOICE, log 38). -/
def Instr.wf : Instr → Bool
  | .extract wx x lo w => decide (1 ≤ wx ∧ wx ≤ 32 ∧ x < 2 ^ wx ∧ lo + w ≤ wx)
  | .overwrite wx x wy y => decide (wy ≤ wx ∧ x < 2 ^ wx ∧ y < 2 ^ wy)
  | .extend wt wy y => decide (1 ≤ wy ∧ wy ≤ wt ∧ y < 2 ^ wy)
  | .truncate wt wy y => decide (wt ≤ wy ∧ y < 2 ^ wy)
  | .addo w a b => decide (1 ≤ w ∧ a < 2 ^ w ∧ b < 2 ^ w)
  | .subo w a b => decide (1 ≤ w ∧ a < 2 ^ w ∧ b < 2 ^ w)
  | .tobcd _ => true
  | .frombcd _ => true
  | .bcdadd _ _ _ => true
  | .bcdsub _ _ _ => true
  | .patnew _ => true
  | .matchWord _ _ => true
  | .specificity _ => true
  | .szwidth enc => enc.wf
  | .szdec enc bits => enc.wf && decide (bits < 2 ^ enc.width)
  | .szenc enc _ => enc.wf
  | .szcount enc => enc.wf
  | .amdec enc _ => enc.wf
  | .permute _ => true
  | .sort => true
  | .matchidx _ => true
  | .visit pfx level => decide (level ≤ 4 ∧ pfx < 16 ^ level)
  | .stub _ depthLeft => decide (1 ≤ depthLeft ∧ depthLeft ≤ 4)
  | .intern _ => true
  | .compress => true
  | .bind => true
  | .decode _ => true
  | .step => true
  | .eaStep _ _ _ _ _ enc => enc.wf
  | .ldReg _ _ _ p => decide (p ≤ 13)
  | .stReg _ _ p => decide (p ≤ 13)
  | .fetch => true
  | .bcd _ => true
  | .cycles _ => true
  | .extword => true
  | .fetchw _ => true
  | .read _ _ => true
  | .write w _ v => decide (v.toNat < 2 ^ w.bits)
  | .businit _ _ _ => true
  | .abcdReg _ _ => true
  | .abcdMem _ _ => true
  | .illegal => true

end Sys2Proof
end

