-- ==== Sys2Proof/Decode.lean ====
section
/-! DEFINITION. From code to instructions and back. An operation of the block is an 8-bit select code (30_encoding.md R110,
R111) with operand words; the spec gives operands no bits (D1, D12), so an operand word is a natural number, the operands stand in the
order the rule names them, what a rule does not name as an operand before them (the width of a value, of a microcode step; the parameters
of a bus), and a missing word reads 0 (DESIGN CHOICE, log 2). A host instruction is a 16-bit opcode word (spec/opcode_table.json). -/

namespace Sys2Proof

/-- What the decoder reads: a select code with its operand words, or an opcode word. -/
inductive Code where
  | select (opsel : Byte) (operands : List Nat)
  | opcode (w : Word)
deriving DecidableEq, Repr

/-- Why the decoder rejects a code. -/
inductive DecodeError where
  /-- No operation has this select code (R110, R111). -/
  | unassignedSelect
  /-- The opcode word is in no row of the opcode table. -/
  | unknownOpcodeWord
  /-- An operand word is no code of its operand. -/
  | badOperand
  /-- Operand words are left over. -/
  | extraOperands
  /-- The operands are outside the operation's domain (`Instr.wf`). -/
  | outsideDomain
deriving DecidableEq, Repr

/-! ### Reading operand words -/

/-- A reader of operand words: it consumes some and answers a value, or rejects. -/
abbrev Parse (α : Type) := StateT (List Nat) (Except DecodeError) α

/-- One operand word; a missing word is 0. -/
def nextWord : Parse Nat := fun ws =>
  match ws with
  | [] => .ok (0, [])
  | x :: rest => .ok (x, rest)

/-- Reject the operand. -/
def badOperand {α : Type} : Parse α := fun _ => .error .badOperand

/-- An operand word that must be a `w`-bit value. -/
def bitsOperand (w : Nat) : Parse (BitVec w) := do
  let x ← nextWord
  if x < 2 ^ w then pure (BitVec.ofNat w x) else badOperand

/-- An operand word that numbers the entries of a list from 0. -/
def oneOf {α : Type} (xs : List α) : Parse α := do
  let x ← nextWord
  match xs[x]? with
  | some a => pure a
  | none => badOperand

/-- A truth value: 0 is false, 1 is true. -/
def boolOperand : Parse Bool := oneOf [false, true]

/-- A nullable number: 0 is absent, `k + 1` is `k`. -/
def optOperand : Parse (Option Nat) := do
  let x ← nextWord
  pure (if x = 0 then none else some (x - 1))

/-- `n` operands of one kind. -/
def listOperand {α : Type} (p : Parse α) : Nat → Parse (List α)
  | 0 => pure []
  | n + 1 => do
    let a ← p
    let rest ← listOperand p n
    pure (a :: rest)

/-- A counted list of operands: the count, then the entries. -/
def countedOperand {α : Type} (p : Parse α) : Parse (List α) := do
  let n ← nextWord
  listOperand p n

/-- The size classes in code order. -/
def allSizes : List Size := [.byte, .word, .long]

/-- The variants in code order (10_state.md R26). -/
def allVariants : List Variant :=
  [.dataReg, .addrReg, .addr, .addrInc, .addrDec, .addrDisp, .addrIdx, .pcDisp, .pcIdx, .absShort, .absLong, .imm]

/-- A character by its code point. -/
def charOperand : Parse Char := do
  let x ← nextWord
  if (Char.ofNat x).toNat = x then pure (Char.ofNat x) else badOperand

/-- A pattern: `set`, then `any`. -/
def patternOperand : Parse Pattern := do
  let set ← bitsOperand 16
  let any ← bitsOperand 16
  pure { set := set, any := any }

/-- A size encoding: 0 to 3 name the four default encodings (R180); 4 is followed by the codes of byte, word and long. -/
def sizeEncOperand : Parse SizeEnc := do
  let k ← nextWord
  match k with
  | 0 => pure .oneBit
  | 1 => pure .twoBit
  | 2 => pure .move
  | 3 => pure .movea
  | 4 => do
    let b ← optOperand
    let w ← optOperand
    let l ← optOperand
    pure { byte := b, word := w, long := l }
  | _ => badOperand

/-- One row of an addressing-mode table. -/
def amRowOperand : Parse AmRow := do
  let v ← oneOf allVariants
  let m ← optOperand
  let n ← optOperand
  pure { variant := v, m := m, n := n }

/-- An addressing-mode encoding: 0 is the default encoding (R95), 1 is reg/reg and the position of its register number
(R96), 2 is followed by the fields and the table. -/
def amEncOperand : Parse AmEnc := do
  let k ← nextWord
  match k with
  | 0 => pure .default
  | 1 => do
    let p ← nextWord
    pure (.regReg p)
  | 2 => do
    let mPos ← nextWord
    let mWidth ← nextWord
    let nPos ← nextWord
    let nWidth ← nextWord
    let rows ← countedOperand amRowOperand
    pure { mPos := mPos, mWidth := mWidth, nPos := nPos, nWidth := nWidth, rows := rows }
  | _ => badOperand

/-- A device's kind: 0 RAM, 1 the open bus, 2 and a number for a device of the host. -/
def deviceKindOperand : Parse DeviceKind := do
  let k ← nextWord
  match k with
  | 0 => pure .ram
  | 1 => pure .openBus
  | 2 => do
    let id ← nextWord
    pure (.external id)
  | _ => badOperand

/-- A device: first page, last page, kind. -/
def deviceOperand : Parse Device := do
  let f ← nextWord
  let l ← nextWord
  let k ← deviceKindOperand
  pure { first := f, last := l, kind := k }

/-- A page: its sixteen entries. -/
def pageOperand : Parse (Vector Nat 16) := do
  let xs ← listOperand nextWord 16
  pure (Vector.ofFn (fun i => xs.getD i.val 0))

/-- The operands of the operation with select code `opsel` (R110, R111). A width that is at least 1 is given less one, a
level as the number of levels still open, a depth less one, so that words of zeros are operands of every operation. -/
def parseSelect (opsel : Nat) : Parse Instr :=
  match opsel with
  | 0x00 => do
    let wx ← nextWord
    let x ← nextWord
    let lo ← nextWord
    let w ← nextWord
    pure (.extract (wx + 1) x lo w)
  | 0x01 => do
    let wx ← nextWord
    let x ← nextWord
    let wy ← nextWord
    let y ← nextWord
    pure (.overwrite wx x wy y)
  | 0x02 => do
    let wt ← nextWord
    let wy ← nextWord
    let y ← nextWord
    pure (.extend (wt + 1) (wy + 1) y)
  | 0x03 => do
    let wt ← nextWord
    let wy ← nextWord
    let y ← nextWord
    pure (.truncate wt wy y)
  | 0x04 => do
    let w ← nextWord
    let a ← nextWord
    let b ← nextWord
    pure (.addo (w + 1) a b)
  | 0x05 => do
    let w ← nextWord
    let a ← nextWord
    let b ← nextWord
    pure (.subo (w + 1) a b)
  | 0x08 => do
    let v ← bitsOperand 8
    pure (.tobcd v)
  | 0x09 => do
    let b ← bitsOperand 8
    pure (.frombcd b)
  | 0x0A => do
    let d ← bitsOperand 8
    let s ← bitsOperand 8
    let x ← boolOperand
    pure (.bcdadd d s x)
  | 0x0B => do
    let d ← bitsOperand 8
    let s ← bitsOperand 8
    let x ← boolOperand
    pure (.bcdsub d s x)
  | 0x10 => do
    let cs ← countedOperand charOperand
    pure (.patnew cs)
  | 0x11 => do
    let p ← patternOperand
    let w ← bitsOperand 16
    pure (.matchWord p w)
  | 0x12 => do
    let p ← patternOperand
    pure (.specificity p)
  | 0x14 => do
    let e ← sizeEncOperand
    pure (.szwidth e)
  | 0x15 => do
    let e ← sizeEncOperand
    let b ← nextWord
    pure (.szdec e b)
  | 0x16 => do
    let e ← sizeEncOperand
    let s ← oneOf allSizes
    pure (.szenc e s)
  | 0x17 => do
    let e ← sizeEncOperand
    pure (.szcount e)
  | 0x18 => do
    let e ← amEncOperand
    let w ← bitsOperand 16
    pure (.amdec e w)
  | 0x20 => do
    let i ← nextWord
    pure (.permute i)
  | 0x21 => pure .sort
  | 0x22 => do
    let w ← bitsOperand 16
    pure (.matchidx w)
  | 0x23 => do
    let pfx ← nextWord
    let openLevels ← oneOf [4, 3, 2, 1, 0]
    pure (.visit pfx openLevels)
  | 0x24 => do
    let x ← nextWord
    let k ← nextWord
    pure (.stub x (k + 1))
  | 0x25 => do
    let p ← pageOperand
    pure (.intern p)
  | 0x26 => pure .compress
  | 0x27 => pure .bind
  | 0x30 => do
    let w ← bitsOperand 16
    pure (.decode w)
  | 0x31 => pure .step
  | 0x40 => do
    let w ← oneOf allSizes
    let t ← oneOf [Slot.src, .dst]
    let c ← boolOperand
    let k ← boolOperand
    let op ← oneOf [EaOp.load, .store, .none]
    let e ← amEncOperand
    pure (.eaStep w t c k op e)
  | 0x41 => do
    let w ← oneOf allSizes
    let t ← oneOf [Slot.src, .dst]
    let c ← oneOf [RegClass.data, .addr]
    let p ← nextWord
    pure (.ldReg w t c p)
  | 0x42 => do
    let w ← oneOf allSizes
    let c ← oneOf [RegClass.data, .addr]
    let p ← nextWord
    pure (.stReg w c p)
  | 0x43 => pure .fetch
  | 0x44 => do
    let op ← oneOf [BcdOp.add, .sub]
    pure (.bcd op)
  | 0x45 => do
    let n ← nextWord
    pure (.cycles n)
  | 0x48 => pure .extword
  | 0x49 => do
    let w ← oneOf allSizes
    pure (.fetchw w)
  | 0x4A => do
    let a ← bitsOperand 32
    let w ← oneOf allSizes
    pure (.read w a)
  | 0x4B => do
    let a ← bitsOperand 32
    let w ← oneOf allSizes
    let v ← bitsOperand 32
    pure (.write w a v)
  | 0x4C => do
    let aw ← nextWord
    let dw ← nextWord
    let ps ← nextWord
    let md ← nextWord
    let ob ← boolOperand
    let ds ← countedOperand deviceOperand
    pure (.businit { addrWidth := aw, dataWidth := dw, pageSize := ps, maxDevices := md } ob ds)
  | _ => fun _ => .error .unassignedSelect

/-! ### The decoder -/

/-- The opcode-word rows of the table: the two forms of `abcd` (R232) and the illegal example (R303). -/
def decodeOpcode (w : Word) : Except DecodeError Instr :=
  if w &&& 0xF1F8 = 0xC100 then .ok (.abcdReg (extract w 9 3) (extract w 0 3))
  else if w &&& 0xF1F8 = 0xC108 then .ok (.abcdMem (extract w 9 3) (extract w 0 3))
  else if w = 0x4AFC then .ok .illegal
  else .error .unknownOpcodeWord

/-- The decoder: total, and it rejects by name. -/
def decode : Code → Except DecodeError Instr
  | .opcode w => decodeOpcode w
  | .select opsel operands =>
    match parseSelect opsel.toNat operands with
    | .error e => .error e
    | .ok (i, []) => if i.wf then .ok i else .error .outsideDomain
    | .ok (_, _ :: _) => .error .extraOperands

/-- The instruction the decoder reads from a table row's bits: an opcode word for the 16-bit rows, otherwise a select code
in the low byte, its operand words absent. -/
def decodeTableWord (nbits w : Nat) : Option Instr :=
  let code := if nbits = 16 then Code.opcode (BitVec.ofNat 16 w) else Code.select (BitVec.ofNat 8 w) []
  match decode code with
  | .ok i => some i
  | .error _ => none

/-! ### The encoder -/

/-- The place of an entry in a list, the word `oneOf` reads. -/
def indexWord {α : Type} [DecidableEq α] (xs : List α) (a : α) : Nat := xs.findIdx (fun b => decide (b = a))

/-- The word `boolOperand` reads. -/
def boolWord (b : Bool) : Nat := if b then 1 else 0

/-- The word `optOperand` reads. -/
def optWord : Option Nat → Nat
  | none => 0
  | some k => k + 1

/-- The words of a size encoding. -/
def sizeEncWords (e : SizeEnc) : List Nat :=
  if e = .oneBit then [0]
  else if e = .twoBit then [1]
  else if e = .move then [2]
  else if e = .movea then [3]
  else [4, optWord e.byte, optWord e.word, optWord e.long]

/-- The words of one row of an addressing-mode table. -/
def amRowWords (r : AmRow) : List Nat := [indexWord allVariants r.variant, optWord r.m, optWord r.n]

/-- The words of an addressing-mode encoding. -/
def amEncWords (e : AmEnc) : List Nat :=
  if e = .default then [0]
  else if e = .regReg e.nPos then [1, e.nPos]
  else [2, e.mPos, e.mWidth, e.nPos, e.nWidth, e.rows.length] ++ e.rows.flatMap amRowWords

/-- The words of a device's kind. -/
def deviceKindWords : DeviceKind → List Nat
  | .ram => [0]
  | .openBus => [1]
  | .external id => [2, id]

/-- The words of a device. -/
def deviceWords (d : Device) : List Nat := [d.first, d.last] ++ deviceKindWords d.kind

/-- The opcode word of a form of `abcd`: `1100ddd10000msss` (R108). -/
def abcdWord (m : BitVec 1) (dst src : BitVec 3) : Word :=
  0xC100#16 ||| (dst.setWidth 16 <<< 9) ||| (m.setWidth 16 <<< 3) ||| src.setWidth 16

/-- The code of an instruction. -/
def encode : Instr → Code
  | .extract wx x lo w => .select 0x00 [wx - 1, x, lo, w]
  | .overwrite wx x wy y => .select 0x01 [wx, x, wy, y]
  | .extend wt wy y => .select 0x02 [wt - 1, wy - 1, y]
  | .truncate wt wy y => .select 0x03 [wt, wy, y]
  | .addo w a b => .select 0x04 [w - 1, a, b]
  | .subo w a b => .select 0x05 [w - 1, a, b]
  | .tobcd v => .select 0x08 [v.toNat]
  | .frombcd b => .select 0x09 [b.toNat]
  | .bcdadd d s x => .select 0x0A [d.toNat, s.toNat, boolWord x]
  | .bcdsub d s x => .select 0x0B [d.toNat, s.toNat, boolWord x]
  | .patnew cs => .select 0x10 (cs.length :: cs.map Char.toNat)
  | .matchWord p w => .select 0x11 [p.set.toNat, p.any.toNat, w.toNat]
  | .specificity p => .select 0x12 [p.set.toNat, p.any.toNat]
  | .szwidth e => .select 0x14 (sizeEncWords e)
  | .szdec e b => .select 0x15 (sizeEncWords e ++ [b])
  | .szenc e s => .select 0x16 (sizeEncWords e ++ [indexWord allSizes s])
  | .szcount e => .select 0x17 (sizeEncWords e)
  | .amdec e w => .select 0x18 (amEncWords e ++ [w.toNat])
  | .permute i => .select 0x20 [i]
  | .sort => .select 0x21 []
  | .matchidx w => .select 0x22 [w.toNat]
  | .visit pfx level => .select 0x23 [pfx, 4 - level]
  | .stub x depthLeft => .select 0x24 [x, depthLeft - 1]
  | .intern p => .select 0x25 p.toList
  | .compress => .select 0x26 []
  | .bind => .select 0x27 []
  | .decode w => .select 0x30 [w.toNat]
  | .step => .select 0x31 []
  | .eaStep w t c k op e =>
    .select 0x40 ([indexWord allSizes w, indexWord [Slot.src, .dst] t, boolWord c, boolWord k,
      indexWord [EaOp.load, .store, .none] op] ++ amEncWords e)
  | .ldReg w t c p =>
    .select 0x41 [indexWord allSizes w, indexWord [Slot.src, .dst] t, indexWord [RegClass.data, .addr] c, p]
  | .stReg w c p => .select 0x42 [indexWord allSizes w, indexWord [RegClass.data, .addr] c, p]
  | .fetch => .select 0x43 []
  | .bcd op => .select 0x44 [indexWord [BcdOp.add, .sub] op]
  | .cycles n => .select 0x45 [n]
  | .extword => .select 0x48 []
  | .fetchw w => .select 0x49 [indexWord allSizes w]
  | .read w a => .select 0x4A [a.toNat, indexWord allSizes w]
  | .write w a v => .select 0x4B [a.toNat, indexWord allSizes w, v.toNat]
  | .businit p ob ds =>
    .select 0x4C ([p.addrWidth, p.dataWidth, p.pageSize, p.maxDevices, boolWord ob, ds.length] ++ ds.flatMap deviceWords)
  | .abcdReg d s => .opcode (abcdWord 0 d s)
  | .abcdMem d s => .opcode (abcdWord 1 d s)
  | .illegal => .opcode 0x4AFC

end Sys2Proof
end

