-- ==== Sys2Proof/Machine/Types.lean ====
section
/-! DEFINITION. The parts of the host state (10_state.md section 4): status register, CPU, execution context, bus; and what a
host-given handler may do. Plain data. -/

namespace Sys2Proof.Machine

/-- The status register's fields (10_state.md R34); `Sr.pack` gives their places in the 16-bit word. -/
structure Sr where
  /-- carry -/
  c : Bool
  /-- overflow -/
  v : Bool
  /-- zero -/
  z : Bool
  /-- negative -/
  n : Bool
  /-- extend -/
  x : Bool
  /-- unnamed, bits 7:5 -/
  unnamed7_5 : BitVec 3
  /-- interrupt priority level -/
  ipl : BitVec 3
  /-- unnamed, bit 11 -/
  unnamed11 : Bool
  /-- master -/
  m : Bool
  /-- supervisor -/
  s : Bool
  /-- trace -/
  t : BitVec 2
deriving DecidableEq, Repr, Inhabited

/-- The host CPU: `d[0..7]` (R32), `a[0..7]` (R33), `pc` (R35), `ir` (R36), `sr` (R34). -/
structure Cpu where
  d : Vector Long 8
  a : Vector Long 8
  pc : Long
  ir : Word
  sr : Sr
deriving DecidableEq, Repr, Inhabited

/-- One effective-address slot; a word no step has written holds no value (R38, R39). -/
structure EaSlot where
  addr : Option Long
  data : Option Long
deriving DecidableEq, Repr, Inhabited

/-- The execution context (R38). Its borrowed bus is the one bus of `State`. -/
structure ExecCtx where
  src : EaSlot
  dst : EaSlot
  clk : Nat
deriving DecidableEq, Repr, Inhabited

/-- The execution context as `STEP` constructs it: slots empty, `clk = 0` (R39, R290). -/
def ExecCtx.fresh : ExecCtx := { src := ⟨none, none⟩, dst := ⟨none, none⟩, clk := 0 }

/-- One transaction a device sees: its place in the device list, the device-local address and the mask, and on a write
the data (20_memory.md R56, R58); mask and data are `data_width`-bit integers (R61). -/
structure BusAccess where
  device : Nat
  localAddr : Nat
  mask : Nat
  data : Option Nat
deriving DecidableEq, Repr, Inhabited

/-- The bus (R54 to R59): parameters, devices, the open bus if one was given, and the page-to-device index table, in
which `devices.length` stands for the open bus. -/
structure Bus where
  params : BusParams
  devices : List Device
  openBus : Bool
  pageTable : List Nat
deriving DecidableEq, Repr, Inhabited

/-- RAM contents: bus byte addresses and bytes, in canonical form (log 8, log 19). -/
abbrev Memory := List Host.Cell

/-- One access that a host-given handler makes: through the execution context (20_memory.md R66 to R71), or through the bus handle
the context holds (R58), which adds no cycles and whose mask and data are taken as `data_width`-bit integers (R61). -/
inductive HostAccess where
  | read (w : Size) (addr : Long)
  | write (w : Size) (addr v : Long)
  | busRead (addr : Long) (mask : Nat)
  | busWrite (addr : Long) (mask data : Nat)
deriving DecidableEq, Repr, Inhabited

/-- What one call of a host-given handler does beside its accesses (60_exceptions.md R302, 93_implementation_defined.md U11): the CPU
it leaves, the cycles it adds, and whether it terminates the run. -/
structure HostEffect where
  cpu : Cpu
  cycles : Nat
  terminates : Bool
deriving DecidableEq, Repr, Inhabited

end Sys2Proof.Machine
end

