-- ==== Sys2Proof/Config.lean ====
section
/-! DEFINITION. What the host fixes, and the open values. An open value is an opaque constant: nothing can be proved of it, so a
claim holds whatever it is. -/

namespace Sys2Proof.Config

open Sys2Proof.Machine

/-- What an unlisted byte of RAM reads as: DESIGN CHOICE, unsafe (log 8). -/
def ramReset : Byte := 0

/-- The word an empty `ea` slot gives, one for each use (93_implementation_defined.md U6; DESIGN CHOICE, safe, log 11). -/
opaque freeWord : Nat → Long

/-- `BCD_WIDE(op, dst, src, x)` (00_scope.md R10, 41_bcd.md R152; safe, log 12). -/
opaque bcdWide : BcdOp → Byte → Byte → Bool → Byte × Bool

/-- What a device of the host answers to the last access of a history of its accesses (20_memory.md R56, 93_implementation_defined.md
U22; safe, log 20). -/
opaque deviceRead : Nat → List BusAccess → Nat

/-- What a RAM device, by its place and the history of its accesses, answers where the spec gives no byte of its pages (DESIGN CHOICE,
safe, logs 19 and 36). -/
opaque ramOpen : Nat → List BusAccess → Nat

/-- How many accesses a call of a handler of the host makes at most: the call's number, the CPU and the context it is given (R302,
U11; safe, log 5). -/
opaque hostBound : Nat → Cpu → ExecCtx → Nat

/-- The next access of a call of a handler of the host, by what its accesses so far have read; none where it makes no more
(log 5). -/
opaque hostAccess : Nat → Cpu → ExecCtx → List Nat → Option HostAccess

/-- What a call of a handler of the host does beside its accesses, by what they have read (log 5). -/
opaque hostEffect : Nat → Cpu → ExecCtx → List Nat → HostEffect

/-- What `COMPRESS` stores for an entry that is no number of IW bits, by the use's number, page and place (46_trie_build.md R270;
DESIGN CHOICE, safe, log 25). -/
opaque freeEntry : Nat → Nat → Nat → Nat

/-- The "Main" Genesis bus preset, as the source gives it (20_memory.md R76). -/
def busMain : BusParams := { addrWidth := 23, dataWidth := 16, pageSize := 0x100000, maxDevices := 7 }

/-- The "Sub" Genesis bus preset (20_memory.md R76). -/
def busSub : BusParams := { addrWidth := 16, dataWidth := 8, pageSize := 0x1000, maxDevices := 5 }

/-- The parameters of the test bus (92_eei_decisions.md D35). -/
def busTest : BusParams := { addrWidth := 24, dataWidth := 16, pageSize := 0x100000, maxDevices := 7 }

end Sys2Proof.Config
end

