-- ==== Sys2Proof/Machine/Reference.lean ====
section
/-! DEFINITION. The instruction descriptors the spec gives: `abcd`, reconstructed from the source's scenarios (44_microcode.md
R232), and the spec's two toy instructions (95_test_vectors.md, conventions). -/

namespace Sys2Proof.Machine

/-- The source operand's encoding of `abcd`: reg/reg, register number at 0 (R232). -/
def abcdRS : AmEnc := .regReg 0

/-- The destination operand's encoding of `abcd`: reg/reg, register number at 9 (R232). -/
def abcdRD : AmEnc := .regReg 9

/-- The pipeline of `abcd` (R232). -/
def abcdCode : Pipeline :=
  ((((Pipeline.empty.ea .src true false .load abcdRS).ea .dst true false .load abcdRD).bcd .add).ea
    .dst false false .store abcdRD).fetch

/-- The descriptor of `abcd`, template `1100xxx10000xxxx` (R232). -/
def abcdDescriptor : Descriptor :=
  { name := ['a', 'b', 'c', 'd'], size := .static .byte, opcode := { set := 0xC100, any := 0x0E0F }, code := abcdCode }

/-- The toy instruction `t2`, template `01001010xxxxxxxx` (45_permutation.md R248). -/
def t2Descriptor : Descriptor :=
  { name := ['t', '2'], size := .dynamic 6 .twoBit, opcode := { set := 0x4A00, any := 0x00FF }
    code := (Pipeline.empty.ea .src true true .load .default).fetch }

/-- The toy instruction `t1`, template `0100111001110001` (R248). -/
def t1Descriptor : Descriptor :=
  { name := ['t', '1'], size := .absent, opcode := { set := 0x4E71, any := 0x0000 }, code := Pipeline.empty.fetch }

/-- The toy set in its order (R248). -/
def toyIsd : List Descriptor := [abcdDescriptor, t2Descriptor, t1Descriptor]

end Sys2Proof.Machine
end

