-- ==== Sys2Proof/Machine/State.lean ====
section
/-! DEFINITION. The state of the machine as plain data, the reasons a step can stop, and the state after reset (10_state.md). -/

namespace Sys2Proof.Machine

/-! ### The block's constants and the builder's lists -/

/-- A permutation: size, refined pattern, and the originating descriptor by its place in ISD (10_state.md R25). -/
structure Permutation where
  size : Option Size
  pattern : Pattern
  instr : Nat
deriving DecidableEq, Repr, Inhabited

/-- A handler: a pipeline finalised at a width or at no width (44_microcode.md R227), or a function the host gives (R10). -/
inductive Handler where
  | pipeline (steps : List Step) (width : Option Size)
  | host
deriving DecidableEq, Repr, Inhabited

/-- A page of the trie: sixteen numbers (46_trie_build.md R258). -/
abbrev Page := Vector Nat 16

/-- The narrowed table: `N` pages of sixteen entries of `iw` bits (10_state.md R29, 46_trie_build.md R270). -/
structure Table where
  iw : Nat
  pages : List Page
deriving DecidableEq, Repr, Inhabited

/-- The block's constants: permutation list (R27), handler array (R28), trie table (R29), root index (R30). -/
structure Rom where
  perms : List Permutation
  handlers : List Handler
  table : Table
  top : Nat
deriving DecidableEq, Repr, Inhabited

/-- The builder's working lists (70_reset_and_hazards.md R333; log 9). -/
structure Builder where
  unsorted : List Permutation
  perms : List Permutation
  handlers : List Handler
  pages : List Page
  top : Nat
  table : Table
deriving DecidableEq, Repr, Inhabited

/-- The builder before its first operation. -/
def Builder.start : Builder :=
  { unsorted := [], perms := [], handlers := [], pages := [], top := 0, table := { iw := 0, pages := [] } }

/-! ### The model's own ports -/

/-- A request at the select port: the OPSEL code and the operand words (30_encoding.md R110; log 1, log 2). -/
structure Request where
  opsel : Byte
  operands : List Nat
deriving DecidableEq, Repr, Inhabited

/-- What an operation returns (log 3). -/
inductive Result where
  /-- Nothing has been returned yet. -/
  | none
  /-- A value of `width` bits. -/
  | bits (width value : Nat)
  /-- `(result, uovf, sovf)` of `ADDO` and `SUBO`. -/
  | overflow (width value : Nat) (uovf sovf : Bool)
  /-- A byte with a carry or borrow. -/
  | bcd (res : Byte) (carry : Bool)
  /-- An opcode pattern. -/
  | pattern (p : Pattern)
  /-- One bit. -/
  | flag (b : Bool)
  /-- A number: a specificity, a width, a count. -/
  | number (n : Nat)
  /-- A size class or absent. -/
  | size (s : Option Size)
  /-- A size code or absent. -/
  | code (c : Option Nat)
  /-- A variant and the value of the `n` field, or absent. -/
  | variant (v : Option (Variant × Nat))
  /-- A list of permutations. -/
  | perms (ps : List Permutation)
  /-- A match index or a page index. -/
  | index (i : Nat)
  /-- The narrowed table and its root. -/
  | table (t : Table) (top : Nat)
  /-- The handler array. -/
  | handlers (hs : List Handler)
  /-- The cycles of one `STEP`. -/
  | cycles (n : Nat)
  /-- `init` returned a bus. -/
  | bus
  /-- A construction-time error, surfaced to the host (60_exceptions.md R300). -/
  | error (e : ConstructionError)
deriving DecidableEq, Repr

/-! ### The state -/

/-- The machine's state: every piece INVENTORY.md lists. -/
structure State where
  /-- the host CPU (R32 to R36) -/
  cpu : Cpu
  /-- the execution context (R38) -/
  exec : ExecCtx
  /-- the bus (R41) -/
  bus : Bus
  /-- the contents of the RAM devices -/
  mem : Memory
  /-- the transactions the devices have seen, oldest first -/
  trace : List BusAccess
  /-- the instruction-set description (R23, R10) -/
  isd : List Descriptor
  /-- the parameter FALLBACK (R10) -/
  fallback : Handler
  /-- the block's constants (R20) -/
  rom : Rom
  /-- the builder's working lists (R333) -/
  builder : Builder
  /-- requests at the select port, oldest first (log 1) -/
  port : List Request
  /-- the last result returned (log 3) -/
  out : Result
  /-- how many open values and calls of a host-given handler there have been (logs 5, 11, 25) -/
  free : Nat
deriving DecidableEq, Repr

/-- Faults. -/
inductive Fault where
  /-- Raised by a host-given FALLBACK that terminates the run (60_exceptions.md R302). Safe. -/
  | hostTerminated
deriving DecidableEq, Repr

/-- Refusals. -/
inductive Refusal where
  /-- Raised by `exec` for an instruction that has no meaning yet. Safe. -/
  | notModelled (mnemonic : String)
  /-- Raised by `step`: no operation has the requested select code (30_encoding.md R110, R111). Safe. -/
  | unassignedSelect
  /-- Raised by `step`: the requested operand words are no operands of the operation (log 2). Safe. -/
  | badOperandWords
  /-- Raised by a meaning or by `step`: an operand is outside the domain its rule states (R120, R188 and others; log 21). Safe. -/
  | operandOutsideDomain
  /-- Raised by an `ea` step whose mode decodes to absent (U7). Safe. -/
  | addressingModeAbsent
  /-- Raised by an `ea` step that uses register `n` where the `n` field is above 7: no such register exists (00_scope.md R13, R14,
  10_state.md R32, R33; log 22). Safe. -/
  | registerAbsent
  /-- Raised by a word or long access, or a fetch, at an odd address (20_memory.md R74, D19). Safe. -/
  | oddAddress
  /-- Raised by an access on a bus whose data width is not 16 (20_memory.md R65, N17). Safe. -/
  | noExecutionContext
  /-- Raised by an access to a page without an owner: no valid bus has one (20_memory.md R57). Safe. -/
  | unmappedPage
  /-- Raised by a table read outside the table: no built table allows one (20_memory.md R51, 46_trie_build.md R272). Safe. -/
  | tableReadOutside
  /-- Raised by a handler read outside the handler array: `BIND` makes `P + 1` handlers (R286). Safe. -/
  | noHandler
  /-- Raised by a width-parameterised step run without a width: `BIND` makes no such handler (R227). Safe. -/
  | widthAbsent
  /-- Raised by `PERMUTE` for a place that ISD does not have and for a size field that 70_reset_and_hazards.md R335 leaves out, and by
  `BIND` for a permutation of no descriptor of ISD (10_state.md R25). Safe. -/
  | noSuchDescriptor
deriving DecidableEq, Repr

/-! ### Reset -/

/-- Registers after reset: INIT, DESIGN CHOICE all zero (log 7) but for `sr.s = 1` (10_state.md R44). -/
def Cpu.reset : Cpu :=
  { d := Vector.replicate 8 0, a := Vector.replicate 8 0, pc := 0, ir := 0
    sr := { c := false, v := false, z := false, n := false, x := false, unnamed7_5 := 0, ipl := 0
            unnamed11 := false, m := false, s := true, t := 0 } }

/-- The test bus: device A, RAM on page 0, and device B, RAM on pages 1 to 15 (D35; log 6). -/
def Bus.reset : Bus :=
  { params := Config.busTest
    devices := [⟨0, 0, .ram⟩, ⟨1, 15, .ram⟩]
    openBus := false
    pageTable := [0, 1, 1, 1, 1, 1, 1, 1, 1, 1, 1, 1, 1, 1, 1, 1] }

/-- A page of sixteen equal numbers. -/
def Page.all (x : Nat) : Page := Vector.replicate 16 x

/-- The toy set's permutations, sorted (45_permutation.md R248). -/
def toyPerms : List Permutation :=
  [ { size := none, pattern := ⟨0x4E71, 0x0000⟩, instr := 2 }
  , { size := some .byte, pattern := ⟨0x4A00, 0x003F⟩, instr := 1 }
  , { size := some .word, pattern := ⟨0x4A40, 0x003F⟩, instr := 1 }
  , { size := some .long, pattern := ⟨0x4A80, 0x003F⟩, instr := 1 }
  , { size := some .byte, pattern := ⟨0xC100, 0x0E0F⟩, instr := 0 } ]

/-- The toy set's thirteen pages (46_trie_build.md R274). -/
def toyPages : List Page :=
  [ Page.all 5
  , Page.all 0
  , Page.all 1
  , Page.all 2
  , Page.all 3
  , #v[2, 2, 2, 2, 3, 3, 3, 3, 4, 4, 4, 4, 0, 0, 0, 0]
  , #v[5, 0, 5, 5, 5, 5, 5, 5, 5, 5, 5, 5, 5, 5, 5, 5]
  , #v[0, 0, 0, 0, 0, 0, 0, 6, 0, 0, 0, 0, 0, 0, 0, 0]
  , #v[1, 1, 1, 1, 1, 1, 1, 1, 1, 1, 5, 1, 1, 1, 7, 1]
  , Page.all 4
  , #v[9, 0, 0, 0, 0, 0, 0, 0, 0, 0, 0, 0, 0, 0, 0, 0]
  , #v[1, 10, 1, 10, 1, 10, 1, 10, 1, 10, 1, 10, 1, 10, 1, 10]
  , #v[2, 2, 2, 2, 8, 2, 2, 2, 2, 2, 2, 2, 11, 2, 2, 2] ]

/-- The reference fallback `nop`: it changes nothing (D18). -/
def fallbackNop : Handler := .pipeline [] none

/-- The reference fallback `skip`: `ir <- fetch(16, cpu)` (D18). -/
def fallbackSkip : Handler := .pipeline [.fetch] none

/-- The constants built from the toy set with the fallback `nop` (R248, R274, R286). -/
def Rom.reset : Rom :=
  { perms := toyPerms
    handlers :=
      [ .pipeline t1Descriptor.code.steps none
      , .pipeline t2Descriptor.code.steps (some .byte)
      , .pipeline t2Descriptor.code.steps (some .word)
      , .pipeline t2Descriptor.code.steps (some .long)
      , .pipeline abcdCode.steps (some .byte)
      , fallbackNop ]
    table := { iw := 4, pages := toyPages }
    top := 12 }

/-- The machine right after reset: the constants as built, every register at INIT (10_state.md R44, 70_reset_and_hazards.md
R331). ISD, FALLBACK, BUS and INIT are parameters; their values here are DESIGN CHOICES (logs 4 to 7). -/
def State.reset : State :=
  { cpu := Cpu.reset, exec := ExecCtx.fresh, bus := Bus.reset, mem := [], trace := []
    isd := toyIsd, fallback := fallbackNop, rom := Rom.reset, builder := Builder.start
    port := [], out := .none, free := 0 }

end Sys2Proof.Machine
end

