-- ==== Sys2Proof/Machine/Ops.lean ====
section
/-! DEFINITION. The shared operations over registers, execution context, memory and bus (10_state.md, 20_memory.md sections 3 to 6),
and the outcomes of an operation that can stop. -/

namespace Sys2Proof.Machine

/-! ### Outcomes -/

/-- Why an operation stops. -/
inductive Stop where
  | fault (r : Fault)
  | refused (r : Refusal)
deriving DecidableEq, Repr

/-- An operation answers a value or stops. -/
abbrev Res (α : Type) := Except Stop α

/-- Stop with a refusal. -/
def refuse {α : Type} (r : Refusal) : Res α := .error (.refused r)

/-- The outcome of an operation that answers a state. -/
def toOutcome (r : Res State) : Host.Outcome State Fault Refusal :=
  match r with
  | .ok s => .next s
  | .error (.fault f) => .fault f
  | .error (.refused f) => .refused f

/-- Run `k` if the instruction's operands are inside their domain, else refuse (log 21). -/
def inDomain (i : Instr) (k : Res State) : Host.Outcome State Fault Refusal :=
  if i.wf then toOutcome k else .refused .operandOutsideDomain

/-- Leave a result on the output port. -/
def State.returns (s : State) (r : Result) : State := { s with out := r }

/-! ### Registers (R32 to R36) -/

/-- `d[n]` (R32). -/
def Cpu.getD (c : Cpu) (n : BitVec 3) : Long := c.d[n.toFin]
/-- `a[n]` (R33). -/
def Cpu.getA (c : Cpu) (n : BitVec 3) : Long := c.a[n.toFin]
/-- `d[n] <- v` (R32). -/
def Cpu.setD (c : Cpu) (n : BitVec 3) (v : Long) : Cpu := { c with d := c.d.set n.toFin v }
/-- `a[n] <- v` (R33). -/
def Cpu.setA (c : Cpu) (n : BitVec 3) (v : Long) : Cpu := { c with a := c.a.set n.toFin v }

/-- `d[n] <- v`. -/
def State.setD (s : State) (n : BitVec 3) (v : Long) : State := { s with cpu := s.cpu.setD n v }
/-- `a[n] <- v`. -/
def State.setA (s : State) (n : BitVec 3) (v : Long) : State := { s with cpu := s.cpu.setA n v }
/-- `pc <- v`. -/
def State.setPc (s : State) (v : Long) : State := { s with cpu := { s.cpu with pc := v } }
/-- `ir <- v`. -/
def State.setIr (s : State) (v : Word) : State := { s with cpu := { s.cpu with ir := v } }
/-- Replace the status register. -/
def State.setSr (s : State) (v : Sr) : State := { s with cpu := { s.cpu with sr := v } }

/-- Read a register of a class at width precision (R207, R215). -/
def Cpu.loadReg (c : Cpu) (w : Size) (cls : RegClass) (n : BitVec 3) : Long :=
  match cls with
  | .data => Size.zeroLow w (c.getD n)
  | .addr => Size.signLow w (c.getA n)

/-- Write a register of a class at width `w`: a data register keeps its upper bits, an address register is written whole
(R32, R33, R208, R217). -/
def State.storeReg (s : State) (w : Size) (cls : RegClass) (n : BitVec 3) (v : Long) : State :=
  match cls with
  | .data => s.setD n (overwrite (s.cpu.getD n) (truncate w.bits v))
  | .addr => s.setA n (Size.signLow w v)

/-! ### Execution context (R38 to R40) -/

/-- The slot of a transfer. -/
def ExecCtx.slot (e : ExecCtx) (t : Slot) : EaSlot :=
  match t with
  | .src => e.src
  | .dst => e.dst

/-- Replace the slot of a transfer. -/
def ExecCtx.setSlot (e : ExecCtx) (t : Slot) (v : EaSlot) : ExecCtx :=
  match t with
  | .src => { e with src := v }
  | .dst => { e with dst := v }

/-- `exec.ea[t].addr <- v`. -/
def State.setAddr (s : State) (t : Slot) (v : Long) : State :=
  { s with exec := s.exec.setSlot t { s.exec.slot t with addr := some v } }
/-- `exec.ea[t].data <- v`. -/
def State.setData (s : State) (t : Slot) (v : Long) : State :=
  { s with exec := s.exec.setSlot t { s.exec.slot t with data := some v } }
/-- `exec.clk <- exec.clk + n` (R40). -/
def State.addClk (s : State) (n : Nat) : State := { s with exec := { s.exec with clk := s.exec.clk + n } }

/-- Use a word that may hold no value: the value, or the next open value (U6; log 11). -/
def State.useWord (s : State) (v : Option Long) : Long × State :=
  match v with
  | some x => (x, s)
  | none => (Config.freeWord s.free, { s with free := s.free + 1 })

/-- Use `exec.ea[t].addr`. -/
def State.useAddr (s : State) (t : Slot) : Long × State := s.useWord (s.exec.slot t).addr
/-- Use `exec.ea[t].data`. -/
def State.useData (s : State) (t : Slot) : Long × State := s.useWord (s.exec.slot t).data

/-! ### RAM contents -/

/-- The canonical form: addresses strictly rising, no entry equal to what an unlisted address reads as. -/
abbrev Memory.wf (m : Memory) : Prop :=
  m.Pairwise (fun x y => x.1 < y.1) ∧ ∀ x ∈ m, x.2 ≠ Config.ramReset

/-- Read one byte. -/
def Memory.read (m : Memory) (a : Nat) : Byte :=
  match m with
  | [] => Config.ramReset
  | (k, b) :: rest => if k = a then b else Memory.read rest a

/-- Write one byte, keeping the canonical form. -/
def Memory.write (m : Memory) (a : Nat) (b : Byte) : Memory :=
  match m with
  | [] => if b = Config.ramReset then [] else [(a, b)]
  | (k, x) :: rest =>
    if a < k then (if b = Config.ramReset then (k, x) :: rest else (a, b) :: (k, x) :: rest)
    else if a = k then (if b = Config.ramReset then rest else (a, b) :: rest)
    else (k, x) :: Memory.write rest a b

/-- The first byte of the bus word that holds address `a` (20_memory.md R62, R63). -/
def wordBase (a : Nat) : Nat := a - a % 2

/-- Read the bus word that holds address `a`: the even byte is the high one (R63). -/
def Memory.readWord (m : Memory) (a : Nat) : Word :=
  Memory.read m (wordBase a) ++ Memory.read m (wordBase a + 1)

/-- Write the bus word that holds address `a`. -/
def Memory.writeWord (m : Memory) (a : Nat) (v : Word) : Memory :=
  Memory.write (Memory.write m (wordBase a) (extract v 8 8)) (wordBase a + 1) (extract v 0 8)

/-- One byte of RAM, by its bus byte address. -/
def State.byteAt (s : State) (a : Nat) : Byte := Memory.read s.mem a

/-! ### The bus (R54 to R64) -/

/-- The address the bus sees: reduced modulo `2^addr_width` (R64). -/
def Bus.address (b : Bus) (addr : Long) : Nat := addr.toNat % 2 ^ b.params.addrWidth

/-- The place in the device list of the device whose page holds a bus address, the open bus standing after the last device (R55). -/
def Bus.deviceAt (b : Bus) (a : Nat) : Option Nat := b.pageTable[a / b.params.pageSize]?

/-- The owner of a bus address: its place in the device list, its kind, and the device-local address (R55, R58, R59). An open bus has no
first page: its local address is the bus address (DESIGN CHOICE, log 35). -/
def Bus.owner (b : Bus) (a : Nat) : Option (Nat × DeviceKind × Nat) :=
  match b.deviceAt a with
  | none => none
  | some i =>
    match b.devices[i]? with
    | some d => some (i, d.kind, a - d.first * b.params.pageSize)
    | none => if b.openBus = true ∧ i = b.devices.length then some (i, .openBus, a) else none

/-- The transactions one device has seen. -/
def historyOf (device : Nat) (trace : List BusAccess) : List BusAccess :=
  trace.filter (fun x => x.device == device)

/-- One byte of RAM device `i`: a byte of its own pages, or an open byte; the contents of another device are never reached (10_state.md
R41; log 19). -/
def ramByte (b : Bus) (i a : Nat) (mem : Memory) (other : Byte) : Byte :=
  if b.deviceAt a = some i then Memory.read mem a else other

/-- What RAM device `i` holds at bus address `a`, a word of `w` bits: on an 8-bit data bus the byte at `a`, on a 16-bit data bus the two
bytes of the bus word (R63), and an open value at a width for which the spec gives no lanes (R65, N17; log 36). -/
def ramAnswer {w : Nat} (b : Bus) (i a : Nat) (mem : Memory) (other : Nat) : BitVec w :=
  if w = 8 then zext w (Memory.read mem a)
  else if w = 16 then
    let o : Word := BitVec.ofNat 16 other
    zext w (ramByte b i (wordBase a) mem (extract o 8 8) ++ ramByte b i (wordBase a + 1) mem (extract o 0 8))
  else BitVec.ofNat w other

/-- What device `i` answers to a read: a masked position is 0 (R61). `a` is the bus address, `trace` ends with this access. -/
def deviceAnswer {w : Nat} (b : Bus) (kind : DeviceKind) (i a : Nat) (mem : Memory) (trace : List BusAccess) (mask : BitVec w) :
    BitVec w :=
  match kind with
  | .ram => ramAnswer b i a mem (Config.ramOpen i (historyOf i trace)) &&& ~~~mask
  | .openBus => 0
  | .external id => BitVec.ofNat w (Config.deviceRead id (historyOf i trace)) &&& ~~~mask

/-- `exec.bus.read(addr, mask)` (R58, R61), the mask a data-width integer. -/
def busRead {w : Nat} (addr : Long) (mask : BitVec w) (s : State) : Res (BitVec w × State) :=
  let a := s.bus.address addr
  match s.bus.owner a with
  | none => refuse .unmappedPage
  | some (i, kind, localAddr) =>
    let t := s.trace ++ [{ device := i, localAddr := localAddr, mask := mask.toNat, data := none }]
    .ok (deviceAnswer s.bus kind i a s.mem t mask, { s with trace := t })

/-- `data` where the mask is clear, `old` where it is set (R61). -/
def maskMerge {w : Nat} (mask old data : BitVec w) : BitVec w := (old &&& mask) ||| (data &&& ~~~mask)

/-- Write one byte of RAM, if it stands in a page of device `i` (10_state.md R41). -/
def Memory.writeByteOf (m : Memory) (b : Bus) (i a : Nat) (v : Byte) : Memory :=
  if b.deviceAt a = some i then Memory.write m a v else m

/-- Write those bytes of the bus word that holds address `a` which stand in pages of device `i`. -/
def Memory.writeWordOf (m : Memory) (b : Bus) (i a : Nat) (v : Word) : Memory :=
  (m.writeByteOf b i (wordBase a) (extract v 8 8)).writeByteOf b i (wordBase a + 1) (extract v 0 8)

/-- What a write to device `i` leaves in RAM: masked positions keep their bits (R61); the open bus discards (R59), a device of the host
keeps its own context, and so does RAM what is no byte of its pages or has no lane (logs 19 and 36). -/
def deviceStore {w : Nat} (b : Bus) (kind : DeviceKind) (i a : Nat) (mem : Memory) (mask data : BitVec w) : Memory :=
  match kind with
  | .ram =>
    if w = 8 then mem.writeByteOf b i a (maskMerge (truncate 8 mask) (Memory.read mem a) (truncate 8 data))
    else if w = 16 then mem.writeWordOf b i a (maskMerge (truncate 16 mask) (mem.readWord a) (truncate 16 data))
    else mem
  | .openBus => mem
  | .external _ => mem

/-- `exec.bus.write(addr, mask, data)` (R58, R61), mask and data data-width integers. -/
def busWrite {w : Nat} (addr : Long) (mask data : BitVec w) (s : State) : Res State :=
  let a := s.bus.address addr
  match s.bus.owner a with
  | none => refuse .unmappedPage
  | some (i, kind, localAddr) =>
    .ok { s with mem := deviceStore s.bus kind i a s.mem mask data
                 trace := s.trace ++
                   [{ device := i, localAddr := localAddr, mask := mask.toNat, data := some data.toNat }] }

/-- Is the address odd (R62, R74)? -/
def isOdd (addr : Long) : Bool := addr.getLsbD 0

/-- The mask of a byte access on a 16-bit data bus (R62). -/
def laneMask (addr : Long) : Word := if isOdd addr then 0xFF00 else 0x00FF

/-- The byte of a bus word at an address (R66). -/
def laneByte (addr : Long) (w : Word) : Byte := if isOdd addr then extract w 0 8 else extract w 8 8

/-- A byte in its lane of a bus word, the other lane 0 (R69). -/
def laneWord (addr : Long) (v : Byte) : Word := if isOdd addr then zext 16 v else zext 16 v <<< 8

/-! ### The execution context's read, write and fetch (R66 to R74) -/

/-- `MemRead(addr, w)`, the value zero-extended to 32 bits (R66, R67, R68; R65, R74). -/
def memRead (w : Size) (addr : Long) (s : State) : Res (Long × State) :=
  if s.bus.params.dataWidth ≠ 16 then refuse .noExecutionContext
  else
    match w with
    | .byte => do
      let (x, s1) ← busRead addr (laneMask addr) s
      pure (zext 32 (laneByte addr x), s1.addClk 4)
    | .word =>
      if isOdd addr then refuse .oddAddress
      else do
        let (x, s1) ← busRead addr (0 : Word) s
        pure (zext 32 x, s1.addClk 4)
    | .long =>
      if isOdd addr then refuse .oddAddress
      else do
        let (hi, s1) ← busRead addr (0 : Word) s
        let (lo, s2) ← busRead (addr + 2) (0 : Word) s1
        pure (hi ++ lo, s2.addClk 8)

/-- `MemWrite(addr, w, v)`, `v` in the low `w` bits (R69, R70, R71; R65, R74). -/
def memWrite (w : Size) (addr : Long) (v : Long) (s : State) : Res State :=
  if s.bus.params.dataWidth ≠ 16 then refuse .noExecutionContext
  else
    match w with
    | .byte => do
      let s1 ← busWrite addr (laneMask addr) (laneWord addr (truncate 8 v)) s
      pure (s1.addClk 4)
    | .word =>
      if isOdd addr then refuse .oddAddress
      else do
        let s1 ← busWrite addr (0 : Word) (truncate 16 v) s
        pure (s1.addClk 4)
    | .long =>
      if isOdd addr then refuse .oddAddress
      else do
        let s1 ← busWrite addr (0 : Word) (extract v 16 16) s
        let s2 ← busWrite (addr + 2) (0 : Word) (extract v 0 16) s1
        pure (s2.addClk 8)

/-- `fetch(width, cpu)`: read at `pc`, then advance `pc` by `max(width, 16)/8`; a byte is the low byte of its word (R72). -/
def fetchStream (w : Size) (s : State) : Res (Long × State) :=
  match w with
  | .byte => do
    let (x, s1) ← memRead .word s.cpu.pc s
    pure (Size.zeroLow .byte x, s1.setPc (s.cpu.pc + 2))
  | .word => do
    let (x, s1) ← memRead .word s.cpu.pc s
    pure (x, s1.setPc (s.cpu.pc + 2))
  | .long => do
    let (x, s1) ← memRead .long s.cpu.pc s
    pure (x, s1.setPc (s.cpu.pc + 4))

/-- The bus addresses a store of width `w` at `addr` covers. -/
def Bus.covered (b : Bus) (w : Size) (addr : Long) : List Nat :=
  (List.range w.bytes).map (fun k => b.address (addr + BitVec.ofNat 32 k))

/-! ### Bus construction (R60) -/

/-- The owner of a page by the device list, the open bus standing after the last device (R55, R59). -/
def pageOwner (openBus : Bool) (devices : List Device) (page : Nat) : Option Nat :=
  let i := devices.findIdx (fun d => d.covers page)
  if i < devices.length then some i else if openBus then some devices.length else none

/-- The page-to-device index table, if every page has an owner (R55, R57). -/
def buildPageTable (openBus : Bool) (devices : List Device) (numPages : Nat) : Option (List Nat) :=
  (List.range numPages).mapM (pageOwner openBus devices)

/-- `init(open_bus?, devices)`: all checks always made, in the order the source lists them (R54, R60, D24; log 18).
A page larger than the address space is refused as a bad page size (DESIGN CHOICE, log 33). -/
def initBus (params : BusParams) (openBus : Bool) (devices : List Device) : Except ConstructionError Bus :=
  if isPowerOfTwo params.pageSize = false ∨ 2 ^ params.addrWidth < params.pageSize then .error .badPageSize
  else if ¬ devices.Pairwise (fun d e => d.conflicts e = false) then .error .conflictingDeviceMappings
  else
    match buildPageTable openBus devices params.numPages with
    | none => .error .unmappedPages
    | some table =>
      if params.maxDevices < devices.length then .error .maxDeviceLimitReached
      else .ok { params := params, devices := devices, openBus := openBus, pageTable := table }

end Sys2Proof.Machine
end

