-- ==== Sys2Proof/Machine/Flags.lean ====
section
/-! DEFINITION. The flag computations: only the `bcd` step writes flags (10_state.md R37); and the places of the fields in the packed
status register (R34). -/

namespace Sys2Proof.Machine

/-- `c <- k; x <- k; z <- z and (res == 0)`; every other field is kept (41_bcd.md R147, R150). -/
def Sr.bcdFlags (sr : Sr) (res : Byte) (k : Bool) : Sr :=
  { sr with c := k, x := k, z := sr.z && (res == 0) }

/-- The packed 16-bit status register (10_state.md R34; the places are PRESUMED, the spec's U1, log 23). -/
def Sr.pack (sr : Sr) : Word :=
  sr.t ++ BitVec.ofBool sr.s ++ BitVec.ofBool sr.m ++ BitVec.ofBool sr.unnamed11 ++ sr.ipl ++ sr.unnamed7_5 ++
    BitVec.ofBool sr.x ++ BitVec.ofBool sr.n ++ BitVec.ofBool sr.z ++ BitVec.ofBool sr.v ++ BitVec.ofBool sr.c

/-- The fields of a packed status register (R34). -/
def Sr.unpack (w : Word) : Sr :=
  { c := w.getLsbD 0, v := w.getLsbD 1, z := w.getLsbD 2, n := w.getLsbD 3, x := w.getLsbD 4
    unnamed7_5 := extract w 5 3, ipl := extract w 8 3, unnamed11 := w.getLsbD 11, m := w.getLsbD 12
    s := w.getLsbD 13, t := extract w 14 2 }

end Sys2Proof.Machine
end

