-- ==== Sys2Proof/Machine/Operands.lean ====
section
/-! DEFINITION. The operand forms: the effective address of each variant (44_microcode.md R203), the cycle penalty (R206), the load
(R207) and the store (R208), and the extension word (R211). -/

namespace Sys2Proof.Machine

/-- `extword(cpu)` (44_microcode.md R211, layout 30_encoding.md R99). -/
def extword (s : State) : Res (Long × State) := do
  let (x, s1) ← fetchStream .word s
  let e : Word := truncate 16 x
  let disp : Long := extend 32 (extract e 0 8)
  let n : BitVec 3 := extract e 12 3
  let reg := if e.getLsbD 15 then s1.cpu.getA n else s1.cpu.getD n
  let idx := if e.getLsbD 11 then reg else Size.signLow .word reg
  pure (disp + idx, s1)

/-- A 16-bit word of the instruction stream, sign-extended to 32 bits (R203). -/
def fetchDisp (s : State) : Res (Long × State) := do
  let (x, s1) ← fetchStream .word s
  pure (Size.signLow .word x, s1)

/-- Address calculation of a variant with register number `n` at width `w`, for slot `t` (R203, R204). -/
def calcAddress (v : Variant) (n : BitVec 3) (w : Size) (t : Slot) (s : State) : Res State :=
  match v with
  | .dataReg => pure s
  | .addrReg => pure s
  | .imm => pure s
  | .addr => pure (s.setAddr t (s.cpu.getA n))
  | .addrInc => pure ((s.setAddr t (s.cpu.getA n)).setA n (s.cpu.getA n + BitVec.ofNat 32 w.bytes))
  | .addrDec =>
    let a := s.cpu.getA n - BitVec.ofNat 32 w.bytes
    pure ((s.setA n a).setAddr t a)
  | .addrDisp => do
    let (d, s1) ← fetchDisp s
    pure (s1.setAddr t (s.cpu.getA n + d))
  | .addrIdx => do
    let (x, s1) ← extword s
    pure (s1.setAddr t (s.cpu.getA n + x))
  | .pcDisp => do
    let (d, s1) ← fetchDisp s
    pure (s1.setAddr t (s.cpu.pc + d))
  | .pcIdx => do
    let (x, s1) ← extword s
    pure (s1.setAddr t (s.cpu.pc + x))
  | .absShort => do
    let (d, s1) ← fetchDisp s
    pure (s1.setAddr t d)
  | .absLong => do
    let (x, s1) ← fetchStream .long s
    pure (s1.setAddr t x)

/-- A bus read at the slot's address into the slot's data (R207). -/
def loadMemory (w : Size) (t : Slot) (s : State) : Res State := do
  let (addr, s1) := s.useAddr t
  let (x, s2) ← memRead w addr s1
  pure (s2.setData t x)

/-- A bus write of the slot's data at the slot's address (R208). -/
def storeMemory (w : Size) (t : Slot) (s : State) : Res State := do
  let (v, s1) := s.useData t
  let (addr, s2) := s1.useAddr t
  memWrite w addr (Size.zeroLow w v) s2

/-- Store the slot's data into a register (R208). -/
def storeToReg (w : Size) (cls : RegClass) (n : BitVec 3) (t : Slot) (s : State) : Res State :=
  let (v, s1) := s.useData t
  pure (s1.storeReg w cls n v)

/-- `op = load` (R207). -/
def eaLoad (v : Variant) (n : BitVec 3) (w : Size) (t : Slot) (s : State) : Res State :=
  match v with
  | .dataReg => pure (s.setData t (s.cpu.loadReg w .data n))
  | .addrReg => pure (s.setData t (s.cpu.loadReg w .addr n))
  | .imm => do
    let (x, s1) ← fetchStream w s
    pure (s1.setData t x)
  | .addr => loadMemory w t s
  | .addrInc => loadMemory w t s
  | .addrDec => loadMemory w t s
  | .addrDisp => loadMemory w t s
  | .addrIdx => loadMemory w t s
  | .pcDisp => loadMemory w t s
  | .pcIdx => loadMemory w t s
  | .absShort => loadMemory w t s
  | .absLong => loadMemory w t s

/-- `op = store` (R208). -/
def eaStore (v : Variant) (n : BitVec 3) (w : Size) (t : Slot) (s : State) : Res State :=
  match v with
  | .dataReg => storeToReg w .data n t s
  | .addrReg => storeToReg w .addr n t s
  | .imm => pure s
  | .addr => storeMemory w t s
  | .addrInc => storeMemory w t s
  | .addrDec => storeMemory w t s
  | .addrDisp => storeMemory w t s
  | .addrIdx => storeMemory w t s
  | .pcDisp => storeMemory w t s
  | .pcIdx => storeMemory w t s
  | .absShort => storeMemory w t s
  | .absLong => storeMemory w t s

/-- The transfer part of an `ea` step (R207, R208, R209). -/
def eaTransfer (op : EaOp) (v : Variant) (n : BitVec 3) (w : Size) (t : Slot) (s : State) : Res State :=
  match op with
  | .load => eaLoad v n w t s
  | .store => eaStore v n w t s
  | .none => pure s

end Sys2Proof.Machine
end

