-- ==== Sys2Proof/Machine/Pipeline.lean ====
section
/-! DEFINITION. The six microcode steps (44_microcode.md R200 to R223), running a handler (R227, R230), and what `STEP` wraps around one
(47_trie_decode.md R290). A step takes its opcode fields from `ir` as it stands when the step runs (R36, R344; log 13). The
block has no exception entry: a decode miss runs FALLBACK exactly as a matched handler runs (60_exceptions.md R310), so
`hostStep` is the one shared operation for both. -/

namespace Sys2Proof.Machine

/-! ### BCD arithmetic (41_bcd.md) -/

/-- `BCDADD(dst, src, x)` (R146, R152). -/
def bcdAdd (dst src : Byte) (x : Bool) : Byte × Bool :=
  let v := (frombcd dst).toNat + (frombcd src).toNat + x.toNat
  if v ≤ 255 then tobcd (BitVec.ofNat 8 v) else Config.bcdWide .add dst src x

/-- `BCDSUB(dst, src, x)` (R149, R152). -/
def bcdSub (dst src : Byte) (x : Bool) : Byte × Bool :=
  let v : Int := (frombcd dst).toNat + 100 - (frombcd src).toNat - x.toNat
  if 0 ≤ v ∧ v ≤ 255 then
    let r := tobcd (BitVec.ofNat 8 v.toNat)
    (r.1, !r.2)
  else Config.bcdWide .sub dst src x

/-- The arithmetic of a `bcd` step. -/
def bcdArith (op : BcdOp) (dst src : Byte) (x : Bool) : Byte × Bool :=
  match op with
  | .add => bcdAdd dst src x
  | .sub => bcdSub dst src x

/-! ### The steps -/

/-- The address part of an `ea` step: nothing when `calc` is not requested (R203, R205). -/
def eaAddress (wantCalc : Bool) (v : Variant) (n : BitVec 3) (w : Size) (t : Slot) (s : State) : Res State :=
  if wantCalc then calcAddress v n w t s else pure s

/-- The penalty part of an `ea` step: nothing when `clk` is not requested (R206). -/
def eaPenalty (wantClk : Bool) (v : Variant) (s : State) : State := if wantClk then s.addClk v.penalty else s

/-- `EaStep` (R200): address, penalty, transfer, in that order. The tables of the encoding are well formed (43_size_addrmode.md R188,
30_encoding.md R98), the mode is present (U7, log 16), and a register that the step uses exists (log 22). -/
def stepEa (w : Size) (t : Slot) (wantCalc wantClk : Bool) (op : EaOp) (enc : AmEnc) (s : State) : Res State :=
  if enc.wf = false then refuse .operandOutsideDomain
  else
    match enc.decode s.cpu.ir with
    | none => refuse .addressingModeAbsent
    | some v =>
      if v.usesRegister wantCalc op = true ∧ 8 ≤ enc.nField s.cpu.ir then refuse .registerAbsent
      else do
        let n : BitVec 3 := BitVec.ofNat 3 (enc.nField s.cpu.ir)
        let s1 ← eaAddress wantCalc v n w t s
        eaTransfer op v n w t (eaPenalty wantClk v s1)

/-- `LdReg` (R215). -/
def stepLdReg (w : Size) (t : Slot) (cls : RegClass) (bitPos : Nat) (s : State) : Res State :=
  if 13 < bitPos then refuse .operandOutsideDomain
  else pure (s.setData t (s.cpu.loadReg w cls (extract s.cpu.ir bitPos 3)))

/-- `StReg` (R217). -/
def stepStReg (w : Size) (cls : RegClass) (bitPos : Nat) (s : State) : Res State :=
  if 13 < bitPos then refuse .operandOutsideDomain
  else storeToReg w cls (extract s.cpu.ir bitPos 3) .dst s

/-- `Fetch` (R219). -/
def stepFetch (s : State) : Res State := do
  let (x, s1) ← fetchStream .word s
  pure (s1.setIr (truncate 16 x))

/-- `Bcd` (R221). -/
def stepBcd (op : BcdOp) (s : State) : Res State :=
  let (src, s1) := s.useData .src
  let (dst, s2) := s1.useData .dst
  let r := bcdArith op (truncate 8 dst) (truncate 8 src) s2.cpu.sr.x
  pure (((s2.setData .dst (zext 32 r.1)).setSr (s2.cpu.sr.bcdFlags r.1 r.2)).addClk 2)

/-- `Cycles` (R223). -/
def stepCycles (n : Nat) (s : State) : Res State := pure (s.addClk n)

/-! ### Handlers -/

/-- One step of a handler finalised at `width` (R227). -/
def runStep (width : Option Size) (step : Step) (s : State) : Res State :=
  match step with
  | .ea t c k op enc =>
    match width with
    | some w => stepEa w t c k op enc s
    | none => refuse .widthAbsent
  | .ldReg t cls p =>
    match width with
    | some w => stepLdReg w t cls p s
    | none => refuse .widthAbsent
  | .stReg cls p =>
    match width with
    | some w => stepStReg w cls p s
    | none => refuse .widthAbsent
  | .fetch => stepFetch s
  | .bcd op => stepBcd op s
  | .cycles n => stepCycles n s

/-- The steps of a pipeline in list order, each to completion (R230, 20_memory.md R81). -/
def runSteps (width : Option Size) (steps : List Step) (s : State) : Res State :=
  match steps with
  | [] => pure s
  | step :: rest => do
    let s1 ← runStep width step s
    runSteps width rest s1

/-- One access of a host-given handler, and the number it reads; 0 for a write. An access through the bus handle has the bus's data
width (20_memory.md R61; log 36 where that is not 16). -/
def runHostAccess (a : HostAccess) (s : State) : Res (Nat × State) :=
  match a with
  | .read w addr => do
    let (x, s1) ← memRead w addr s
    pure (x.toNat, s1)
  | .write w addr v => do
    let s1 ← memWrite w addr v s
    pure (0, s1)
  | .busRead addr mask => do
    let (x, s1) ← busRead addr (BitVec.ofNat s.bus.params.dataWidth mask) s
    pure (x.toNat, s1)
  | .busWrite addr mask data => do
    let w := s.bus.params.dataWidth
    let s1 ← busWrite addr (BitVec.ofNat w mask) (BitVec.ofNat w data) s
    pure (0, s1)

/-- The accesses of one call of a host-given handler, at most `bound` of them: each depends on the call's number, the CPU and context
it was given, and on what the accesses before it have read (log 5). -/
def runHostAccesses (call : Nat) (cpu : Cpu) (exec : ExecCtx) : (bound : Nat) → List Nat → State → Res (List Nat × State)
  | 0, seen, s => pure (seen, s)
  | k + 1, seen, s =>
    match Config.hostAccess call cpu exec seen with
    | none => pure (seen, s)
    | some a => do
      let (x, s1) ← runHostAccess a s
      runHostAccesses call cpu exec k (seen ++ [x]) s1

/-- A handler the host gives: its accesses in their order, whatever it does to the CPU, its cycles; or the end of the run
(60_exceptions.md R302; log 5). -/
def runHost (s : State) : Res State := do
  let (seen, s1) ← runHostAccesses s.free s.cpu s.exec (Config.hostBound s.free s.cpu s.exec) [] { s with free := s.free + 1 }
  let e := Config.hostEffect s.free s.cpu s.exec seen
  if e.terminates then .error (.fault .hostTerminated) else pure ({ s1 with cpu := e.cpu }.addClk e.cycles)

/-- Run a handler (R230). -/
def runHandler (h : Handler) (s : State) : Res State :=
  match h with
  | .pipeline steps width => runSteps width steps s
  | .host => runHost s

/-- `handlers[i](cpu, exec)` (47_trie_decode.md R290). -/
def runIndex (i : Nat) (s : State) : Res State :=
  match s.rom.handlers[i]? with
  | none => refuse .noHandler
  | some h => runHandler h s

/-- What `STEP` does around a handler: a new execution context before it, and after it the context released and the cycles
returned (R290, 10_state.md R38, R39). -/
def hostStep (run : State → Res State) (s : State) : Res State := do
  let s1 ← run { s with exec := ExecCtx.fresh }
  pure ({ s1 with exec := ExecCtx.fresh }.returns (.cycles s1.exec.clk))

/-- The decode miss: FALLBACK, which is handler `P`, runs as any handler does; no state is saved, no mode changes, `pc` is
not written (60_exceptions.md R302, R305, R310). -/
def takeMiss (s : State) : Res State := hostStep (fun s' => runIndex s.rom.perms.length s') s

/-! ### The walk (R280) -/

/-- Nibble `k` of a word, 3 the most significant (30_encoding.md R90). -/
def nibble (w : Word) (k : Nat) : Fin 16 := (extract w (4 * k) 4).toFin

/-- `TableRead(p, k)`, absent outside the table (20_memory.md R51). -/
def tableRead (pages : List Page) (p : Nat) (k : Fin 16) : Option Nat := (pages[p]?).map (fun page => page[k])

/-- The four lookups (47_trie_decode.md R280). -/
def walk (pages : List Page) (top : Nat) (w : Word) : Option Nat := do
  let i1 ← tableRead pages top (nibble w 3)
  let i2 ← tableRead pages i1 (nibble w 2)
  let i3 ← tableRead pages i2 (nibble w 1)
  tableRead pages i3 (nibble w 0)

/-- `MATCHIDX(w)` over a list of permutations: the first match, or the length (46_trie_build.md R255). -/
def matchIdx (perms : List Permutation) (w : Word) : Nat := perms.findIdx (fun p => p.pattern.matchesWord w)

/-- `STEP`: decode `ir`, run the handler (R290). -/
def decodeAndRun (s : State) : Res State :=
  match walk s.rom.table.pages s.rom.top s.cpu.ir with
  | none => refuse .tableReadOutside
  | some i => runIndex i s

end Sys2Proof.Machine
end

