-- ==== Sys2Proof/Machine/Trie.lean ====
section
/-! DEFINITION. The builder's functions: permutation generator and sort (45_permutation.md), page interning, stubs, trie construction and
compression (46_trie_build.md), handler binding (47_trie_decode.md R286), and the whole build (70_reset_and_hazards.md R333). -/

namespace Sys2Proof.Machine

/-- `PERMUTE(instr)` of the descriptor at place `index` of ISD (45_permutation.md R240 to R243). -/
def permute (index : Nat) (d : Descriptor) : List Permutation :=
  match d.size with
  | .absent => [{ size := none, pattern := d.opcode, instr := index }]
  | .static s => [{ size := some s, pattern := d.opcode, instr := index }]
  | .dynamic pos enc =>
    (List.range (2 ^ enc.width)).filterMap (fun code =>
      (enc.decode code).map (fun s =>
        { size := some s, pattern := d.opcode.refine pos enc.width code, instr := index }))

/-- The unsorted list: `PERMUTE` of each descriptor, in ISD order (R245). -/
def permuteAll (isd : List Descriptor) : List Permutation :=
  (isd.zipIdx.map (fun x => permute x.2 x.1)).flatten

/-- `SORT`: ascending `popcount(any)`, equal keys in their old order (R246, R247). -/
def sortPerms (ps : List Permutation) : List Permutation :=
  ps.insertionSort (fun p q => p.pattern.specificity ≤ q.pattern.specificity)

/-- `INTERN(page)`: the index of an equal page, or append (46_trie_build.md R264). -/
def intern (page : Page) (pages : List Page) : Nat × List Page :=
  match pages.findIdx? (fun q => q == page) with
  | some i => (i, pages)
  | none => (pages.length, pages ++ [page])

/-- `STUB(x, depth_left)` (R262); with no lookup left it is `x` itself. -/
def stub (x : Nat) : Nat → List Page → Nat × List Page
  | 0, pages => (x, pages)
  | k + 1, pages =>
    let (j, pages1) := stub x k pages
    intern (Page.all j) pages1

/-- Run `f` over a list, the page list threaded through; answer the indices. -/
def mapPages (f : Nat → List Page → Nat × List Page) : List Nat → List Page → List Nat × List Page
  | [], pages => ([], pages)
  | k :: ks, pages =>
    let (i, pages1) := f k pages
    let (is, pages2) := mapPages f ks pages1
    (i :: is, pages2)

/-- The page of sixteen entries. -/
def pageOf (cells : List Nat) : Page := Vector.ofFn (fun i => cells.getD i.val 0)

/-- `VISIT(prefix, level)` with `open = 4 - level` nibbles not yet fixed (R260). -/
def visit (perms : List Permutation) : (openLevels : Nat) → (pfx : Nat) → List Page → Nat × List Page
  | 0, pfx, pages => (matchIdx perms (BitVec.ofNat 16 pfx), pages)
  | k + 1, pfx, pages =>
    let r := 4 * (k + 1)
    let word := fun s => BitVec.ofNat 16 (pfx * 2 ^ r + s)
    let x := matchIdx perms (word 0)
    if (List.range (2 ^ r)).all (fun s => matchIdx perms (word s) == x) then stub x (k + 1) pages
    else
      let (cells, pages1) := mapPages (fun c => visit perms k (pfx * 16 + c)) (List.range 16) pages
      intern (pageOf cells) pages1

/-- `IW = ceil(log2(max(N, P + 1)))` (R270). -/
def indexWidth (numPages numPerms : Nat) : Nat := ceilLog2 (max numPages (numPerms + 1))

/-- Every entry of every page is a number of `iw` bits. -/
def entriesFit (iw : Nat) (pages : List Page) : Bool := pages.all (fun page => page.toList.all (fun x => decide (x < 2 ^ iw)))

/-- The stored form of an entry: itself, or an open value of `iw` bits where it is no number of `iw` bits (R270 states none; log 25). -/
def narrowEntry (use iw place : Nat) (k : Fin 16) (x : Nat) : Nat :=
  if x < 2 ^ iw then x else Config.freeEntry use place k.val % 2 ^ iw

/-- `COMPRESS`: every entry stored as a number of IW bits (R270); `use` numbers the open values. -/
def compress (use : Nat) (pages : List Page) (numPerms : Nat) : Table :=
  let iw := indexWidth pages.length numPerms
  { iw := iw
    pages := pages.zipIdx.map (fun x => Vector.ofFn (fun k : Fin 16 => narrowEntry use iw x.2 k x.1[k])) }

/-- Why `BIND` makes no handler array. -/
inductive BindError where
  /-- A width-parameterised step bound to an absent size (44_microcode.md R227). -/
  | parameterizedStepWithoutSize
  /-- A permutation names a descriptor that ISD does not hold (10_state.md R25). -/
  | noSuchDescriptor
deriving DecidableEq, Repr

/-- Finalise a permutation's pipeline at its size (44_microcode.md R227). -/
def finalise (isd : List Descriptor) (p : Permutation) : Except BindError Handler :=
  match isd[p.instr]? with
  | none => .error .noSuchDescriptor
  | some d =>
    if p.size.isNone ∧ d.code.steps.any Step.parameterized = true then .error .parameterizedStepWithoutSize
    else .ok (.pipeline d.code.steps p.size)

/-- `BIND` (47_trie_decode.md R286): `handlers[0 .. P-1]`, then FALLBACK. -/
def bindHandlers (isd : List Descriptor) (fallback : Handler) (perms : List Permutation) : Except BindError (List Handler) := do
  let hs ← perms.mapM (finalise isd)
  pure (hs ++ [fallback])

/-- The whole build of the constants from ISD and FALLBACK (70_reset_and_hazards.md R333, lines 2 to 6); absent if a check fails: ISD
breaks R335, BIND refuses, or an entry is wider than the index (which R272 excludes). -/
def buildRom (isd : List Descriptor) (fallback : Handler) : Option Rom :=
  if isd.all Descriptor.wf = false then none
  else
    let perms := sortPerms (permuteAll isd)
    match bindHandlers isd fallback perms with
    | .error _ => none
    | .ok handlers =>
      let (top, pages) := visit perms 4 0 []
      if entriesFit (indexWidth pages.length perms.length) pages then
        some { perms := perms, handlers := handlers, table := compress 0 pages perms.length, top := top }
      else none

end Sys2Proof.Machine
end

