-- ==== Sys2Proof/Machine/Build.lean ====
section
/-! DEFINITION. The meanings of the builder's operations (45_permutation.md, 46_trie_build.md, 47_trie_decode.md R286). They work on the
builder's lists; the block's constants are never written (00_scope.md R7; log 9). `MATCHIDX` and `DECODE` read the constants. -/

namespace Sys2Proof.Machine

/-- Replace the builder's lists. -/
def State.setBuilder (s : State) (b : Builder) : State := { s with builder := b }

/-- `PERMUTE` (R240): the descriptor's permutations, also appended to the unsorted list (R245). Its operand is a descriptor of ISD whose
size field is inside the word (70_reset_and_hazards.md R335). -/
def execPermute (index : Nat) (s : State) : Host.Outcome State Fault Refusal :=
  match s.isd[index]? with
  | none => .refused .noSuchDescriptor
  | some d =>
    if d.size.wf = false then .refused .noSuchDescriptor
    else
      let ps := permute index d
      .next ((s.setBuilder { s.builder with unsorted := s.builder.unsorted ++ ps }).returns (.perms ps))

/-- `SORT` (R246): the unsorted list, sorted. -/
def execSort (s : State) : Host.Outcome State Fault Refusal :=
  let ps := sortPerms s.builder.unsorted
  .next ((s.setBuilder { s.builder with perms := ps }).returns (.perms ps))

/-- `MATCHIDX` (R255) over the permutation list. -/
def execMatchidx (w : Word) (s : State) : Host.Outcome State Fault Refusal :=
  inDomain (.matchidx w) (pure (s.returns (.index (matchIdx s.rom.perms w))))

/-- `VISIT` (R260): the page list grows; `VISIT` of the empty prefix also gives the root. -/
def execVisit (pfx level : Nat) (s : State) : Host.Outcome State Fault Refusal :=
  let r := visit s.builder.perms (4 - level) pfx s.builder.pages
  let top := if level = 0 then r.1 else s.builder.top
  inDomain (.visit pfx level)
    (pure ((s.setBuilder { s.builder with pages := r.2, top := top }).returns (.index r.1)))

/-- `STUB` (R262). -/
def execStub (x depthLeft : Nat) (s : State) : Host.Outcome State Fault Refusal :=
  let r := stub x depthLeft s.builder.pages
  inDomain (.stub x depthLeft) (pure ((s.setBuilder { s.builder with pages := r.2 }).returns (.index r.1)))

/-- `INTERN` (R264). -/
def execIntern (page : Page) (s : State) : Host.Outcome State Fault Refusal :=
  let r := intern page s.builder.pages
  inDomain (.intern page) (pure ((s.setBuilder { s.builder with pages := r.2 }).returns (.index r.1)))

/-- `COMPRESS` (R270): the narrowed table, returned with the root (log 3). An entry that is no number of IW bits is stored as an open
value, and the use is counted (log 25). -/
def execCompress (s : State) : Host.Outcome State Fault Refusal :=
  let b := s.builder
  let t := compress s.free b.pages b.perms.length
  let used := if entriesFit t.iw b.pages then 0 else 1
  .next (({ s with free := s.free + used }.setBuilder { b with table := t }).returns (.table t b.top))

/-- `BIND` (R286): the handler array, or the refusal of a width-parameterised step without a width (44_microcode.md R227) surfaced
as a construction-time error. -/
def execBind (s : State) : Host.Outcome State Fault Refusal :=
  match bindHandlers s.isd s.fallback s.builder.perms with
  | .ok hs => .next ((s.setBuilder { s.builder with handlers := hs }).returns (.handlers hs))
  | .error .parameterizedStepWithoutSize => .next (s.returns (.error .parameterizedStepWithoutSize))
  | .error .noSuchDescriptor => .refused .noSuchDescriptor

/-- `DECODE` (R280): the walk over the constant table. -/
def execDecode (w : Word) (s : State) : Host.Outcome State Fault Refusal :=
  match walk s.rom.table.pages s.rom.top w with
  | none => .refused .tableReadOutside
  | some i => .next (s.returns (.index i))

/-- `STEP` (R290). -/
def execStep (s : State) : Host.Outcome State Fault Refusal := toOutcome (hostStep decodeAndRun s)

end Sys2Proof.Machine
end

