-- ==== Sys2Proof/Machine/Microcode.lean ====
section
/-! DEFINITION. The meanings of the microcode steps and helpers run alone, on the CPU, the execution context and the bus as they
stand (44_microcode.md, 20_memory.md). A step's opcode fields come from `ir`; its width is an operand. -/

namespace Sys2Proof.Machine

/-- `EaStep` (R200). -/
def execEaStep (w : Size) (t : Slot) (wantCalc wantClk : Bool) (op : EaOp) (enc : AmEnc) (s : State) :
    Host.Outcome State Fault Refusal := toOutcome (stepEa w t wantCalc wantClk op enc s)

/-- `LdReg` (R215). -/
def execLdReg (w : Size) (t : Slot) (cls : RegClass) (bitPos : Nat) (s : State) : Host.Outcome State Fault Refusal :=
  toOutcome (stepLdReg w t cls bitPos s)

/-- `StReg` (R217). -/
def execStReg (w : Size) (cls : RegClass) (bitPos : Nat) (s : State) : Host.Outcome State Fault Refusal :=
  toOutcome (stepStReg w cls bitPos s)

/-- `Fetch` (R219). -/
def execFetch (s : State) : Host.Outcome State Fault Refusal := toOutcome (stepFetch s)

/-- `Bcd` (R221). -/
def execBcd (op : BcdOp) (s : State) : Host.Outcome State Fault Refusal := toOutcome (stepBcd op s)

/-- `Cycles` (R223). -/
def execCycles (n : Nat) (s : State) : Host.Outcome State Fault Refusal := toOutcome (stepCycles n s)

/-- Return a helper's value of `w` bits. -/
def returnValue (w : Size) (r : Res (Long × State)) : Res State := do
  let (x, s) ← r
  pure (s.returns (.bits w.bits x.toNat))

/-- `EXTWORD` (R211). -/
def execExtword (s : State) : Host.Outcome State Fault Refusal := toOutcome (returnValue .long (extword s))

/-- `FETCHW` (R72). -/
def execFetchw (w : Size) (s : State) : Host.Outcome State Fault Refusal := toOutcome (returnValue w (fetchStream w s))

/-- `READ` (R66, R67, R68). -/
def execRead (w : Size) (addr : Long) (s : State) : Host.Outcome State Fault Refusal :=
  toOutcome (returnValue w (memRead w addr s))

/-- `WRITE` (R69, R70, R71). -/
def execWrite (w : Size) (addr v : Long) (s : State) : Host.Outcome State Fault Refusal :=
  inDomain (.write w addr v) (memWrite w addr v s)

/-- `BUSINIT` (R60): the new bus, whose devices are as new, or the error and nothing else (D24; log 8). Requested after the
first `STEP`, which R333 does not describe, it replaces the bus (DESIGN CHOICE, log 34). -/
def execBusinit (params : BusParams) (openBus : Bool) (devices : List Device) (s : State) :
    Host.Outcome State Fault Refusal :=
  inDomain (.businit params openBus devices)
    (match initBus params openBus devices with
    | .ok b => pure ({ s with bus := b, mem := [], trace := [] }.returns .bus)
    | .error e => pure (s.returns (.error e)))

end Sys2Proof.Machine
end

