-- ==== Sys2Proof/Machine/Opcodes.lean ====
section
/-! DEFINITION. The meanings of the opcode-word rows: one `STEP` on a host whose instruction register holds the word, under the
descriptor the row names (44_microcode.md R232; 60_exceptions.md R303). -/

namespace Sys2Proof.Machine

/-- One `STEP` of `abcd` with the opcode word `w` in `ir` (R232, R290). -/
def stepAbcd (w : Word) (s : State) : Res State :=
  hostStep (runHandler (.pipeline abcdCode.steps (some .byte))) (s.setIr w)

/-- `abcd.b dS,dD` (R232, R233). -/
def execAbcdReg (dst src : BitVec 3) (s : State) : Host.Outcome State Fault Refusal :=
  toOutcome (stepAbcd (abcdWord 0 dst src) s)

/-- `abcd.b -(aS),-(aD)` (R232, R234). -/
def execAbcdMem (dst src : BitVec 3) (s : State) : Host.Outcome State Fault Refusal :=
  toOutcome (stepAbcd (abcdWord 1 dst src) s)

/-- The illegal example word: the decode miss, with the word in `ir` (R303, R305; 47_trie_decode.md R291). -/
def execIllegal (s : State) : Host.Outcome State Fault Refusal := toOutcome (takeMiss (s.setIr 0x4AFC))

end Sys2Proof.Machine
end

