-- ==== Sys2Proof/Machine/Zpu.lean ====
section
/-! DEFINITION. The meanings of the primitive unit's operations: integer primitives (40_int_primitives.md), BCD (41_bcd.md), opcode pattern
(42_opcode_pattern.md), size and addressing-mode encodings (43_size_addrmode.md). Each is a pure function of its operands: it
leaves its result on the output port and touches nothing else. -/

namespace Sys2Proof.Machine

/-- `EXTRACT` (R120). -/
def execExtract (wx x lo w : Nat) (s : State) : Host.Outcome State Fault Refusal :=
  inDomain (.extract wx x lo w) (pure (s.returns (.bits w (extract (BitVec.ofNat wx x) lo w).toNat)))

/-- `OVERWRITE` (R122). -/
def execOverwrite (wx x wy y : Nat) (s : State) : Host.Outcome State Fault Refusal :=
  inDomain (.overwrite wx x wy y)
    (pure (s.returns (.bits wx (overwrite (BitVec.ofNat wx x) (BitVec.ofNat wy y)).toNat)))

/-- `EXTEND` (R124). -/
def execExtend (wt wy y : Nat) (s : State) : Host.Outcome State Fault Refusal :=
  inDomain (.extend wt wy y) (pure (s.returns (.bits wt (extend wt (BitVec.ofNat wy y)).toNat)))

/-- `TRUNCATE` (R126). -/
def execTruncate (wt wy y : Nat) (s : State) : Host.Outcome State Fault Refusal :=
  inDomain (.truncate wt wy y) (pure (s.returns (.bits wt (truncate wt (BitVec.ofNat wy y)).toNat)))

/-- `ADDO` (R128). -/
def execAddo (w a b : Nat) (s : State) : Host.Outcome State Fault Refusal :=
  let r := addo (BitVec.ofNat w a) (BitVec.ofNat w b)
  inDomain (.addo w a b) (pure (s.returns (.overflow w r.1.toNat r.2.1 r.2.2)))

/-- `SUBO` (R130). -/
def execSubo (w a b : Nat) (s : State) : Host.Outcome State Fault Refusal :=
  let r := subo (BitVec.ofNat w a) (BitVec.ofNat w b)
  inDomain (.subo w a b) (pure (s.returns (.overflow w r.1.toNat r.2.1 r.2.2)))

/-- `TOBCD` (R141). -/
def execTobcd (v : Byte) (s : State) : Host.Outcome State Fault Refusal :=
  inDomain (.tobcd v) (pure (s.returns (.bcd (tobcd v).1 (tobcd v).2)))

/-- `FROMBCD` (R144). -/
def execFrombcd (b : Byte) (s : State) : Host.Outcome State Fault Refusal :=
  inDomain (.frombcd b) (pure (s.returns (.bits 8 (frombcd b).toNat)))

/-- `BCDADD` (R146). -/
def execBcdadd (dst src : Byte) (x : Bool) (s : State) : Host.Outcome State Fault Refusal :=
  inDomain (.bcdadd dst src x) (pure (s.returns (.bcd (bcdAdd dst src x).1 (bcdAdd dst src x).2)))

/-- `BCDSUB` (R149). -/
def execBcdsub (dst src : Byte) (x : Bool) (s : State) : Host.Outcome State Fault Refusal :=
  inDomain (.bcdsub dst src x) (pure (s.returns (.bcd (bcdSub dst src x).1 (bcdSub dst src x).2)))

/-- `PATNEW` (R160): the pattern, or the construction-time error surfaced to the host. It is served at any time, also after the first
`STEP`, of which R160 and R300 say nothing (DESIGN CHOICE, log 37). -/
def execPatnew (template : List Char) (s : State) : Host.Outcome State Fault Refusal :=
  match patnew template with
  | .ok p => .next (s.returns (.pattern p))
  | .error e => .next (s.returns (.error e))

/-- `MATCH` (R163). -/
def execMatchWord (p : Pattern) (w : Word) (s : State) : Host.Outcome State Fault Refusal :=
  inDomain (.matchWord p w) (pure (s.returns (.flag (p.matchesWord w))))

/-- `SPECIFICITY` (R166). -/
def execSpecificity (p : Pattern) (s : State) : Host.Outcome State Fault Refusal :=
  inDomain (.specificity p) (pure (s.returns (.number p.specificity)))

/-- `SZWIDTH` (R176). -/
def execSzwidth (enc : SizeEnc) (s : State) : Host.Outcome State Fault Refusal :=
  inDomain (.szwidth enc) (pure (s.returns (.number enc.width)))

/-- `SZDEC` (R177). -/
def execSzdec (enc : SizeEnc) (bits : Nat) (s : State) : Host.Outcome State Fault Refusal :=
  inDomain (.szdec enc bits) (pure (s.returns (.size (enc.decode bits))))

/-- `SZENC` (R178). -/
def execSzenc (enc : SizeEnc) (size : Size) (s : State) : Host.Outcome State Fault Refusal :=
  inDomain (.szenc enc size) (pure (s.returns (.code (enc.encode size))))

/-- `SZCOUNT` (R179). -/
def execSzcount (enc : SizeEnc) (s : State) : Host.Outcome State Fault Refusal :=
  inDomain (.szcount enc) (pure (s.returns (.number enc.count)))

/-- `AMDEC` (R187): the variant, and beside it the value of the `n` field. -/
def execAmdec (enc : AmEnc) (w : Word) (s : State) : Host.Outcome State Fault Refusal :=
  inDomain (.amdec enc w) (pure (s.returns (.variant ((enc.decode w).map (fun v => (v, enc.nField w))))))

end Sys2Proof.Machine
end

