-- ==== Sys2Proof/Machine/Dispatch.lean ====
section
/-! DEFINITION. One arm for each constructor of `Instr`. -/

namespace Sys2Proof.Machine

def exec (i : Instr) (s : State) : Host.Outcome State Fault Refusal :=
  match i with
  | .extract wx x lo w => Sys2Proof.Machine.execExtract wx x lo w s
  | .overwrite wx x wy y => Sys2Proof.Machine.execOverwrite wx x wy y s
  | .extend wt wy y => Sys2Proof.Machine.execExtend wt wy y s
  | .truncate wt wy y => Sys2Proof.Machine.execTruncate wt wy y s
  | .addo w a b => Sys2Proof.Machine.execAddo w a b s
  | .subo w a b => Sys2Proof.Machine.execSubo w a b s
  | .tobcd v => Sys2Proof.Machine.execTobcd v s
  | .frombcd b => Sys2Proof.Machine.execFrombcd b s
  | .bcdadd dst src x => Sys2Proof.Machine.execBcdadd dst src x s
  | .bcdsub dst src x => Sys2Proof.Machine.execBcdsub dst src x s
  | .patnew template => Sys2Proof.Machine.execPatnew template s
  | .matchWord p w => Sys2Proof.Machine.execMatchWord p w s
  | .specificity p => Sys2Proof.Machine.execSpecificity p s
  | .szwidth enc => Sys2Proof.Machine.execSzwidth enc s
  | .szdec enc bits => Sys2Proof.Machine.execSzdec enc bits s
  | .szenc enc size => Sys2Proof.Machine.execSzenc enc size s
  | .szcount enc => Sys2Proof.Machine.execSzcount enc s
  | .amdec enc w => Sys2Proof.Machine.execAmdec enc w s
  | .permute index => Sys2Proof.Machine.execPermute index s
  | .sort => Sys2Proof.Machine.execSort s
  | .matchidx w => Sys2Proof.Machine.execMatchidx w s
  | .visit pfx level => Sys2Proof.Machine.execVisit pfx level s
  | .stub x depthLeft => Sys2Proof.Machine.execStub x depthLeft s
  | .intern page => Sys2Proof.Machine.execIntern page s
  | .compress => Sys2Proof.Machine.execCompress s
  | .bind => Sys2Proof.Machine.execBind s
  | .decode w => Sys2Proof.Machine.execDecode w s
  | .step => Sys2Proof.Machine.execStep s
  | .eaStep w t c k op enc => Sys2Proof.Machine.execEaStep w t c k op enc s
  | .ldReg w t cls p => Sys2Proof.Machine.execLdReg w t cls p s
  | .stReg w cls p => Sys2Proof.Machine.execStReg w cls p s
  | .fetch => Sys2Proof.Machine.execFetch s
  | .bcd op => Sys2Proof.Machine.execBcd op s
  | .cycles n => Sys2Proof.Machine.execCycles n s
  | .extword => Sys2Proof.Machine.execExtword s
  | .fetchw w => Sys2Proof.Machine.execFetchw w s
  | .read w addr => Sys2Proof.Machine.execRead w addr s
  | .write w addr v => Sys2Proof.Machine.execWrite w addr v s
  | .businit params openBus devices => Sys2Proof.Machine.execBusinit params openBus devices s
  | .abcdReg dst src => Sys2Proof.Machine.execAbcdReg dst src s
  | .abcdMem dst src => Sys2Proof.Machine.execAbcdMem dst src s
  | .illegal => Sys2Proof.Machine.execIllegal s

end Sys2Proof.Machine
end

