-- ==== Sys2Proof/Machine/Fetching.lean ====
section
/-! DEFINITION. What one step of the machine does around an instruction: a request at the select port is decoded and runs; with no
request waiting the host step loop runs one `STEP` (log 1). -/

namespace Sys2Proof.Machine

/-- The refusal of a code the decoder rejects. -/
def refusalOf : DecodeError → Refusal
  | .unassignedSelect => .unassignedSelect
  | .unknownOpcodeWord => .unassignedSelect
  | .badOperand => .badOperandWords
  | .extraOperands => .badOperandWords
  | .outsideDomain => .operandOutsideDomain

/-- Serve one request; it leaves the port first. -/
def serve (r : Request) (s : State) : Host.Outcome State Fault Refusal :=
  match decode (.select r.opsel r.operands) with
  | .ok i => exec i s
  | .error e => .refused (refusalOf e)

/-- One step: the oldest request, or `STEP` of the host loop. -/
def stepMachine (s : State) : Host.Outcome State Fault Refusal :=
  match s.port with
  | r :: rest => serve r { s with port := rest }
  | [] => exec .step s

/-- Put a table row's bits where the next step finds them: an opcode word in `ir` with no request waiting, a select code
first in the queue (log 28). -/
def placeWord (s : State) (nbits w : Nat) : State :=
  if nbits = 16 then { s with cpu := { s.cpu with ir := BitVec.ofNat 16 w }, port := [] }
  else { s with port := { opsel := BitVec.ofNat 8 w, operands := [] } :: s.port }

end Sys2Proof.Machine
end

