-- ==== Sys2Proof/Machine/Step.lean ====
section
/-! DEFINITION. The step of the machine, and where the next instruction is placed. -/

namespace Sys2Proof.Machine

/-- One step of the machine: the oldest request at the select port, or one `STEP` of the host loop (R290; log 1). -/
def step (s : State) : Host.Outcome State Fault Refusal := stepMachine s

/-- The state whose next step runs the table row's bits (log 28). -/
def State.withFetchWord (s : State) (nbits w : Nat) : State := placeWord s nbits w

end Sys2Proof.Machine
end

