-- ==== Sys2Proof/Safety.lean ====
section
/-! DEFINITION. What counts as a good state, and the words in which the statements speak of memory, the instruction stream and the trie. -/

namespace Sys2Proof.Machine

/-! ### Buses -/

/-- A valid bus (20_memory.md R57): the page size a power of two no larger than the address space (log 33), disjoint ranges, at most
`max_devices` devices, and every page with its owner in the page table: the device that covers it, or the open bus where none
does. -/
def Bus.valid (b : Bus) : Prop :=
  isPowerOfTwo b.params.pageSize = true ∧
  b.params.pageSize ≤ 2 ^ b.params.addrWidth ∧
  b.devices.length ≤ b.params.maxDevices ∧
  b.devices.Pairwise (fun d e => d.conflicts e = false) ∧
  b.pageTable.length = b.params.numPages ∧
  ∀ page < b.params.numPages, ∃ i, b.pageTable[page]? = some i ∧
    ((∃ d, b.devices[i]? = some d ∧ d.covers page = true) ∨
      (b.openBus = true ∧ i = b.devices.length ∧ ∀ d ∈ b.devices, d.covers page = false))

/-- A valid bus with a 16-bit data bus, the one R66 to R73 speak of (R65). -/
def Bus.ready (b : Bus) : Prop := b.valid ∧ b.params.dataWidth = 16

/-- The owner of a bus address is RAM. -/
def State.ramAt (s : State) (a : Nat) : Prop := ∃ i l, s.bus.owner a = some (i, .ram, l)

/-- The two bytes of the bus word at an even 32-bit address are of one RAM device. -/
def State.ramWordAt (s : State) (addr : Long) : Prop :=
  ∃ i l l', s.bus.owner (s.bus.address addr) = some (i, .ram, l) ∧ s.bus.owner (s.bus.address (addr + 1)) = some (i, .ram, l')

/-- The byte at a 32-bit address. -/
def State.byteAtAddr (s : State) (addr : Long) : Byte := s.byteAt (s.bus.address addr)

/-- The word at an even 32-bit address: the byte at the lower address is the high one (R63). -/
def State.wordAt (s : State) (addr : Long) : Word := s.byteAtAddr addr ++ s.byteAtAddr (addr + 1)

/-- The transaction the owner of an address sees (R58: the device and the device-local address; R61: the mask). -/
def State.accessAt (s : State) (addr : Long) (mask : Word) (data : Option Word) : BusAccess :=
  match s.bus.owner (s.bus.address addr) with
  | some (i, _, l) => { device := i, localAddr := l, mask := mask.toNat, data := data.map BitVec.toNat }
  | none => { device := 0, localAddr := 0, mask := mask.toNat, data := data.map BitVec.toNat }

/-- Cycles of a bus access (R73). -/
def Size.accessCycles (w : Size) : Nat :=
  match w with
  | .byte => 4
  | .word => 4
  | .long => 8

/-- An access of width `w` at `addr` finds RAM on a 16-bit data bus, each of its words in one device, and is aligned (R65, R74). -/
def State.ramAccess (s : State) (w : Size) (addr : Long) : Prop :=
  s.bus.params.dataWidth = 16 ∧ 2 ≤ s.bus.params.addrWidth ∧ (w = .byte ∨ isOdd addr = false) ∧
  match w with
  | .byte => s.ramAt (s.bus.address addr)
  | .word => s.ramWordAt addr
  | .long => s.ramWordAt addr ∧ s.ramWordAt (addr + 2)

/-- The width of the bus access that a fetch of width `w` makes: a byte is fetched as a word (R72). -/
def Size.fetchAccess (w : Size) : Size :=
  match w with
  | .byte => .word
  | .word => .word
  | .long => .long

/-- The instruction stream can be fetched at width `w` from RAM. -/
def State.streamReady (s : State) (w : Size) : Prop := s.ramAccess (Size.fetchAccess w) s.cpu.pc

/-- The transactions of a read of width `w`: a long is two word accesses, the lower address first (R66, R67, R68). -/
def State.readAccesses (s : State) (w : Size) (addr : Long) : List BusAccess :=
  match w with
  | .byte => [s.accessAt addr (if isOdd addr then 0xFF00 else 0x00FF) none]
  | .word => [s.accessAt addr 0 none]
  | .long => [s.accessAt addr 0 none, s.accessAt (addr + 2) 0 none]

/-- The value of RAM at an address, big-endian, zero-extended to 32 bits (R63, R66, R67, R68). -/
def State.ramValue (s : State) (w : Size) (addr : Long) : Long :=
  match w with
  | .byte => (s.byteAtAddr addr).setWidth 32
  | .word => (s.wordAt addr).setWidth 32
  | .long => s.wordAt addr ++ s.wordAt (addr + 2)

/-- The state after a read of width `w` at `addr`: the cycles and the transactions (R66, R67, R68). -/
def State.afterRead (s : State) (w : Size) (addr : Long) : State :=
  { s with exec := { s.exec with clk := s.exec.clk + Size.accessCycles w }
           trace := s.trace ++ s.readAccesses w addr }

/-- The state after a fetch of width `w`: `pc` past the words, the cycles, the transactions (R72). -/
def State.afterFetch (s : State) (w : Size) : State :=
  let s1 := s.afterRead (Size.fetchAccess w) s.cpu.pc
  { s1 with cpu := { s.cpu with pc := s.cpu.pc + (if w = .long then 4 else 2) } }

/-- The value a fetch of width `w` gives: for a byte the low byte of the word (R72). -/
def State.streamValue (s : State) (w : Size) : Long :=
  match w with
  | .byte => (s.wordAt s.cpu.pc).setWidth 32 &&& 0xFF
  | .word => (s.wordAt s.cpu.pc).setWidth 32
  | .long => s.wordAt s.cpu.pc ++ s.wordAt (s.cpu.pc + 2)

/-- The transactions of a write of width `w`: the byte in its lane, the other lane 0; a long is two word accesses, the lower
address first (R69, R70, R71). -/
def State.writeAccesses (s : State) (w : Size) (addr v : Long) : List BusAccess :=
  match w with
  | .byte =>
    if isOdd addr then [s.accessAt addr 0xFF00 (some ((v.setWidth 8).setWidth 16))]
    else [s.accessAt addr 0x00FF (some ((v.setWidth 8).setWidth 16 <<< 8))]
  | .word => [s.accessAt addr 0 (some (v.setWidth 16))]
  | .long => [s.accessAt addr 0 (some (v.extractLsb' 16 16)), s.accessAt (addr + 2) 0 (some (v.setWidth 16))]

/-- The bus addresses that an access of width `w` hands to the bus: a long is two word accesses (R66 to R71). -/
def Bus.handed (b : Bus) (w : Size) (addr : Long) : List Nat :=
  match w with
  | .byte => [b.address addr]
  | .word => [b.address addr]
  | .long => [b.address addr, b.address (addr + 2)]

/-- `m'` is `m` with the low `w` bits of `v` stored big-endian at `addr` and every other byte as it was (R63, R69, R70, R71). -/
def Bus.stores (b : Bus) (w : Size) (addr v : Long) (m m' : Memory) : Prop :=
  (∀ a, a ∉ b.covered w addr → Memory.read m' a = Memory.read m a) ∧
  (∀ k < w.bytes, Memory.read m' (b.address (addr + BitVec.ofNat 32 k)) = v.extractLsb' (8 * (w.bytes - 1 - k)) 8)

/-- The state after a write of width `w` at `addr` that left RAM `m`: the cycles and the transactions (R69, R70, R71). -/
def State.afterWrite (s : State) (w : Size) (addr v : Long) (m : Memory) : State :=
  { s with exec := { s.exec with clk := s.exec.clk + Size.accessCycles w }
           mem := m
           trace := s.trace ++ s.writeAccesses w addr v }

/-- The value of an extension word (44_microcode.md R211, layout 30_encoding.md R99). -/
def Cpu.indexValue (c : Cpu) (e : Word) : Long :=
  let reg := if e.getLsbD 15 then c.getA (e.extractLsb' 12 3) else c.getD (e.extractLsb' 12 3)
  (e.setWidth 8).signExtend 32 + (if e.getLsbD 11 then reg else (reg.setWidth 16).signExtend 32)

/-- `FETCHW` of width `w`, from whatever device, gives `x` and leaves `u`, but for the result it returns. -/
def State.fetched (s : State) (w : Size) (x : Long) (u : State) : Prop :=
  u.out = s.out ∧ Machine.exec (.fetchw w) s = .next { u with out := .bits w.bits x.toNat }

/-- A slot word, or the next open value where no step has written it (log 11). -/
def State.slotWord (s : State) (v : Option Long) : Long := v.getD (Config.freeWord s.free)

/-- The open values that the use of a slot word takes (log 11). -/
def freeUsed (v : Option Long) : Nat := if v.isNone then 1 else 0

/-- The microcode operation of a step of a handler finalised at `width` (R227). -/
def stepInstr (width : Option Size) (step : Step) : Option Instr :=
  match step, width with
  | .ea t c k op enc, some w => some (.eaStep w t c k op enc)
  | .ldReg t cls p, some w => some (.ldReg w t cls p)
  | .stReg cls p, some w => some (.stReg w cls p)
  | .ea .., none => none
  | .ldReg .., none => none
  | .stReg .., none => none
  | .fetch, _ => some .fetch
  | .bcd op, _ => some (.bcd op)
  | .cycles n, _ => some (.cycles n)

/-! ### Numbers -/

/-- The two's-complement reading of a `w`-bit value (40_int_primitives.md R132). -/
def signedReading (w a : Nat) : Int := if a < 2 ^ (w - 1) then a else (a : Int) - 2 ^ w

/-- The decimal value of a BCD byte by the formula of 41_bcd.md R143. -/
def decimalOf (b : Byte) : Nat := 10 * (b.toNat / 16) + b.toNat % 16

/-- The BCD byte of a number below 100 (41_bcd.md R140). -/
def bcdByteOf (n : Nat) : Byte := BitVec.ofNat 8 (n / 10 * 16 + n % 10)

/-- BCD addition by its decimal values, 41_bcd.md R146 (outside [0, 255]: BCD_WIDE, log 12). -/
def decimalAdd (dst src : Byte) (x : Bool) : Byte × Bool :=
  let v := decimalOf dst + decimalOf src + x.toNat
  if v ≤ 255 then (bcdByteOf (v % 100), decide (99 < v)) else Config.bcdWide .add dst src x

/-- BCD subtraction by its decimal values, 41_bcd.md R149 (outside [0, 255]: BCD_WIDE, log 12). -/
def decimalSub (dst src : Byte) (x : Bool) : Byte × Bool :=
  let v : Int := (decimalOf dst : Int) + 100 - decimalOf src - x.toNat
  if 0 ≤ v ∧ v ≤ 255 then (bcdByteOf (v.toNat % 100), decide (v ≤ 99)) else Config.bcdWide .sub dst src x

/-- The arithmetic of a `bcd` step. -/
def decimalArith (op : BcdOp) : Byte → Byte → Bool → Byte × Bool :=
  match op with
  | .add => decimalAdd
  | .sub => decimalSub

/-- The low `w` bits of `old` replaced by those of `v` (40_int_primitives.md R122, R123). -/
def lowReplaced (w : Size) (old v : Long) : Long :=
  BitVec.ofNat 32 (old.toNat / 2 ^ w.bits * 2 ^ w.bits + v.toNat % 2 ^ w.bits)

/-- The low `w` bits of `v`, zero-extended. -/
def lowZero (w : Size) (v : Long) : Long := BitVec.ofNat 32 (v.toNat % 2 ^ w.bits)

/-- The low `w` bits of `v`, sign-extended. -/
def lowSigned (w : Size) (v : Long) : Long := (v.setWidth w.bits).signExtend 32

/-- The value of the `n` field (44_microcode.md R200). -/
def amNumber (e : AmEnc) (w : Word) : Nat := w.toNat / 2 ^ e.nPos % 2 ^ e.nWidth

/-- The register that the `n` field numbers, where one of that number exists. -/
def amRegister (e : AmEnc) (w : Word) : BitVec 3 := BitVec.ofNat 3 (amNumber e w)

/-! ### The trie -/

/-- Follow table entries from page `i` by a list of nibbles. -/
def follow (pages : List Page) (i : Nat) (ks : List (Fin 16)) : Option Nat :=
  match ks with
  | [] => some i
  | k :: rest =>
    match tableRead pages i k with
    | none => none
    | some j => follow pages j rest

/-- The last `n` nibbles of a word, the most significant first. -/
def lastNibbles (w : Word) (n : Nat) : List (Fin 16) := (List.range n).map (fun j => nibble w (n - 1 - j))

/-! ### Good states -/

/-- No handler of the array is one the host gives. -/
def Rom.noHost (r : Rom) : Prop := ∀ h ∈ r.handlers, h ≠ .host

/-- A whole handler runs inside the operation: `STEP` and the opcode-word rows (R290). -/
def runsAHandler (i : Instr) : Prop :=
  i = .step ∨ i = .illegal ∨ ∃ dst src, i = .abcdReg dst src ∨ i = .abcdMem dst src

/-- The machine's invariant: RAM in canonical form, the bus valid (R57), the block's constants the build of ISD and FALLBACK
(10_state.md R44, 70_reset_and_hazards.md R330). -/
def State.Inv (s : State) : Prop :=
  Memory.wf s.mem ∧ s.bus.valid ∧ buildRom s.isd s.fallback = some s.rom

end Sys2Proof.Machine
end

