-- ==== Sys2Proof/Certificates/Slice0/Obligations.lean ====
section
/-! DEFINITION. The statements for the provers. Each says which rule of spec/ it formalises; a clause that rests on a choice of the
model names the log entry. -/

open Sys2Proof Sys2Proof.Machine

/-! ### Encoding -/

/-- The words of the opcode table, written out, decode to their rows (30_encoding.md R110, R111; R232; R303). -/
def Obligations.TableWordsDecodeToTheirRows : Prop :=
  decodeTableWord 16 0b1100001100000000 = some (.abcdReg 1 0) ∧
  decodeTableWord 16 0b1100111100000111 = some (.abcdReg 7 7) ∧
  decodeTableWord 16 0b1100001100001000 = some (.abcdMem 1 0) ∧
  decodeTableWord 16 0b0100101011111100 = some .illegal ∧
  decodeTableWord 16 0b1100001100010000 = none ∧
  decodeTableWord 8 0b00110000 = some (.decode 0) ∧
  decodeTableWord 8 0b00110001 = some .step ∧
  decodeTableWord 8 0b01000011 = some .fetch ∧
  decodeTableWord 8 0b00000110 = none

/-- Decoding the encoding of a well-formed instruction gives it back, every operand at every value its rule admits (R110, R111; the
coding of operand words is the model's, log 2). -/
def Obligations.DecodeOfEncodeIsTheInstruction : Prop :=
  ∀ i : Instr, i.wf = true → decode (encode i) = .ok i

/-- A select code that R110 and R111 do not assign is rejected by name whatever its operands are, and the step that meets it stops by
name; an opcode word is accepted exactly when it is in a row of the table; and whatever the decoder gives is inside its domain (log
21). -/
def Obligations.DecoderAcceptsOnlyTheInstructionSet : Prop :=
  (∀ (opsel : Byte) (ws : List Nat),
    opsel.toNat ∉ [0x00, 0x01, 0x02, 0x03, 0x04, 0x05, 0x08, 0x09, 0x0A, 0x0B, 0x10, 0x11, 0x12, 0x14, 0x15, 0x16, 0x17, 0x18,
      0x20, 0x21, 0x22, 0x23, 0x24, 0x25, 0x26, 0x27, 0x30, 0x31, 0x40, 0x41, 0x42, 0x43, 0x44, 0x45, 0x48, 0x49, 0x4A, 0x4B,
      0x4C] →
    decode (.select opsel ws) = .error .unassignedSelect ∧
    ∀ (s : State) (rest : List Request), s.port = { opsel := opsel, operands := ws } :: rest →
      step s = .refused .unassignedSelect) ∧
  (∀ w : Word, (∃ i, decode (.opcode w) = .ok i) ↔
    ((w.extractLsb' 12 4 = 0b1100 ∧ w.extractLsb' 4 5 = 0b10000) ∨ w = 0x4AFC)) ∧
  (∀ (c : Code) (i : Instr), decode c = .ok i → i.wf = true)

/-- An operation whose operands are outside the domain its rule states (R120, R122, R124, R126, R128, R130, R175, R177, R188, R260, R262, R215,
R217, R69) is refused by name and does nothing else (log 21); and so is an `ea` step whose opcode fields decode to no variant, to which
the source gives no meaning (U7; log 16), and one that uses register `n` where the `n` field is above 7, since no such register exists
(R13; log 22). -/
def Obligations.UnmeantOperandsAreRefused : Prop :=
  (∀ (i : Instr) (s : State), i.wf = false → exec i s = .refused .operandOutsideDomain) ∧
  (∀ (s : State) (w : Size) (t : Slot) (c k : Bool) (op : EaOp) (enc : AmEnc), enc.wf = true →
    enc.decode s.cpu.ir = none → exec (.eaStep w t c k op enc) s = .refused .addressingModeAbsent) ∧
  (∀ (s : State) (w : Size) (t : Slot) (c k : Bool) (op : EaOp) (enc : AmEnc) (v : Variant), enc.wf = true →
    enc.decode s.cpu.ir = some v → 8 ≤ amNumber enc s.cpu.ir →
    ((c = true ∧ v ∈ [Variant.addr, .addrInc, .addrDec, .addrDisp, .addrIdx]) ∨
      (op ≠ .none ∧ v ∈ [Variant.dataReg, .addrReg])) →
    exec (.eaStep w t c k op enc) s = .refused .registerAbsent)

/-! ### The step -/

/-- One step of the machine is the oldest request at the select port, which leaves the port, or, where none waits, one `STEP`
of the host loop (log 1). -/
def Obligations.StepRunsTheDecodedInstruction : Prop :=
  (∀ (s : State) (r : Request) (rest : List Request) (i : Instr),
    s.port = r :: rest → decode (.select r.opsel r.operands) = .ok i → step s = exec i { s with port := rest }) ∧
  (∀ s : State, s.port = [] → step s = exec .step s)

/-- With an opcode word of the table in `ir` and no request waiting, a step is that row's instruction: `abcd` where the first
matching permutation is of a descriptor with R232's steps at byte size, the miss where no permutation matches (R290, R291, R232;
D13). -/
def Obligations.StepOnATableWordRunsItsInstruction : Prop :=
  ∀ (s : State) (i : Instr),
    buildRom s.isd s.fallback = some s.rom → s.port = [] → decode (.opcode s.cpu.ir) = .ok i →
    (i = .illegal → ∀ p ∈ s.rom.perms, p.pattern.matchesWord s.cpu.ir = false) →
    (i ≠ .illegal → ∃ (k : Nat) (p : Permutation) (d : Descriptor), s.rom.perms[k]? = some p ∧ s.isd[p.instr]? = some d ∧
      p.pattern.matchesWord s.cpu.ir = true ∧ (∀ j < k, ∀ q, s.rom.perms[j]? = some q → q.pattern.matchesWord s.cpu.ir = false) ∧
      p.size = some .byte ∧ d.code.steps = abcdCode.steps) →
    step s = exec i s

/-- `STEP` runs, in a new execution context, the handler of the first permutation that matches `ir`: that descriptor's pipeline at that
permutation's size, or FALLBACK where none matches (R290, R39, R28, R286; D13). Where the matching pipeline is the prefetch alone `STEP`
completes with the next opcode word in `ir`, `pc` one word on, four cycles returned and the context released (R219, R72, R73). -/
def Obligations.StepRunsTheHandlerOfTheFirstMatch : Prop :=
  (∀ s : State, buildRom s.isd s.fallback = some s.rom →
    ((∀ p ∈ s.rom.perms, p.pattern.matchesWord s.cpu.ir = false) →
      exec .step s = toOutcome (hostStep (runHandler s.fallback) s)) ∧
    (∀ (k : Nat) (p : Permutation) (d : Descriptor), s.rom.perms[k]? = some p → s.isd[p.instr]? = some d →
      p.pattern.matchesWord s.cpu.ir = true →
      (∀ j < k, ∀ q, s.rom.perms[j]? = some q → q.pattern.matchesWord s.cpu.ir = false) →
      exec .step s = toOutcome (hostStep (runHandler (.pipeline d.code.steps p.size)) s))) ∧
  (∀ (s : State) (k : Nat) (p : Permutation) (d : Descriptor),
    buildRom s.isd s.fallback = some s.rom → s.rom.perms[k]? = some p → s.isd[p.instr]? = some d →
    p.pattern.matchesWord s.cpu.ir = true →
    (∀ j < k, ∀ q, s.rom.perms[j]? = some q → q.pattern.matchesWord s.cpu.ir = false) →
    d.code.steps = [.fetch] → s.streamReady .word →
    exec .step s = .next
      { s with cpu := { s.cpu with pc := s.cpu.pc + 2, ir := s.wordAt s.cpu.pc }
               exec := ExecCtx.fresh
               trace := s.trace ++ [s.accessAt s.cpu.pc 0 none]
               out := .cycles 4 })

/-- A handler runs its steps in list order, each to completion: its first step as the operation of that kind, the rest from
where that left the host; a stop in a step is the handler's stop; and a handler of no step changes nothing (R230, R81). So a step
after `fetch` takes its fields from the new `ir`: the model's reading of R36, R230 and R344 (log 13, DEDUCED). -/
def Obligations.HandlerRunsItsStepsInListOrder : Prop :=
  (∀ (width : Option Size) (s : State), toOutcome (runHandler (.pipeline [] width) s) = .next s) ∧
  (∀ (width : Option Size) (st : Step) (rest : List Step) (i : Instr) (s : State), stepInstr width st = some i →
    toOutcome (runHandler (.pipeline (st :: rest) width) s) =
      match exec i s with
      | .next t => toOutcome (runHandler (.pipeline rest width) t)
      | .fault f => .fault f
      | .refused r => .refused r)

/-- The decode miss, for the illegal word and for `STEP` on a word no permutation matches: FALLBACK, the handler at index `P` (R28), runs as any
handler; the reference fallback `nop` changes nothing but the cycles returned, so `pc` and `ir` stay; `skip` prefetches (R291, R302, R305,
R310; D18). A FALLBACK that the host gives makes its accesses and ends the run, by name, exactly when it then
terminates it; otherwise it leaves what its accesses left, its CPU and its cycles (R302; log 5). -/
def Obligations.MissRunsTheFallback : Prop :=
  (∀ s : State,
    (∀ h, s.rom.handlers[s.rom.perms.length]? = some h →
      exec .illegal s = toOutcome (hostStep (runHandler h) (s.setIr 0x4AFC))) ∧
    (s.rom.handlers[s.rom.perms.length]? = some fallbackNop →
      exec .illegal s = .next { s with cpu := { s.cpu with ir := 0x4AFC }, exec := ExecCtx.fresh, out := .cycles 0 }) ∧
    (s.rom.handlers[s.rom.perms.length]? = some fallbackSkip → s.streamReady .word →
      exec .illegal s = .next
        { s with cpu := { s.cpu with pc := s.cpu.pc + 2, ir := s.wordAt s.cpu.pc }
                 exec := ExecCtx.fresh
                 trace := s.trace ++ [s.accessAt s.cpu.pc 0 none]
                 out := .cycles 4 }) ∧
    (buildRom s.isd s.fallback = some s.rom → s.fallback = fallbackNop →
      (∀ p ∈ s.rom.perms, p.pattern.matchesWord s.cpu.ir = false) →
      exec .step s = .next { s with exec := ExecCtx.fresh, out := .cycles 0 })) ∧
  (∀ s : State, s.rom.handlers[s.rom.perms.length]? = some .host →
    let cpu : Cpu := { s.cpu with ir := 0x4AFC }
    let accesses := runHostAccesses s.free cpu ExecCtx.fresh (Config.hostBound s.free cpu ExecCtx.fresh) []
      { s with cpu := cpu, exec := ExecCtx.fresh, free := s.free + 1 }
    (exec .illegal s = .fault .hostTerminated ↔ ∃ seen t, accesses = .ok (seen, t) ∧
      (Config.hostEffect s.free cpu ExecCtx.fresh seen).terminates = true) ∧
    (∀ seen t, accesses = .ok (seen, t) → (Config.hostEffect s.free cpu ExecCtx.fresh seen).terminates = false →
      exec .illegal s = .next
        { t with cpu := (Config.hostEffect s.free cpu ExecCtx.fresh seen).cpu
                 exec := ExecCtx.fresh
                 out := .cycles (t.exec.clk + (Config.hostEffect s.free cpu ExecCtx.fresh seen).cycles) }))

/-! ### Integer primitives -/

/-- `EXTRACT` gives `(x >> lo) & (2^w - 1)`; `TRUNCATE` gives `y mod 2^WT`; `OVERWRITE` keeps the bits of `x` above the width of `y` and puts
`y` below; `EXTEND` is signed extension; on their whole domains (for the last three every width that the rule's
constraint allows, log 38), and nothing but the result changes (40_int_primitives.md R120, R122, R124, R126). -/
def Obligations.BitFieldPrimitivesOnTheirDomains : Prop :=
  (∀ (s : State) (wx x lo w : Nat), 1 ≤ wx → wx ≤ 32 → x < 2 ^ wx → lo + w ≤ wx →
    exec (.extract wx x lo w) s = .next { s with out := .bits w (x / 2 ^ lo % 2 ^ w) }) ∧
  (∀ (s : State) (wt wy y : Nat), wt ≤ wy → y < 2 ^ wy →
    exec (.truncate wt wy y) s = .next { s with out := .bits wt (y % 2 ^ wt) }) ∧
  (∀ (s : State) (wx x wy y : Nat), wy ≤ wx → x < 2 ^ wx → y < 2 ^ wy →
    exec (.overwrite wx x wy y) s = .next { s with out := .bits wx (x / 2 ^ wy * 2 ^ wy + y) }) ∧
  (∀ (s : State) (wt wy y : Nat), 1 ≤ wy → wy ≤ wt → y < 2 ^ wy →
    exec (.extend wt wy y) s =
      .next { s with out := .bits wt (if y < 2 ^ (wy - 1) then y else y + (2 ^ wt - 2 ^ wy)) })

/-- The law relating the four bit-field primitives (R127), at every width (log 38). -/
def Obligations.BitFieldPrimitivesAgree : Prop :=
  ∀ (wx wy : Nat) (x : BitVec wx) (y : BitVec wy), wy ≤ wx →
    truncate wy (overwrite x y) = y ∧
    extract (overwrite x y) wy (wx - wy) = extract x wy (wx - wy) ∧
    truncate wy (extend wx y) = y

/-- `ADDO`: the sum modulo `2^W`, the carry out, and the signed overflow by the sign bits, which holds exactly when the sum of the
signed readings is no `W`-bit signed number; nothing but the result changes (R128, R132). -/
def Obligations.AddoGivesSumAndOverflows : Prop :=
  ∀ (s : State) (w a b : Nat), 1 ≤ w → a < 2 ^ w → b < 2 ^ w →
    ∃ sovf : Bool,
      exec (.addo w a b) s = .next { s with out := .overflow w ((a + b) % 2 ^ w) (decide (2 ^ w ≤ a + b)) sovf } ∧
      (sovf = true ↔ a.testBit (w - 1) = b.testBit (w - 1) ∧ ((a + b) % 2 ^ w).testBit (w - 1) ≠ a.testBit (w - 1)) ∧
      (sovf = true ↔ signedReading w a + signedReading w b < -(2 ^ (w - 1)) ∨
        2 ^ (w - 1) ≤ signedReading w a + signedReading w b)

/-- `SUBO`: the difference modulo `2^W`, the borrow, and the signed overflow by the sign bits, which holds exactly when the difference
of the signed readings is no `W`-bit signed number; nothing but the result changes (R130, R132). -/
def Obligations.SuboGivesDifferenceAndOverflows : Prop :=
  ∀ (s : State) (w a b : Nat), 1 ≤ w → a < 2 ^ w → b < 2 ^ w →
    ∃ sovf : Bool,
      exec (.subo w a b) s = .next { s with out := .overflow w ((2 ^ w + a - b) % 2 ^ w) (decide (a < b)) sovf } ∧
      (sovf = true ↔ a.testBit (w - 1) ≠ b.testBit (w - 1) ∧
        ((2 ^ w + a - b) % 2 ^ w).testBit (w - 1) ≠ a.testBit (w - 1)) ∧
      (sovf = true ↔ signedReading w a - signedReading w b < -(2 ^ (w - 1)) ∨
        2 ^ (w - 1) ≤ signedReading w a - signedReading w b)

/-! ### BCD -/

/-- `TOBCD(v)` is the BCD byte of `v mod 100` with the carry `v > 99` (41_bcd.md R140, R141); `FROMBCD(b)` is ten times the high nibble plus the
low nibble, for all 256 bytes (R143, R144; outside valid BCD the spec's decision D8); nothing but the result changes. -/
def Obligations.BcdTablesHoldTheDigits : Prop :=
  (∀ (s : State) (v : Byte),
    exec (.tobcd v) s = .next { s with out := .bcd (bcdByteOf (v.toNat % 100)) (decide (99 < v.toNat)) }) ∧
  (∀ (s : State) (b : Byte), exec (.frombcd b) s = .next { s with out := .bits 8 (decimalOf b) })

/-- Running `FROMBCD` on the byte that `TOBCD` returned gives `v mod 100`, with the carry exactly for `v > 99`; and running `TOBCD`
on the value that `FROMBCD` returned for a valid BCD byte gives that byte, without a carry (R142). -/
def Obligations.BcdTablesInvertEachOther : Prop :=
  (∀ (s : State) (v : Byte), ∃ (b : Byte) (c : Bool),
    exec (.tobcd v) s = .next { s with out := .bcd b c } ∧
    exec (.frombcd b) { s with out := .bcd b c } = .next { s with out := .bits 8 (v.toNat % 100) } ∧
    (c = true ↔ 99 < v.toNat)) ∧
  (∀ (s : State) (b : Byte), b.toNat / 16 ≤ 9 → b.toNat % 16 ≤ 9 → ∃ n : Nat,
    exec (.frombcd b) s = .next { s with out := .bits 8 n } ∧
    exec (.tobcd (BitVec.ofNat 8 n)) { s with out := .bits 8 n } = .next { s with out := .bcd b false })

/-- `BCDADD` is decimal addition by the operands' values, for every operand (non-decimal ones by D8, and BCD_WIDE outside [0, 255], log
12); for valid BCD it is the BCD byte of `(D + S + x) mod 100` with the decimal carry (R146, R152). -/
def Obligations.BcdaddIsDecimalAddition : Prop :=
  (∀ (s : State) (dst src : Byte) (x : Bool),
    exec (.bcdadd dst src x) s = .next { s with out := .bcd (decimalAdd dst src x).1 (decimalAdd dst src x).2 }) ∧
  (∀ (s : State) (dst src : Byte) (x : Bool), validBcd dst = true → validBcd src = true →
    exec (.bcdadd dst src x) s = .next
      { s with out := .bcd (bcdByteOf ((decimalOf dst + decimalOf src + x.toNat) % 100))
                        (decide (99 < decimalOf dst + decimalOf src + x.toNat)) })

/-- `BCDSUB` is decimal subtraction `dst - src - x` by the operands' values, for every operand (non-decimal ones by D8, and BCD_WIDE
outside [0, 255], log 12); for valid BCD it is the BCD byte of the non-negative remainder of `(D - S - x) mod 100` with a borrow exactly when the
difference is negative (R149, R152). -/
def Obligations.BcdsubIsDecimalSubtraction : Prop :=
  (∀ (s : State) (dst src : Byte) (x : Bool),
    exec (.bcdsub dst src x) s = .next { s with out := .bcd (decimalSub dst src x).1 (decimalSub dst src x).2 }) ∧
  (∀ (s : State) (dst src : Byte) (x : Bool), validBcd dst = true → validBcd src = true →
    exec (.bcdsub dst src x) s = .next
      { s with out := .bcd (bcdByteOf (((decimalOf dst : Int) - decimalOf src - x.toNat) % 100).toNat)
                        (decide ((decimalOf dst : Int) - decimalOf src - x.toNat < 0)) })

/-! ### Opcode pattern -/

/-- `PATNEW`: sixteen characters over `0`, `1`, `x` give the pattern whose bit `15 - j` character `j` describes, with no bit in both
words; any other template gives the construction error to the host; at any time (log 37), and nothing but the result changes (42_opcode_pattern.md R160, R161;
30_encoding.md R91, R92 with D3, R93; 60_exceptions.md R300). -/
def Obligations.PatnewReadsTheTemplate : Prop :=
  (∀ (s : State) (template : List Char), template.length = 16 → (∀ c ∈ template, c = '0' ∨ c = '1' ∨ c = 'x') →
    ∃ p : Pattern, exec (.patnew template) s = .next { s with out := .pattern p } ∧ p.set &&& p.any = 0 ∧
      ∀ j < 16, (p.set.getLsbD (15 - j) = true ↔ template[j]? = some '1') ∧
        (p.any.getLsbD (15 - j) = true ↔ template[j]? = some 'x')) ∧
  (∀ (s : State) (template : List Char),
    (template.length ≠ 16 ∨ ∃ c ∈ template, c ≠ '0' ∧ c ≠ '1' ∧ c ≠ 'x') →
    exec (.patnew template) s = .next { s with out := .error (.invalidTemplate template) })

/-- `MATCH`: a word matches exactly when `(w & ~any) ^ set` is 0; nothing but the result changes (R163); so a pattern with a bit in both
words matches nothing (R164) and any other matches by its fixed bits. -/
def Obligations.MatchComparesTheFixedBits : Prop :=
  ∀ (s : State) (p : Pattern) (w : Word), ∃ b : Bool,
    exec (.matchWord p w) s = .next { s with out := .flag b } ∧
    (b = true ↔ (w &&& ~~~p.any) ^^^ p.set = 0) ∧
    (p.set &&& p.any ≠ 0 → b = false) ∧
    (p.set &&& p.any = 0 → (b = true ↔ ∀ i < 16, p.any.getLsbD i = false → w.getLsbD i = p.set.getLsbD i))

/-- `SPECIFICITY` is the number of wildcard bits, from 0 to 16; nothing but the result changes (R166). -/
def Obligations.SpecificityCountsTheWildcards : Prop :=
  ∀ (s : State) (p : Pattern), ∃ n : Nat,
    exec (.specificity p) s = .next { s with out := .number n } ∧
    n = ((List.range 16).filter (fun i => p.any.getLsbD i)).length ∧ n ≤ 16

/-- A pattern with no bit in both words matches exactly `2^n` words, `n` the number `SPECIFICITY` returns (R165, R166); and two such patterns
overlap exactly when `(p.set ^ q.set) & ~p.any & ~q.any` is 0 (R167). -/
def Obligations.PatternsMatchAndOverlapByTheirFixedBits : Prop :=
  (∀ p : Pattern, p.set &&& p.any = 0 →
    ((List.range (2 ^ 16)).filter (fun w => p.matchesWord (BitVec.ofNat 16 w))).length = 2 ^ p.specificity) ∧
  (∀ p q : Pattern, p.set &&& p.any = 0 → q.set &&& q.any = 0 →
    ((∃ w : Word, p.matchesWord w = true ∧ q.matchesWord w = true) ↔ (p.set ^^^ q.set) &&& ~~~p.any &&& ~~~q.any = 0))

/-! ### Size and addressing-mode encodings -/

/-- `SZWIDTH` is the least width that holds every code (43_size_addrmode.md R176); `SZCOUNT` is the number of sizes mapped, 1 to 3 (R179), and as many
values of the field decode to a size (R181); nothing but the result changes. -/
def Obligations.SizeFieldWidthAndCount : Prop :=
  (∀ (s : State) (e : SizeEnc), e.wf = true → ∃ n : Nat,
    exec (.szwidth e) s = .next { s with out := .number n } ∧
    ∀ m : Nat, n ≤ m ↔ ∀ c, (e.byte = some c ∨ e.word = some c ∨ e.long = some c) → c < 2 ^ m) ∧
  (∀ (s : State) (e : SizeEnc), e.wf = true → ∃ n : Nat,
    exec (.szcount e) s = .next { s with out := .number n } ∧ 1 ≤ n ∧ n ≤ 3 ∧
    n = ([e.byte, e.word, e.long].filter Option.isSome).length ∧
    n = ((List.range (2 ^ e.width)).filter (fun b => (e.decode b).isSome)).length)

/-- `SZENC` gives the code of a size or absent, `SZDEC` the size of a code or absent, on every value of the field, and each undoes the other;
nothing but the result changes (R177, R178, R181). -/
def Obligations.SzdecAndSzencAreInverse : Prop :=
  (∀ (s : State) (e : SizeEnc) (z : Size), e.wf = true →
    exec (.szenc e z) s = .next
      { s with out := .code (match z with | .byte => e.byte | .word => e.word | .long => e.long) }) ∧
  (∀ (s : State) (e : SizeEnc) (b : Nat), e.wf = true → b < 2 ^ e.width → ∃ r : Option Size,
    exec (.szdec e b) s = .next { s with out := .size r } ∧
    ∀ z : Size, r = some z ↔ (match z with | .byte => e.byte | .word => e.word | .long => e.long) = some b) ∧
  (∀ (s : State) (e : SizeEnc) (z : Size) (c : Nat), e.wf = true →
    (match z with | .byte => e.byte | .word => e.word | .long => e.long) = some c →
    exec (.szdec e c) s = .next { s with out := .size (some z) })

/-- `AMDEC` returns the one variant whose constraint the `m` and `n` fields of the word satisfy, or absent, and agrees with the
dense table; nothing but the result changes (R186, R187, R189). The value of the `n` field beside the variant is the model's
(log 3). -/
def Obligations.AmdecFindsTheOneVariant : Prop :=
  ∀ (s : State) (e : AmEnc) (w : Word), e.wf = true → ∃ r : Option (Variant × Nat),
    exec (.amdec e w) s = .next { s with out := .variant r } ∧
    (∀ v k, r = some (v, k) ↔ k = w.toNat / 2 ^ e.nPos % 2 ^ e.nWidth ∧ ∃ row ∈ e.rows, row.variant = v ∧
      (row.m = none ∨ row.m = some (w.toNat / 2 ^ e.mPos % 2 ^ e.mWidth)) ∧
      (row.n = none ∨ row.n = some (w.toNat / 2 ^ e.nPos % 2 ^ e.nWidth))) ∧
    e.dense.length = 2 ^ (e.mWidth + e.nWidth) ∧ e.dense.length ≤ 64 ∧
    e.dense[w.toNat / 2 ^ e.mPos % 2 ^ e.mWidth * 2 ^ e.nWidth + w.toNat / 2 ^ e.nPos % 2 ^ e.nWidth]? =
      some (r.map Prod.fst)

/-! ### Permutations -/

/-- `PERMUTE` of a descriptor of ISD: one permutation, its pattern unchanged, for no size or a static size; for a dynamic size one
for each size mapped, in ascending order of code (D33), with the size field cleared in both words and the code filled in. The
permutations also join the builder's unsorted list (R245; log 9); nothing else changes (45_permutation.md R240 to R244). A place that ISD does not have, or a descriptor whose size field breaks
70_reset_and_hazards.md R335, is refused by name (log 25). -/
def Obligations.PermuteGivesOneEntryPerSize : Prop :=
  (∀ (s : State) (i : Nat) (d : Descriptor), s.isd[i]? = some d → d.size.wf = true → ∃ ps : List Permutation,
    exec (.permute i) s = .next
      { s with builder := { s.builder with unsorted := s.builder.unsorted ++ ps }, out := .perms ps } ∧
    (d.size = .absent → ps = [{ size := none, pattern := d.opcode, instr := i }]) ∧
    (∀ z, d.size = .static z → ps = [{ size := some z, pattern := d.opcode, instr := i }]) ∧
    (∀ pos enc, d.size = .dynamic pos enc →
      ps.length = ([enc.byte, enc.word, enc.long].filter Option.isSome).length ∧
      ps.Pairwise (fun p q => p.pattern.set.toNat / 2 ^ pos % 2 ^ enc.width < q.pattern.set.toNat / 2 ^ pos % 2 ^ enc.width) ∧
      ∀ p, p ∈ ps ↔ ∃ z code, (match z with | .byte => enc.byte | .word => enc.word | .long => enc.long) = some code ∧
        p.size = some z ∧ p.instr = i ∧ p.pattern.set.toNat / 2 ^ pos % 2 ^ enc.width = code ∧
        (∀ b < 16, (pos ≤ b ∧ b < pos + enc.width → p.pattern.any.getLsbD b = false) ∧
          (b < pos ∨ pos + enc.width ≤ b → p.pattern.any.getLsbD b = d.opcode.any.getLsbD b ∧
            p.pattern.set.getLsbD b = d.opcode.set.getLsbD b)))) ∧
  (∀ (s : State) (i : Nat), (∀ d, s.isd[i]? = some d → d.size.wf = false) → exec (.permute i) s = .refused .noSuchDescriptor)

/-- Two different permutations of one descriptor never match the same word (R247). -/
def Obligations.PermutationsOfOneInstructionNeverOverlap : Prop :=
  ∀ (s t : State) (i : Nat) (ps : List Permutation), exec (.permute i) s = .next t → t.out = .perms ps →
    ∀ p ∈ ps, ∀ q ∈ ps, p ≠ q → ∀ w : Word, ¬ (p.pattern.matchesWord w = true ∧ q.pattern.matchesWord w = true)

/-- `SORT`: the unsorted list in ascending number of wildcards, equal keys in their old order (D4); the sorted list is the builder's (log
9) and nothing else changes (R246, R247). -/
def Obligations.SortIsStableByWildcards : Prop :=
  ∀ s : State, ∃ ps : List Permutation,
    exec .sort s = .next { s with builder := { s.builder with perms := ps }, out := .perms ps } ∧
    ps.Perm s.builder.unsorted ∧
    ps.Pairwise (fun p q => p.pattern.specificity ≤ q.pattern.specificity) ∧
    ∀ k, ps.filter (fun p => p.pattern.specificity == k) = s.builder.unsorted.filter (fun p => p.pattern.specificity == k)

/-! ### The trie -/

/-- `MATCHIDX` is the index of the first permutation that matches, or their number where none does; nothing but the result changes
(46_trie_build.md R255). -/
def Obligations.MatchidxIsTheFirstMatch : Prop :=
  ∀ (s : State) (w : Word), ∃ i : Nat,
    exec (.matchidx w) s = .next { s with out := .index i } ∧ i ≤ s.rom.perms.length ∧
    (∀ j < i, ∀ p, s.rom.perms[j]? = some p → p.pattern.matchesWord w = false) ∧
    (∀ p, s.rom.perms[i]? = some p → p.pattern.matchesWord w = true)

/-- `INTERN`: the index of the first equal page of the page list, which then stays, or the page appended at the end; so no two pages
become equal; nothing else changes (R264). -/
def Obligations.InternReusesAnEqualPage : Prop :=
  ∀ (s : State) (page : Page), ∃ (i : Nat) (pages : List Page),
    exec (.intern page) s = .next { s with builder := { s.builder with pages := pages }, out := .index i } ∧
    pages[i]? = some page ∧
    (page ∈ s.builder.pages → pages = s.builder.pages ∧ ∀ j < i, s.builder.pages[j]? ≠ some page) ∧
    (page ∉ s.builder.pages → pages = s.builder.pages ++ [page] ∧ i = s.builder.pages.length) ∧
    (s.builder.pages.Nodup → pages.Nodup)

/-- `STUB(x, 1) = INTERN([x] * 16)` and `STUB(x, k) = INTERN([STUB(x, k - 1)] * 16)` for `k` up to 4, and each completes (R262). -/
def Obligations.StubPadsTheRemainingLevels : Prop :=
  ∀ (s : State) (x : Nat),
    exec (.stub x 1) s = exec (.intern (Vector.replicate 16 x)) s ∧
    (∀ k, 2 ≤ k → k ≤ 4 → ∃ (t : State) (j : Nat), exec (.stub x (k - 1)) s = .next t ∧ t.out = .index j ∧
      exec (.stub x k) s = exec (.intern (Vector.replicate 16 j)) t) ∧
    (∀ k, 1 ≤ k → k ≤ 4 → ∃ (i : Nat) (pages : List Page),
      exec (.stub x k) s = .next { s with builder := { s.builder with pages := pages }, out := .index i } ∧
      s.builder.pages <+: pages ∧ ∀ ks : List (Fin 16), ks.length = k → follow pages i ks = some x)

/-- `VISIT(prefix, level)` completes and returns an index from which, by the nibbles still open, every word that extends the prefix leads
to its match index; pages are only added, none equal to another; the empty prefix gives the root; nothing else changes (R260, R266,
R267; D5, log 9). -/
def Obligations.VisitBuildsTheSubtree : Prop :=
  ∀ (s : State) (pfx level : Nat), level ≤ 4 → pfx < 16 ^ level → ∃ (i : Nat) (pages : List Page),
    exec (.visit pfx level) s = .next
      { s with builder := { s.builder with pages := pages, top := if level = 0 then i else s.builder.top }, out := .index i } ∧
    s.builder.pages <+: pages ∧ (s.builder.pages.Nodup → pages.Nodup) ∧
    ∀ w : Word, w.toNat / 16 ^ (4 - level) = pfx →
      follow pages i (lastNibbles w (4 - level)) = some (matchIdx s.builder.perms w)

/-- `COMPRESS`: the index width is the least that holds the page count and the permutation count with its sentinel; every entry of every page
is stored as a number of that width, itself where it is one; where one is not, the value stored is open and the use is counted; nothing
else changes (R270; logs 9, 25; the root beside the table in the result is log 3). -/
def Obligations.CompressNarrowsTheIndex : Prop :=
  ∀ s : State, ∃ (iw : Nat) (pages : List Page),
    (∀ m : Nat, iw ≤ m ↔ s.builder.pages.length ≤ 2 ^ m ∧ s.builder.perms.length + 1 ≤ 2 ^ m) ∧
    pages.length = s.builder.pages.length ∧
    (∀ (k : Nat) (page narrowed : Page), s.builder.pages[k]? = some page → pages[k]? = some narrowed → ∀ c : Fin 16,
      narrowed[c] < 2 ^ iw ∧ (page[c] < 2 ^ iw → narrowed[c] = page[c])) ∧
    ∃ used : Nat, (used = 0 ↔ ∀ page ∈ s.builder.pages, ∀ x ∈ page.toList, x < 2 ^ iw) ∧
      exec .compress s = .next
        { s with builder := { s.builder with table := { iw := iw, pages := pages } }
                 out := .table { iw := iw, pages := pages } s.builder.top
                 free := s.free + used }

/-- `BIND`: the handler of each permutation is its descriptor's pipeline at its size, and FALLBACK stands after the last; a
width-parameterised step without a size is surfaced as a construction error; nothing else changes (47_trie_decode.md R286,
44_microcode.md R227, D28; log 9, log 25). -/
def Obligations.BindFinalisesEachPermutation : Prop :=
  ∀ s : State,
    (∀ p ∈ s.builder.perms, ∃ d, s.isd[p.instr]? = some d) →
    ((∀ p ∈ s.builder.perms, ∀ d, s.isd[p.instr]? = some d →
        p.size = none → ∀ st ∈ d.code.steps, (stepInstr none st).isSome = true) →
      ∃ hs : List Handler,
        exec .bind s = .next { s with builder := { s.builder with handlers := hs }, out := .handlers hs } ∧
        hs.length = s.builder.perms.length + 1 ∧ hs[s.builder.perms.length]? = some s.fallback ∧
        ∀ (k : Nat) (p : Permutation) (d : Descriptor), s.builder.perms[k]? = some p → s.isd[p.instr]? = some d →
          hs[k]? = some (.pipeline d.code.steps p.size)) ∧
    ((∃ p ∈ s.builder.perms, ∃ d, s.isd[p.instr]? = some d ∧ p.size = none ∧
        ∃ st ∈ d.code.steps, (stepInstr none st).isSome = false) →
      exec .bind s = .next { s with out := .error .parameterizedStepWithoutSize })

/-- Every ISD that meets 70_reset_and_hazards.md R335 has its constants: the build never fails on it (R272, R333). The table as built: no two pages
equal, every entry of the index width, the sorted permutations of ISD, one handler more than permutations (R264, R270, R28, R246). -/
def Obligations.EveryWellFormedIsdHasOrderlyConstants : Prop :=
  (∀ (isd : List Descriptor) (fallback : Handler),
    (∀ d ∈ isd, d.wf = true ∧ (d.size = .absent → ∀ st ∈ d.code.steps, (stepInstr none st).isSome = true)) →
    ∃ rom, buildRom isd fallback = some rom) ∧
  (∀ (isd : List Descriptor) (fallback : Handler) (rom : Rom), buildRom isd fallback = some rom →
    rom.table.pages.Nodup ∧
    (∀ page ∈ rom.table.pages, ∀ x ∈ page.toList, x < 2 ^ rom.table.iw) ∧
    (∀ m : Nat, rom.table.iw ≤ m ↔ rom.table.pages.length ≤ 2 ^ m ∧ rom.perms.length + 1 ≤ 2 ^ m) ∧
    rom.top < rom.table.pages.length ∧
    rom.perms.Perm (permuteAll isd) ∧ rom.perms.Pairwise (fun p q => p.pattern.specificity ≤ q.pattern.specificity) ∧
    rom.handlers.length = rom.perms.length + 1 ∧ rom.handlers[rom.perms.length]? = some fallback)

/-- For every ISD and FALLBACK and every word, the four-lookup walk over the built table is the linear first-match search over the sorted
permutations, and it returns a value (47_trie_decode.md R283; R256, R282). -/
def Obligations.DecodeIsMatchidx : Prop :=
  ∀ (s : State) (w : Word), buildRom s.isd s.fallback = some s.rom →
    ∃ i : Nat, exec (.decode w) s = .next { s with out := .index i } ∧
      exec (.matchidx w) s = .next { s with out := .index i }

/-- `DECODE` returns a permutation of smallest wildcard count among those that match the word, or the sentinel exactly when none matches
(R256). -/
def Obligations.DecodeGivesTheMostSpecificMatch : Prop :=
  ∀ (s t : State) (w : Word) (i : Nat), buildRom s.isd s.fallback = some s.rom →
    exec (.decode w) s = .next t → t.out = .index i →
    (i = s.rom.perms.length ↔ ∀ p ∈ s.rom.perms, p.pattern.matchesWord w = false) ∧
    (∀ p, s.rom.perms[i]? = some p → p.pattern.matchesWord w = true ∧
      ∀ q ∈ s.rom.perms, q.pattern.matchesWord w = true → p.pattern.specificity ≤ q.pattern.specificity)

/-! ### The effective-address step -/

/-- The address part and the penalty of an `ea` step, each variant (44_microcode.md R203 to R206): what goes to the slot's address, the
post-increment and pre-decrement by W/8, the words fetched, and the extra cycles where `clk` is requested; nothing else
changes. Whatever the device the stream comes from, the words fetched are those of `FETCHW`, and its stop is the step's. -/
def Obligations.EaStepComputesTheAddress : Prop :=
  ∀ (s : State) (w : Size) (t : Slot) (k : Bool) (enc : AmEnc) (v : Variant),
    enc.wf = true → enc.decode s.cpu.ir = some v →
    (v ∈ [Variant.addr, .addrInc, .addrDec, .addrDisp, .addrIdx] → amNumber enc s.cpu.ir < 8) →
    let n := amRegister enc s.cpu.ir
    let an := s.cpu.getA n
    let step := BitVec.ofNat 32 (w.bits / 8)
    let penalty := if v ∈ [Variant.addrDec, .addrIdx, .pcIdx] then 2 else 0
    let address : Word → Long := fun e =>
      match v with
      | .dataReg => 0
      | .addrReg => 0
      | .imm => 0
      | .addr => an
      | .addrInc => an
      | .addrDec => an - step
      | .addrDisp => an + e.signExtend 32
      | .addrIdx => an + s.cpu.indexValue e
      | .pcDisp => s.cpu.pc + e.signExtend 32
      | .pcIdx => s.cpu.pc + s.cpu.indexValue e
      | .absShort => e.signExtend 32
      | .absLong => e ++ s.wordAt (s.cpu.pc + 2)
    ((v ∈ [Variant.addrDisp, .addrIdx, .pcDisp, .pcIdx, .absShort] → s.streamReady .word) →
      (v = .absLong → s.streamReady .long) →
      let e := s.wordAt s.cpu.pc
      let u : State :=
        match v with
        | .dataReg => s
        | .addrReg => s
        | .imm => s
        | .addr => s.setAddr t an
        | .addrInc => (s.setAddr t an).setA n (an + step)
        | .addrDec => (s.setAddr t (an - step)).setA n (an - step)
        | .addrDisp => (s.afterFetch .word).setAddr t (address e)
        | .addrIdx => (s.afterFetch .word).setAddr t (address e)
        | .pcDisp => (s.afterFetch .word).setAddr t (address e)
        | .pcIdx => (s.afterFetch .word).setAddr t (address e)
        | .absShort => (s.afterFetch .word).setAddr t (address e)
        | .absLong => (s.afterFetch .long).setAddr t (address e)
      exec (.eaStep w t true k .none enc) s = .next (if k then u.addClk penalty else u)) ∧
    (v ∈ [Variant.addrDisp, .addrIdx, .pcDisp, .pcIdx, .absShort] →
      (∀ x f, s.fetched .word x f → exec (.eaStep w t true k .none enc) s =
        .next (if k then (f.setAddr t (address (x.setWidth 16))).addClk penalty else f.setAddr t (address (x.setWidth 16)))) ∧
      (∀ r, exec (.fetchw .word) s = .refused r → exec (.eaStep w t true k .none enc) s = .refused r)) ∧
    (v = .absLong →
      (∀ x f, s.fetched .long x f → exec (.eaStep w t true k .none enc) s = .next (f.setAddr t x)) ∧
      (∀ r, exec (.fetchw .long) s = .refused r → exec (.eaStep w t true k .none enc) s = .refused r))

/-- An `ea` step that requests neither address nor penalty nor transfer changes nothing, and without the address the penalty is the
only effect (R205, R206, R209). -/
def Obligations.EaStepWithoutRequestsDoesNothing : Prop :=
  ∀ (s : State) (w : Size) (t : Slot) (enc : AmEnc) (v : Variant), enc.wf = true → enc.decode s.cpu.ir = some v →
    exec (.eaStep w t false false .none enc) s = .next s ∧
    exec (.eaStep w t false true .none enc) s =
      .next { s with exec := { s.exec with clk := s.exec.clk + (if v ∈ [Variant.addrDec, .addrIdx, .pcIdx] then 2 else 0) } }

/-- The three parts of an `ea` step run in the order address, penalty, transfer: the whole step is the step without the transfer, then the
transfer alone (R200). -/
def Obligations.EaStepIsAddressThenTransfer : Prop :=
  ∀ (s u : State) (w : Size) (t : Slot) (c k : Bool) (op : EaOp) (enc : AmEnc),
    exec (.eaStep w t c k .none enc) s = .next u →
    exec (.eaStep w t c k op enc) s = exec (.eaStep w t false false op enc) u

/-- The load of an `ea` step, each variant (R207, with D25 for the upper bits): what goes to the slot's data, the words fetched or read;
nothing else changes. A slot whose address no step has written gives the next open value (U6; log 11). Whatever the device, the load is `READ` at the
slot's address, and an immediate is `FETCHW` of the stream. -/
def Obligations.EaStepLoads : Prop :=
  ∀ (s : State) (w : Size) (t : Slot) (enc : AmEnc) (v : Variant), enc.wf = true → enc.decode s.cpu.ir = some v →
    (v ∈ [Variant.dataReg, .addrReg] → amNumber enc s.cpu.ir < 8) →
    let n := amRegister enc s.cpu.ir
    (v = .dataReg → exec (.eaStep w t false false .load enc) s = .next (s.setData t (lowZero w (s.cpu.getD n)))) ∧
    (v = .addrReg → exec (.eaStep w t false false .load enc) s = .next (s.setData t (lowSigned w (s.cpu.getA n)))) ∧
    (v = .imm → s.streamReady w →
      exec (.eaStep w t false false .load enc) s = .next ((s.afterFetch w).setData t (s.streamValue w))) ∧
    (v = .imm →
      (∀ x f, s.fetched w x f → exec (.eaStep w t false false .load enc) s = .next (f.setData t x)) ∧
      (∀ r, exec (.fetchw w) s = .refused r → exec (.eaStep w t false false .load enc) s = .refused r)) ∧
    (v ∉ [Variant.dataReg, .addrReg, .imm] →
      let addr := s.slotWord (s.exec.slot t).addr
      s.ramAccess w addr →
      exec (.eaStep w t false false .load enc) s =
        .next (({ s with free := s.free + freeUsed (s.exec.slot t).addr }.afterRead w addr).setData t (s.ramValue w addr))) ∧
    (v ∉ [Variant.dataReg, .addrReg, .imm] → ∀ addr, (s.exec.slot t).addr = some addr →
      (∀ (u : State) (x : Nat), exec (.read w addr) s = .next u → u.out = .bits w.bits x →
        exec (.eaStep w t false false .load enc) s = .next ({ u with out := s.out }.setData t (BitVec.ofNat 32 x))) ∧
      (∀ r, exec (.read w addr) s = .refused r → exec (.eaStep w t false false .load enc) s = .refused r))

/-- The store of an `ea` step, each variant (R208): the register or the bytes written, every other byte of memory as it was; nothing else
changes. A slot whose data or address no step has written gives the next open value, the data first (U6; log 11). Whatever the device, the
store is `WRITE` of the data's low bits at the slot's address. -/
def Obligations.EaStepStores : Prop :=
  ∀ (s : State) (w : Size) (t : Slot) (enc : AmEnc) (v : Variant), enc.wf = true → enc.decode s.cpu.ir = some v →
    (v ∈ [Variant.dataReg, .addrReg] → amNumber enc s.cpu.ir < 8) →
    let n := amRegister enc s.cpu.ir
    let data := s.slotWord (s.exec.slot t).data
    let s1 : State := { s with free := s.free + freeUsed (s.exec.slot t).data }
    (v = .dataReg →
      exec (.eaStep w t false false .store enc) s = .next (s1.setD n (lowReplaced w (s.cpu.getD n) data))) ∧
    (v = .addrReg → exec (.eaStep w t false false .store enc) s = .next (s1.setA n (lowSigned w data))) ∧
    (v = .imm → exec (.eaStep w t false false .store enc) s = .next s) ∧
    (v ∉ [Variant.dataReg, .addrReg, .imm] → Memory.wf s.mem →
      let addr := s1.slotWord (s.exec.slot t).addr
      let s2 : State := { s1 with free := s1.free + freeUsed (s.exec.slot t).addr }
      s.ramAccess w addr → ∃ m : Memory, s.bus.stores w addr (lowZero w data) s.mem m ∧
        exec (.eaStep w t false false .store enc) s = .next (s2.afterWrite w addr (lowZero w data) m)) ∧
    (v ∉ [Variant.dataReg, .addrReg, .imm] → ∀ addr v', (s.exec.slot t).addr = some addr → (s.exec.slot t).data = some v' →
      exec (.eaStep w t false false .store enc) s = exec (.write w addr (lowZero w v')) s)

/-! ### The other steps and the helpers -/

/-- `LdReg`: the register that three bits of the opcode name, at width precision, goes to the slot's data (R215). `StReg`: the destination slot's
data goes to that register, a data register keeping its upper bits, an address register written whole (R217); an unwritten slot gives the next
open value (U6; log 11). Nothing else changes. -/
def Obligations.LdregAndStregMoveARegister : Prop :=
  (∀ (s : State) (w : Size) (t : Slot) (pos : Nat), pos ≤ 13 →
    let n : BitVec 3 := BitVec.ofNat 3 (s.cpu.ir.toNat / 2 ^ pos)
    exec (.ldReg w t .data pos) s = .next (s.setData t (lowZero w (s.cpu.getD n))) ∧
    exec (.ldReg w t .addr pos) s = .next (s.setData t (lowSigned w (s.cpu.getA n)))) ∧
  (∀ (s : State) (w : Size) (pos : Nat), pos ≤ 13 →
    let n : BitVec 3 := BitVec.ofNat 3 (s.cpu.ir.toNat / 2 ^ pos)
    let data := s.slotWord s.exec.dst.data
    let s1 : State := { s with free := s.free + freeUsed s.exec.dst.data }
    exec (.stReg w .data pos) s = .next (s1.setD n (lowReplaced w (s.cpu.getD n) data)) ∧
    exec (.stReg w .addr pos) s = .next (s1.setA n (lowSigned w data)))

/-- `Fetch`: the word at `pc` goes to `ir`, `pc` two on, four cycles; nothing else changes (R219; 20_memory.md R72, R73). Whatever the
device, it is `FETCHW` of a word into `ir`. -/
def Obligations.FetchLoadsTheInstructionRegister : Prop :=
  (∀ s : State, s.streamReady .word →
    exec .fetch s = .next
      { s with cpu := { s.cpu with pc := s.cpu.pc + 2, ir := s.wordAt s.cpu.pc }
               exec := { s.exec with clk := s.exec.clk + 4 }
               trace := s.trace ++ [s.accessAt s.cpu.pc 0 none] }) ∧
  (∀ (s : State) (x : Long) (f : State), s.fetched .word x f → exec .fetch s = .next (f.setIr (x.setWidth 16))) ∧
  (∀ (s : State) (r : Refusal), exec (.fetchw .word) s = .refused r → exec .fetch s = .refused r)

/-- `Bcd` and `Cycles`. `Bcd`: decimal arithmetic on the low bytes of the two data slots and the extend flag; the byte zero-extended to
`dst.data`, `c` and `x` the carry or borrow, `z` kept only by a zero byte, two cycles; `n`, `v` and everything else stay (R221, R147,
R150, D10). An unwritten slot gives the next open value, the source first (U6; log 11). `Cycles`: `n` cycles and nothing else (R223). -/
def Obligations.BcdAndCyclesSteps : Prop :=
  (∀ (s : State) (op : BcdOp),
    let src := s.slotWord s.exec.src.data
    let s1 : State := { s with free := s.free + freeUsed s.exec.src.data }
    let dst := s1.slotWord s.exec.dst.data
    let r := decimalArith op (dst.setWidth 8) (src.setWidth 8) s.cpu.sr.x
    exec (.bcd op) s = .next
      { s1 with
        cpu := { s.cpu with sr := { s.cpu.sr with c := r.2, x := r.2, z := s.cpu.sr.z && decide (r.1 = 0) } }
        exec := { s.exec with dst := { s.exec.dst with data := some (r.1.setWidth 32) }, clk := s.exec.clk + 2 }
        free := s1.free + freeUsed s.exec.dst.data }) ∧
  (∀ (s : State) (n : Nat), exec (.cycles n) s = .next { s with exec := { s.exec with clk := s.exec.clk + n } })

/-- `EXTWORD`: one word of the stream is read as an extension word and its value returned; padding bits do not matter (R211,
30_encoding.md R99, R106). Whatever the device, the word is that of `FETCHW`. -/
def Obligations.ExtwordReadsTheExtensionWord : Prop :=
  (∀ s : State, s.streamReady .word →
    exec .extword s = .next
      { s.afterFetch .word with out := .bits 32 (s.cpu.indexValue (s.wordAt s.cpu.pc)).toNat }) ∧
  (∀ (s : State) (x : Long) (f : State), s.fetched .word x f →
    exec .extword s = .next { f with out := .bits 32 (s.cpu.indexValue (x.setWidth 16)).toNat }) ∧
  (∀ (s : State) (r : Refusal), exec (.fetchw .word) s = .refused r → exec .extword s = .refused r) ∧
  (∀ (c : Cpu) (e f : Word), e &&& 0xF8FF = f &&& 0xF8FF → c.indexValue e = c.indexValue f)

/-- `FETCHW`: a byte is the low byte of a whole word; `pc` moves by 2, 2 and 4, the cycles are 4, 4 and 8; nothing else changes
(20_memory.md R72, R73; R63 for the order of the halves). Whatever the device, `FETCHW` is `READ` at `pc`, then `pc` past the words. -/
def Obligations.FetchwReadsTheStream : Prop :=
  (∀ (s : State) (w : Size),
    (∀ (u : State) (x : Nat), exec (.read (Size.fetchAccess w) s.cpu.pc) s = .next u → u.out = .bits (Size.fetchAccess w).bits x →
      exec (.fetchw w) s = .next
        { u with cpu := { s.cpu with pc := s.cpu.pc + (if w = .long then 4 else 2) }, out := .bits w.bits (x % 2 ^ w.bits) }) ∧
    (∀ r, exec (.read (Size.fetchAccess w) s.cpu.pc) s = .refused r → exec (.fetchw w) s = .refused r)) ∧
  (∀ s : State,
    (s.ramAccess .word s.cpu.pc →
      exec (.fetchw .byte) s = .next
        { s with cpu := { s.cpu with pc := s.cpu.pc + 2 }, exec := { s.exec with clk := s.exec.clk + 4 }
                 trace := s.trace ++ [s.accessAt s.cpu.pc 0 none], out := .bits 8 ((s.wordAt s.cpu.pc).toNat % 256) } ∧
      exec (.fetchw .word) s = .next
        { s with cpu := { s.cpu with pc := s.cpu.pc + 2 }, exec := { s.exec with clk := s.exec.clk + 4 }
                 trace := s.trace ++ [s.accessAt s.cpu.pc 0 none], out := .bits 16 (s.wordAt s.cpu.pc).toNat }) ∧
    (s.ramAccess .long s.cpu.pc →
      exec (.fetchw .long) s = .next
        { s with cpu := { s.cpu with pc := s.cpu.pc + 4 }, exec := { s.exec with clk := s.exec.clk + 8 }
                 trace := s.trace ++ [s.accessAt s.cpu.pc 0 none, s.accessAt (s.cpu.pc + 2) 0 none]
                 out := .bits 32 ((s.wordAt s.cpu.pc).toNat * 2 ^ 16 + (s.wordAt (s.cpu.pc + 2)).toNat) }))

/-- `READ` from RAM: the bytes in big-endian order, the transactions with their masks, 4 or 8 cycles; nothing else changes (R61 to R68,
R73; the order of a long's halves is U2). -/
def Obligations.ReadReturnsBigEndianRam : Prop :=
  ∀ (s : State) (w : Size) (addr : Long), s.ramAccess w addr →
    exec (.read w addr) s = .next { s.afterRead w addr with out := .bits w.bits (s.ramValue w addr).toNat }

/-- `WRITE` to RAM: the bytes in big-endian order, every other byte as it was, the transactions with their masks, 4 or 8 cycles; nothing else
changes (R61 to R64, R69 to R71, R73). Whatever the devices and their pages, a `WRITE` changes no byte of a device that it does not
address (10_state.md R41). -/
def Obligations.WriteStoresBigEndianRam : Prop :=
  (∀ (s : State) (w : Size) (addr v : Long), Memory.wf s.mem → s.ramAccess w addr → v.toNat < 2 ^ w.bits →
    ∃ m : Memory, s.bus.stores w addr v s.mem m ∧ Memory.wf m ∧
      exec (.write w addr v) s = .next (s.afterWrite w addr v m)) ∧
  (∀ (s t : State) (w : Size) (addr v : Long), Memory.wf s.mem → exec (.write w addr v) s = .next t →
    ∀ a : Nat, (∀ x ∈ s.bus.handed w addr, s.bus.deviceAt a ≠ s.bus.deviceAt x) → t.byteAt a = s.byteAt a)

/-- On a valid bus there is a page and every page has exactly one owner; and on a valid bus whose data width is 16 (R65; log 17) an aligned
read (R74; log 15) never traps, whatever the devices are: it returns a value of its width (R57; log 33 for pages larger than the
address space). A read through the bus itself, of whatever data width and mask, never traps either, and returns 0 in the masked positions
(R57, R61). -/
def Obligations.ReadsNeverTrapOnAValidBus : Prop :=
  (∀ (b : Bus), b.valid → 0 < b.params.numPages ∧ ∀ page < b.params.numPages,
    (∃ i d, b.devices[i]? = some d ∧ d.covers page = true ∧ b.pageTable[page]? = some i ∧
      ∀ j e, b.devices[j]? = some e → e.covers page = true → j = i) ∨
    (b.openBus = true ∧ b.pageTable[page]? = some b.devices.length ∧ ∀ d ∈ b.devices, d.covers page = false)) ∧
  (∀ (s : State) (w : Size) (addr : Long), s.bus.ready → (w = .byte ∨ isOdd addr = false) →
    ∃ (v : Nat) (xs : List BusAccess), v < 2 ^ w.bits ∧
      exec (.read w addr) s = .next
        { s with exec := { s.exec with clk := s.exec.clk + Size.accessCycles w }, trace := s.trace ++ xs
                 out := .bits w.bits v }) ∧
  (∀ (s : State) (w : Nat) (addr : Long) (mask : BitVec w), s.bus.valid →
    ∃ (x : BitVec w) (xs : List BusAccess), x &&& mask = 0 ∧
      busRead addr mask s = .ok (x, { s with trace := s.trace ++ xs }))

/-- Where no device covers the pages of an access, the open bus answers: reads return 0, writes are discarded (R59; the local address the
open bus sees is log 35). A write that meets no RAM, be it to the open bus or to a device of the host, completes, leaves RAM as it was and
shows the owner the masked transactions (R58, R61, R69 to R71). On a bus whose data width is 16 (R65; log 17), the access aligned
(R74; log 15). -/
def Obligations.OpenBusReadsZeroAndDiscardsWrites : Prop :=
  (∀ (s : State) (w : Size) (addr v : Long), s.bus.ready → (w = .byte ∨ isOdd addr = false) → v.toNat < 2 ^ w.bits →
    (∀ a ∈ s.bus.covered w addr, ∀ d ∈ s.bus.devices, d.covers (a / s.bus.params.pageSize) = false) →
    exec (.read w addr) s = .next { s.afterRead w addr with out := .bits w.bits 0 } ∧
    exec (.write w addr v) s = .next (s.afterWrite w addr v s.mem)) ∧
  (∀ (s : State) (w : Size) (addr v : Long), s.bus.ready → (w = .byte ∨ isOdd addr = false) → v.toNat < 2 ^ w.bits →
    (∀ a ∈ s.bus.covered w addr, ¬ s.ramAt a) →
    exec (.write w addr v) s = .next (s.afterWrite w addr v s.mem))

/-- A word or long access and every fetch at an odd address is refused by name, and so is every access through a bus whose data width is
not 16 (R74 with D19, R65; logs 15, 17). -/
def Obligations.OddWordAccessesAreRefused : Prop :=
  (∀ (s : State) (w : Size) (addr v : Long), s.bus.params.dataWidth = 16 → w ≠ .byte → isOdd addr = true → v.toNat < 2 ^ w.bits →
    exec (.read w addr) s = .refused .oddAddress ∧ exec (.write w addr v) s = .refused .oddAddress) ∧
  (∀ (s : State) (w : Size), s.bus.params.dataWidth = 16 → isOdd s.cpu.pc = true →
    exec (.fetchw w) s = .refused .oddAddress ∧ exec .fetch s = .refused .oddAddress ∧ exec .extword s = .refused .oddAddress) ∧
  (∀ (s : State) (w : Size) (addr v : Long), s.bus.params.dataWidth ≠ 16 → v.toNat < 2 ^ w.bits →
    exec (.read w addr) s = .refused .noExecutionContext ∧ exec (.write w addr v) s = .refused .noExecutionContext ∧
    exec (.fetchw w) s = .refused .noExecutionContext ∧ exec .fetch s = .refused .noExecutionContext ∧
    exec .extword s = .refused .noExecutionContext)

/-- `init`: a valid bus of the given parts where every check passes, its devices as new (log 8), also after the first `STEP` (log 34);
otherwise an error whose cause is present, and nothing else changes (R54, R57, R60; 60_exceptions.md R300; D24). The open bus does not count
against the device limit, a range may go past the last page, and one whose first page is above its last has no page (log 18); a page
larger than the address space is a bad page size (log 33). -/
def Obligations.BusinitBuildsAValidBusOrSaysWhy : Prop :=
  ∀ (s : State) (p : BusParams) (o : Bool) (ds : List Device),
    let pow := ∃ k, k ≤ p.addrWidth ∧ p.pageSize = 2 ^ k
    let disjoint := ds.Pairwise (fun d e => ∀ page, ¬ (d.first ≤ page ∧ page ≤ d.last ∧ e.first ≤ page ∧ page ≤ e.last))
    let mapped := o = true ∨ ∀ page < 2 ^ p.addrWidth / p.pageSize, ∃ d ∈ ds, d.first ≤ page ∧ page ≤ d.last
    let few := ds.length ≤ p.maxDevices
    (pow ∧ disjoint ∧ mapped ∧ few → ∃ b : Bus, b.valid ∧ b.params = p ∧ b.openBus = o ∧ b.devices = ds ∧
      exec (.businit p o ds) s = .next { s with bus := b, mem := [], trace := [], out := .bus }) ∧
    (¬ (pow ∧ disjoint ∧ mapped ∧ few) → ∃ e : ConstructionError,
      exec (.businit p o ds) s = .next { s with out := .error e } ∧
      ((e = .badPageSize ∧ ¬ pow) ∨ (e = .conflictingDeviceMappings ∧ ¬ disjoint) ∨ (e = .unmappedPages ∧ ¬ mapped) ∨
        (e = .maxDeviceLimitReached ∧ ¬ few)))

/-! ### The opcode words -/

/-- `abcd.b dS,dD`: the low byte of the destination register becomes the decimal sum with the extend flag, its upper bits stay; `c` and `x`
are the decimal carry, `z` is kept only by a zero byte; the next opcode word is prefetched; six cycles; nothing else changes (R232, R233,
R147). -/
def Obligations.AbcdRegisterForm : Prop :=
  ∀ (s : State) (dst src : BitVec 3), s.streamReady .word →
    let r := decimalAdd ((s.cpu.getD dst).setWidth 8) ((s.cpu.getD src).setWidth 8) s.cpu.sr.x
    exec (.abcdReg dst src) s = .next
      { s with
        cpu := { s.cpu.setD dst (lowReplaced .byte (s.cpu.getD dst) (r.1.setWidth 32)) with
                 pc := s.cpu.pc + 2
                 ir := s.wordAt s.cpu.pc
                 sr := { s.cpu.sr with c := r.2, x := r.2, z := s.cpu.sr.z && decide (r.1 = 0) } }
        exec := ExecCtx.fresh
        trace := s.trace ++ [s.accessAt s.cpu.pc 0 none]
        out := .cycles 6 }

/-- `abcd.b -(aS),-(aD)`: both address registers go down by one, the source first (also where they are one register, R345); the byte at the
destination becomes the decimal sum and every other byte stays; flags as in the register form; the next opcode word is prefetched after
the store, so the store is seen (R84); eighteen cycles; nothing else changes (R232, R234, R147). -/
def Obligations.AbcdMemoryForm : Prop :=
  ∀ (s : State) (dst src : BitVec 3),
    let sa := s.cpu.getA src - 1
    let c1 := s.cpu.setA src sa
    let da := c1.getA dst - 1
    let c2 := c1.setA dst da
    Memory.wf s.mem → s.ramAccess .byte sa → s.ramAccess .byte da → s.streamReady .word →
    let r := decimalAdd (s.byteAtAddr da) (s.byteAtAddr sa) s.cpu.sr.x
    ∃ m : Memory, s.bus.stores .byte da (r.1.setWidth 32) s.mem m ∧
      exec (.abcdMem dst src) s = .next
        { s with
          cpu := { c2 with
                   pc := s.cpu.pc + 2
                   ir := Memory.read m (s.bus.address s.cpu.pc) ++ Memory.read m (s.bus.address (s.cpu.pc + 1))
                   sr := { s.cpu.sr with c := r.2, x := r.2, z := s.cpu.sr.z && decide (r.1 = 0) } }
          exec := ExecCtx.fresh
          mem := m
          trace := s.trace ++ s.readAccesses .byte sa ++ s.readAccesses .byte da ++
            s.writeAccesses .byte da (r.1.setWidth 32) ++ [s.accessAt s.cpu.pc 0 none]
          out := .cycles 18 }

/-! ### The whole machine -/

/-- Every step keeps the invariant: RAM in canonical form, the bus valid (R57), the constants those built from ISD and FALLBACK (R7). -/
def Obligations.StepKeepsTheInvariant : Prop :=
  ∀ s t : State, s.Inv → step s = .next t → t.Inv

/-- The state after reset meets the invariant: the constants are as built (R330, R331; R274's thirteen pages for the toy set); `sr.s` is 1, the slots
are empty and `clk` is 0 (R44). The other values are the model's (logs 4 to 9). -/
def Obligations.ResetMeetsTheInvariant : Prop :=
  State.reset.Inv ∧ State.reset.cpu.sr.s = true ∧ State.reset.exec = { src := ⟨none, none⟩, dst := ⟨none, none⟩, clk := 0 }

/-- No operation writes the permutation list, the handler array, the trie table or the root, nor ISD and FALLBACK (R7; 10_state.md R42), and only
`init` changes the bus (R41). No operation changes the requests that wait at the port either: the port is the model's (log 1), and that a
handler of the host leaves it, as it leaves the constants, is the model's frame for such a handler (log 5). -/
def Obligations.ConstantsAreNeverWritten : Prop :=
  ∀ (i : Instr) (s t : State), exec i s = .next t →
    t.rom = s.rom ∧ t.isd = s.isd ∧ t.fallback = s.fallback ∧ t.port = s.port ∧
    ((∀ p o ds, i ≠ .businit p o ds) → t.bus = s.bus)

/-- Of the status register only `c`, `x` and `z` are ever written, and only by the `bcd` step, alone or inside a handler; `z` is never set; `v`, `n`, `ipl`,
`m`, `s`, `t` and the unnamed bits never change (10_state.md R37, R34; 60_exceptions.md R308, R312). A handler that the host gives may do what it likes
(R302) and is left out. -/
def Obligations.OnlyTheBcdStepWritesFlags : Prop :=
  ∀ (i : Instr) (s t : State), s.rom.noHost → exec i s = .next t →
    ((∀ op, i ≠ .bcd op) → ¬ runsAHandler i → t.cpu.sr = s.cpu.sr) ∧
    t.cpu.sr = { s.cpu.sr with c := t.cpu.sr.c, x := t.cpu.sr.x, z := t.cpu.sr.z } ∧
    (t.cpu.sr.z = true → s.cpu.sr.z = true)

/-- `pc` is written only by the fetches of the stream, 2 for each word, each word with its transaction and its cycles: it goes forward by
`k` words, no more than the transactions the operation makes, and stays put in every operation that fetches nothing (10_state.md R35;
47_trie_decode.md R293); `clk` never goes down in a microcode operation, and goes up by at least 4 for each word (R40, R72, R73).
An operation that runs a handler, one of the array or the one of `abcd`, runs it in a new context, returns the count it left in `clk`
and releases the context (R38, R39, R290). A handler that the host gives is left out. -/
def Obligations.PcAndClockOnlyAdvance : Prop :=
  ∀ (i : Instr) (s t : State), s.rom.noHost → exec i s = .next t →
    (∃ k : Nat, t.cpu.pc = s.cpu.pc + BitVec.ofNat 32 (2 * k) ∧ k ≤ t.trace.length - s.trace.length ∧
      (¬ runsAHandler i → s.exec.clk + 4 * k ≤ t.exec.clk)) ∧
    ((∀ w u c k op e, i ≠ .eaStep w u c k op e) → i ≠ .fetch → i ≠ .extword → (∀ w, i ≠ .fetchw w) →
      ¬ runsAHandler i → t.cpu.pc = s.cpu.pc) ∧
    (runsAHandler i → ∃ (h : Handler) (ir : Word) (u : State),
      (h ∈ s.rom.handlers ∨ h = .pipeline abcdCode.steps (some .byte)) ∧
      toOutcome (runHandler h { s with cpu := { s.cpu with ir := ir }, exec := ExecCtx.fresh }) = .next u ∧
      t = { u with exec := ExecCtx.fresh, out := .cycles u.exec.clk } ∧
      ∃ k : Nat, u.cpu.pc = s.cpu.pc + BitVec.ofNat 32 (2 * k) ∧ 4 * k ≤ u.exec.clk)

/-- Which operations write registers and RAM: a data register only the store of an `ea` step and `streg`, an address register only an `ea` step and
`streg` (R32, R33), RAM only the store of an `ea` step, `WRITE` and `init` (R41), `ir` only `fetch` (R36), beside the operations that run a
handler. -/
def Obligations.RegistersAndRamAreWrittenOnlyByTheirOperations : Prop :=
  ∀ (i : Instr) (s t : State), exec i s = .next t → ¬ runsAHandler i →
    ((∀ w u c k e, i ≠ .eaStep w u c k .store e) → (∀ w p, i ≠ .stReg w .data p) → t.cpu.d = s.cpu.d) ∧
    ((∀ w u c k op e, i ≠ .eaStep w u c k op e) → (∀ w p, i ≠ .stReg w .addr p) → t.cpu.a = s.cpu.a) ∧
    ((∀ w u c k e, i ≠ .eaStep w u c k .store e) → (∀ w a v, i ≠ .write w a v) → (∀ p o ds, i ≠ .businit p o ds) →
      t.mem = s.mem) ∧
    (i ≠ .fetch → t.cpu.ir = s.cpu.ir)
end

