-- ==== Sys2Proof/Laws/Memory.lean ====
section
/-! SUPPORT. The laws of RAM contents: a read after a write, and that a write keeps the canonical form. -/

namespace Sys2Proof.Machine

namespace Memory

/-- Every listed address is above `k`. -/
def above (k : Nat) (m : Memory) : Prop := ∀ x ∈ m, k < x.1

theorem wf_nil : Memory.wf [] := ⟨.nil, by simp⟩

theorem wf_cons {k : Nat} {b : Byte} {m : Memory} :
    Memory.wf ((k, b) :: m) ↔ above k m ∧ b ≠ Config.ramReset ∧ Memory.wf m := by
  simp only [Memory.wf, List.pairwise_cons, List.mem_cons, forall_eq_or_imp, above]
  constructor
  · rintro ⟨⟨h1, h2⟩, h3, h4⟩
    exact ⟨h1, h3, h2, h4⟩
  · rintro ⟨h1, h3, h2, h4⟩
    exact ⟨⟨h1, h2⟩, h3, h4⟩

theorem read_above {k a : Nat} {m : Memory} (h : above k m) (ha : a ≤ k) : Memory.read m a = Config.ramReset := by
  induction m with
  | nil => rfl
  | cons c m ih =>
    obtain ⟨j, b⟩ := c
    have hj : k < j := h (j, b) (by simp)
    have : j ≠ a := by omega
    rw [Memory.read, if_neg this]
    exact ih (fun x hx => h x (by simp [hx]))

theorem write_above {k a : Nat} {b : Byte} {m : Memory} (h : above k m) (ha : k < a) : above k (Memory.write m a b) := by
  induction m with
  | nil =>
    rw [Memory.write]
    split
    · exact h
    · intro x hx
      rcases List.mem_singleton.1 hx with rfl
      exact ha
  | cons c m ih =>
    obtain ⟨j, x⟩ := c
    have hm : above k m := fun y hy => h y (by simp [hy])
    have hj : k < j := h (j, x) (by simp)
    rw [Memory.write]
    intro y hy
    split at hy
    · split at hy
      · exact h y hy
      · rcases List.mem_cons.1 hy with rfl | hy
        · exact ha
        · exact h y hy
    · split at hy
      · split at hy
        · exact hm y hy
        · rcases List.mem_cons.1 hy with rfl | hy
          · exact ha
          · exact hm y hy
      · rcases List.mem_cons.1 hy with rfl | hy
        · exact hj
        · exact ih hm y hy

theorem above_mono {k j : Nat} {m : Memory} (h : above j m) (hk : k ≤ j) : above k m :=
  fun x hx => Nat.lt_of_le_of_lt hk (h x hx)

/-- A write keeps the canonical form. -/
theorem write_wf {m : Memory} (h : m.wf) (a : Nat) (b : Byte) : (Memory.write m a b).wf := by
  induction m with
  | nil =>
    rw [Memory.write]
    split
    · exact h
    · rename_i hb
      exact wf_cons.2 ⟨by simp [above], hb, wf_nil⟩
  | cons c m ih =>
    obtain ⟨j, x⟩ := c
    obtain ⟨h1, h2, h3⟩ := wf_cons.1 h
    rw [Memory.write]
    split
    · rename_i haj
      split
      · exact h
      · rename_i hb
        refine wf_cons.2 ⟨?_, hb, h⟩
        intro y hy
        rcases List.mem_cons.1 hy with rfl | hy
        · exact haj
        · exact Nat.lt_trans haj (h1 y hy)
    · split
      · rename_i hne haj
        split
        · exact h3
        · rename_i hb
          exact wf_cons.2 ⟨haj ▸ h1, hb, h3⟩
      · rename_i h4 h5
        exact wf_cons.2 ⟨write_above h1 (by omega), h2, ih h3⟩

/-- A byte reads as written. -/
theorem read_write_same {m : Memory} (h : m.wf) (a : Nat) (b : Byte) : Memory.read (Memory.write m a b) a = b := by
  induction m with
  | nil =>
    rw [Memory.write]
    split
    · rename_i hb; rw [hb]; rfl
    · simp [Memory.read]
  | cons c m ih =>
    obtain ⟨j, x⟩ := c
    obtain ⟨h1, h2, h3⟩ := wf_cons.1 h
    rw [Memory.write]
    split
    · rename_i haj
      split
      · rename_i hb
        rw [hb]
        refine read_above (k := a) ?_ (Nat.le_refl a)
        intro y hy
        rcases List.mem_cons.1 hy with rfl | hy
        · exact haj
        · exact Nat.lt_trans haj (h1 y hy)
      · simp [Memory.read]
    · split
      · rename_i haj
        split
        · rename_i hb
          rw [hb]
          exact read_above h1 (Nat.le_of_eq haj)
        · simp [Memory.read]
      · rename_i h4 h5
        rw [Memory.read, if_neg (fun e => h5 e.symm)]
        exact ih h3

/-- A write leaves every other byte alone. -/
theorem read_write_other {m : Memory} (h : m.wf) {a c : Nat} (b : Byte) (hc : c ≠ a) :
    Memory.read (Memory.write m a b) c = Memory.read m c := by
  induction m with
  | nil =>
    rw [Memory.write]
    split
    · rfl
    · simp [Memory.read, Ne.symm hc]
  | cons e m ih =>
    obtain ⟨j, x⟩ := e
    obtain ⟨h1, h2, h3⟩ := wf_cons.1 h
    rw [Memory.write]
    split
    · split
      · rfl
      · rw [Memory.read, if_neg (Ne.symm hc)]
    · split
      · rename_i haj
        subst haj
        split
        · rw [Memory.read, if_neg (Ne.symm hc)]
        · simp only [Memory.read, if_neg (Ne.symm hc)]
      · rw [Memory.read, Memory.read]
        split
        · rfl
        · exact ih h3

/-- A word write keeps the canonical form. -/
theorem writeWord_wf {m : Memory} (h : m.wf) (a : Nat) (v : Word) : (m.writeWord a v).wf :=
  write_wf (write_wf h _ _) _ _

/-- The high byte of a word written stands at the even address. -/
theorem read_writeWord_even {m : Memory} (h : m.wf) (a : Nat) (v : Word) :
    Memory.read (m.writeWord a v) (wordBase a) = extract v 8 8 := by
  rw [Memory.writeWord, read_write_other (write_wf h _ _) _ (by omega), read_write_same h]

/-- The low byte of a word written stands at the odd address. -/
theorem read_writeWord_odd {m : Memory} (h : m.wf) (a : Nat) (v : Word) :
    Memory.read (m.writeWord a v) (wordBase a + 1) = extract v 0 8 := by
  rw [Memory.writeWord, read_write_same (write_wf h _ _)]

/-- A word write leaves every byte outside the word alone. -/
theorem read_writeWord_other {m : Memory} (h : m.wf) {a c : Nat} (v : Word) (h0 : c ≠ wordBase a)
    (h1 : c ≠ wordBase a + 1) : Memory.read (m.writeWord a v) c = Memory.read m c := by
  rw [Memory.writeWord, read_write_other (write_wf h _ _) _ h1, read_write_other h _ h0]

/-- A word reads as written. -/
theorem readWord_writeWord {m : Memory} (h : m.wf) (a : Nat) (v : Word) : (m.writeWord a v).readWord a = v := by
  rw [Memory.readWord, read_writeWord_even h, read_writeWord_odd h]
  apply BitVec.eq_of_getLsbD_eq
  intro i hi
  simp only [BitVec.getLsbD_append, extract, BitVec.getLsbD_extractLsb']
  by_cases h8 : i < 8
  · simp [h8]
  · have : i - 8 < 8 := by omega
    have h9 : 8 + (i - 8) = i := by omega
    simp [h8, this, h9]

end Memory

theorem wordBase_even (a : Nat) : wordBase a % 2 = 0 := by simp only [wordBase]; omega

theorem wordBase_of_even {a : Nat} (h : a % 2 = 0) : wordBase a = a := by simp only [wordBase]; omega

theorem wordBase_of_odd {a : Nat} (h : a % 2 = 1) : wordBase a + 1 = a := by simp only [wordBase]; omega

end Sys2Proof.Machine
end

