-- ==== Sys2Proof/Laws/State.lean ====
section
/-! SUPPORT. One lemma for each field after each update of the state, so that no proof unfolds a record update. -/

namespace Sys2Proof.Machine

/-! ### Registers -/

@[simp] theorem Cpu.setD_pc (c : Cpu) (n : BitVec 3) (v : Long) : (c.setD n v).pc = c.pc := rfl
@[simp] theorem Cpu.setD_ir (c : Cpu) (n : BitVec 3) (v : Long) : (c.setD n v).ir = c.ir := rfl
@[simp] theorem Cpu.setD_sr (c : Cpu) (n : BitVec 3) (v : Long) : (c.setD n v).sr = c.sr := rfl
@[simp] theorem Cpu.setD_a (c : Cpu) (n : BitVec 3) (v : Long) : (c.setD n v).a = c.a := rfl
@[simp] theorem Cpu.setA_pc (c : Cpu) (n : BitVec 3) (v : Long) : (c.setA n v).pc = c.pc := rfl
@[simp] theorem Cpu.setA_ir (c : Cpu) (n : BitVec 3) (v : Long) : (c.setA n v).ir = c.ir := rfl
@[simp] theorem Cpu.setA_sr (c : Cpu) (n : BitVec 3) (v : Long) : (c.setA n v).sr = c.sr := rfl
@[simp] theorem Cpu.setA_d (c : Cpu) (n : BitVec 3) (v : Long) : (c.setA n v).d = c.d := rfl

@[simp] theorem Cpu.getD_setD_same (c : Cpu) (n : BitVec 3) (v : Long) : (c.setD n v).getD n = v := by
  simp [Cpu.getD, Cpu.setD]
@[simp] theorem Cpu.getA_setA_same (c : Cpu) (n : BitVec 3) (v : Long) : (c.setA n v).getA n = v := by
  simp [Cpu.getA, Cpu.setA]
@[simp] theorem Cpu.getA_setD (c : Cpu) (n k : BitVec 3) (v : Long) : (c.setD n v).getA k = c.getA k := rfl
@[simp] theorem Cpu.getD_setA (c : Cpu) (n k : BitVec 3) (v : Long) : (c.setA n v).getD k = c.getD k := rfl

theorem regNumber_ne {n k : BitVec 3} (h : n ≠ k) : n.toFin.val ≠ k.toFin.val :=
  fun e => h (BitVec.eq_of_toNat_eq e)

theorem Cpu.getD_setD_ne (c : Cpu) {n k : BitVec 3} (v : Long) (h : n ≠ k) : (c.setD n v).getD k = c.getD k := by
  have := regNumber_ne h
  simp only [Cpu.getD, Cpu.setD]
  exact Vector.getElem_set_ne _ _ this
theorem Cpu.getA_setA_ne (c : Cpu) {n k : BitVec 3} (v : Long) (h : n ≠ k) : (c.setA n v).getA k = c.getA k := by
  have := regNumber_ne h
  simp only [Cpu.getA, Cpu.setA]
  exact Vector.getElem_set_ne _ _ this

/-! ### Slots -/

@[simp] theorem ExecCtx.slot_setSlot_same (e : ExecCtx) (t : Slot) (v : EaSlot) : (e.setSlot t v).slot t = v := by
  cases t <;> rfl
@[simp] theorem ExecCtx.src_setSlot_dst (e : ExecCtx) (v : EaSlot) : (e.setSlot .dst v).slot .src = e.slot .src := rfl
@[simp] theorem ExecCtx.dst_setSlot_src (e : ExecCtx) (v : EaSlot) : (e.setSlot .src v).slot .dst = e.slot .dst := rfl
@[simp] theorem ExecCtx.clk_setSlot (e : ExecCtx) (t : Slot) (v : EaSlot) : (e.setSlot t v).clk = e.clk := by
  cases t <;> rfl

/-! ### The state -/

@[simp] theorem State.returns_cpu (s : State) (r : Result) : (s.returns r).cpu = s.cpu := rfl
@[simp] theorem State.returns_exec (s : State) (r : Result) : (s.returns r).exec = s.exec := rfl
@[simp] theorem State.returns_bus (s : State) (r : Result) : (s.returns r).bus = s.bus := rfl
@[simp] theorem State.returns_mem (s : State) (r : Result) : (s.returns r).mem = s.mem := rfl
@[simp] theorem State.returns_trace (s : State) (r : Result) : (s.returns r).trace = s.trace := rfl
@[simp] theorem State.returns_isd (s : State) (r : Result) : (s.returns r).isd = s.isd := rfl
@[simp] theorem State.returns_fallback (s : State) (r : Result) : (s.returns r).fallback = s.fallback := rfl
@[simp] theorem State.returns_rom (s : State) (r : Result) : (s.returns r).rom = s.rom := rfl
@[simp] theorem State.returns_builder (s : State) (r : Result) : (s.returns r).builder = s.builder := rfl
@[simp] theorem State.returns_port (s : State) (r : Result) : (s.returns r).port = s.port := rfl
@[simp] theorem State.returns_out (s : State) (r : Result) : (s.returns r).out = r := rfl
@[simp] theorem State.returns_free (s : State) (r : Result) : (s.returns r).free = s.free := rfl

@[simp] theorem State.setD_cpu (s : State) (n : BitVec 3) (v : Long) : (s.setD n v).cpu = s.cpu.setD n v := rfl
@[simp] theorem State.setD_exec (s : State) (n : BitVec 3) (v : Long) : (s.setD n v).exec = s.exec := rfl
@[simp] theorem State.setD_bus (s : State) (n : BitVec 3) (v : Long) : (s.setD n v).bus = s.bus := rfl
@[simp] theorem State.setD_mem (s : State) (n : BitVec 3) (v : Long) : (s.setD n v).mem = s.mem := rfl
@[simp] theorem State.setD_trace (s : State) (n : BitVec 3) (v : Long) : (s.setD n v).trace = s.trace := rfl
@[simp] theorem State.setD_isd (s : State) (n : BitVec 3) (v : Long) : (s.setD n v).isd = s.isd := rfl
@[simp] theorem State.setD_fallback (s : State) (n : BitVec 3) (v : Long) : (s.setD n v).fallback = s.fallback := rfl
@[simp] theorem State.setD_rom (s : State) (n : BitVec 3) (v : Long) : (s.setD n v).rom = s.rom := rfl
@[simp] theorem State.setD_builder (s : State) (n : BitVec 3) (v : Long) : (s.setD n v).builder = s.builder := rfl
@[simp] theorem State.setD_port (s : State) (n : BitVec 3) (v : Long) : (s.setD n v).port = s.port := rfl
@[simp] theorem State.setD_out (s : State) (n : BitVec 3) (v : Long) : (s.setD n v).out = s.out := rfl
@[simp] theorem State.setD_free (s : State) (n : BitVec 3) (v : Long) : (s.setD n v).free = s.free := rfl

@[simp] theorem State.setA_cpu (s : State) (n : BitVec 3) (v : Long) : (s.setA n v).cpu = s.cpu.setA n v := rfl
@[simp] theorem State.setA_exec (s : State) (n : BitVec 3) (v : Long) : (s.setA n v).exec = s.exec := rfl
@[simp] theorem State.setA_bus (s : State) (n : BitVec 3) (v : Long) : (s.setA n v).bus = s.bus := rfl
@[simp] theorem State.setA_mem (s : State) (n : BitVec 3) (v : Long) : (s.setA n v).mem = s.mem := rfl
@[simp] theorem State.setA_trace (s : State) (n : BitVec 3) (v : Long) : (s.setA n v).trace = s.trace := rfl
@[simp] theorem State.setA_isd (s : State) (n : BitVec 3) (v : Long) : (s.setA n v).isd = s.isd := rfl
@[simp] theorem State.setA_fallback (s : State) (n : BitVec 3) (v : Long) : (s.setA n v).fallback = s.fallback := rfl
@[simp] theorem State.setA_rom (s : State) (n : BitVec 3) (v : Long) : (s.setA n v).rom = s.rom := rfl
@[simp] theorem State.setA_builder (s : State) (n : BitVec 3) (v : Long) : (s.setA n v).builder = s.builder := rfl
@[simp] theorem State.setA_port (s : State) (n : BitVec 3) (v : Long) : (s.setA n v).port = s.port := rfl
@[simp] theorem State.setA_out (s : State) (n : BitVec 3) (v : Long) : (s.setA n v).out = s.out := rfl
@[simp] theorem State.setA_free (s : State) (n : BitVec 3) (v : Long) : (s.setA n v).free = s.free := rfl

@[simp] theorem State.setPc_cpu (s : State) (v : Long) : (s.setPc v).cpu = { s.cpu with pc := v } := rfl
@[simp] theorem State.setPc_exec (s : State) (v : Long) : (s.setPc v).exec = s.exec := rfl
@[simp] theorem State.setPc_bus (s : State) (v : Long) : (s.setPc v).bus = s.bus := rfl
@[simp] theorem State.setPc_mem (s : State) (v : Long) : (s.setPc v).mem = s.mem := rfl
@[simp] theorem State.setPc_trace (s : State) (v : Long) : (s.setPc v).trace = s.trace := rfl
@[simp] theorem State.setPc_isd (s : State) (v : Long) : (s.setPc v).isd = s.isd := rfl
@[simp] theorem State.setPc_fallback (s : State) (v : Long) : (s.setPc v).fallback = s.fallback := rfl
@[simp] theorem State.setPc_rom (s : State) (v : Long) : (s.setPc v).rom = s.rom := rfl
@[simp] theorem State.setPc_builder (s : State) (v : Long) : (s.setPc v).builder = s.builder := rfl
@[simp] theorem State.setPc_port (s : State) (v : Long) : (s.setPc v).port = s.port := rfl
@[simp] theorem State.setPc_out (s : State) (v : Long) : (s.setPc v).out = s.out := rfl
@[simp] theorem State.setPc_free (s : State) (v : Long) : (s.setPc v).free = s.free := rfl

@[simp] theorem State.setIr_cpu (s : State) (v : Word) : (s.setIr v).cpu = { s.cpu with ir := v } := rfl
@[simp] theorem State.setIr_exec (s : State) (v : Word) : (s.setIr v).exec = s.exec := rfl
@[simp] theorem State.setIr_bus (s : State) (v : Word) : (s.setIr v).bus = s.bus := rfl
@[simp] theorem State.setIr_mem (s : State) (v : Word) : (s.setIr v).mem = s.mem := rfl
@[simp] theorem State.setIr_trace (s : State) (v : Word) : (s.setIr v).trace = s.trace := rfl
@[simp] theorem State.setIr_isd (s : State) (v : Word) : (s.setIr v).isd = s.isd := rfl
@[simp] theorem State.setIr_fallback (s : State) (v : Word) : (s.setIr v).fallback = s.fallback := rfl
@[simp] theorem State.setIr_rom (s : State) (v : Word) : (s.setIr v).rom = s.rom := rfl
@[simp] theorem State.setIr_builder (s : State) (v : Word) : (s.setIr v).builder = s.builder := rfl
@[simp] theorem State.setIr_port (s : State) (v : Word) : (s.setIr v).port = s.port := rfl
@[simp] theorem State.setIr_out (s : State) (v : Word) : (s.setIr v).out = s.out := rfl
@[simp] theorem State.setIr_free (s : State) (v : Word) : (s.setIr v).free = s.free := rfl

@[simp] theorem State.setSr_cpu (s : State) (v : Sr) : (s.setSr v).cpu = { s.cpu with sr := v } := rfl
@[simp] theorem State.setSr_exec (s : State) (v : Sr) : (s.setSr v).exec = s.exec := rfl
@[simp] theorem State.setSr_bus (s : State) (v : Sr) : (s.setSr v).bus = s.bus := rfl
@[simp] theorem State.setSr_mem (s : State) (v : Sr) : (s.setSr v).mem = s.mem := rfl
@[simp] theorem State.setSr_trace (s : State) (v : Sr) : (s.setSr v).trace = s.trace := rfl
@[simp] theorem State.setSr_isd (s : State) (v : Sr) : (s.setSr v).isd = s.isd := rfl
@[simp] theorem State.setSr_fallback (s : State) (v : Sr) : (s.setSr v).fallback = s.fallback := rfl
@[simp] theorem State.setSr_rom (s : State) (v : Sr) : (s.setSr v).rom = s.rom := rfl
@[simp] theorem State.setSr_builder (s : State) (v : Sr) : (s.setSr v).builder = s.builder := rfl
@[simp] theorem State.setSr_port (s : State) (v : Sr) : (s.setSr v).port = s.port := rfl
@[simp] theorem State.setSr_out (s : State) (v : Sr) : (s.setSr v).out = s.out := rfl
@[simp] theorem State.setSr_free (s : State) (v : Sr) : (s.setSr v).free = s.free := rfl

@[simp] theorem State.setAddr_cpu (s : State) (t : Slot) (v : Long) : (s.setAddr t v).cpu = s.cpu := rfl
@[simp] theorem State.setAddr_exec (s : State) (t : Slot) (v : Long) : (s.setAddr t v).exec = s.exec.setSlot t { s.exec.slot t with addr := some v } := rfl
@[simp] theorem State.setAddr_bus (s : State) (t : Slot) (v : Long) : (s.setAddr t v).bus = s.bus := rfl
@[simp] theorem State.setAddr_mem (s : State) (t : Slot) (v : Long) : (s.setAddr t v).mem = s.mem := rfl
@[simp] theorem State.setAddr_trace (s : State) (t : Slot) (v : Long) : (s.setAddr t v).trace = s.trace := rfl
@[simp] theorem State.setAddr_isd (s : State) (t : Slot) (v : Long) : (s.setAddr t v).isd = s.isd := rfl
@[simp] theorem State.setAddr_fallback (s : State) (t : Slot) (v : Long) : (s.setAddr t v).fallback = s.fallback := rfl
@[simp] theorem State.setAddr_rom (s : State) (t : Slot) (v : Long) : (s.setAddr t v).rom = s.rom := rfl
@[simp] theorem State.setAddr_builder (s : State) (t : Slot) (v : Long) : (s.setAddr t v).builder = s.builder := rfl
@[simp] theorem State.setAddr_port (s : State) (t : Slot) (v : Long) : (s.setAddr t v).port = s.port := rfl
@[simp] theorem State.setAddr_out (s : State) (t : Slot) (v : Long) : (s.setAddr t v).out = s.out := rfl
@[simp] theorem State.setAddr_free (s : State) (t : Slot) (v : Long) : (s.setAddr t v).free = s.free := rfl

@[simp] theorem State.setData_cpu (s : State) (t : Slot) (v : Long) : (s.setData t v).cpu = s.cpu := rfl
@[simp] theorem State.setData_exec (s : State) (t : Slot) (v : Long) : (s.setData t v).exec = s.exec.setSlot t { s.exec.slot t with data := some v } := rfl
@[simp] theorem State.setData_bus (s : State) (t : Slot) (v : Long) : (s.setData t v).bus = s.bus := rfl
@[simp] theorem State.setData_mem (s : State) (t : Slot) (v : Long) : (s.setData t v).mem = s.mem := rfl
@[simp] theorem State.setData_trace (s : State) (t : Slot) (v : Long) : (s.setData t v).trace = s.trace := rfl
@[simp] theorem State.setData_isd (s : State) (t : Slot) (v : Long) : (s.setData t v).isd = s.isd := rfl
@[simp] theorem State.setData_fallback (s : State) (t : Slot) (v : Long) : (s.setData t v).fallback = s.fallback := rfl
@[simp] theorem State.setData_rom (s : State) (t : Slot) (v : Long) : (s.setData t v).rom = s.rom := rfl
@[simp] theorem State.setData_builder (s : State) (t : Slot) (v : Long) : (s.setData t v).builder = s.builder := rfl
@[simp] theorem State.setData_port (s : State) (t : Slot) (v : Long) : (s.setData t v).port = s.port := rfl
@[simp] theorem State.setData_out (s : State) (t : Slot) (v : Long) : (s.setData t v).out = s.out := rfl
@[simp] theorem State.setData_free (s : State) (t : Slot) (v : Long) : (s.setData t v).free = s.free := rfl

@[simp] theorem State.addClk_cpu (s : State) (n : Nat) : (s.addClk n).cpu = s.cpu := rfl
@[simp] theorem State.addClk_exec (s : State) (n : Nat) : (s.addClk n).exec = { s.exec with clk := s.exec.clk + n } := rfl
@[simp] theorem State.addClk_bus (s : State) (n : Nat) : (s.addClk n).bus = s.bus := rfl
@[simp] theorem State.addClk_mem (s : State) (n : Nat) : (s.addClk n).mem = s.mem := rfl
@[simp] theorem State.addClk_trace (s : State) (n : Nat) : (s.addClk n).trace = s.trace := rfl
@[simp] theorem State.addClk_isd (s : State) (n : Nat) : (s.addClk n).isd = s.isd := rfl
@[simp] theorem State.addClk_fallback (s : State) (n : Nat) : (s.addClk n).fallback = s.fallback := rfl
@[simp] theorem State.addClk_rom (s : State) (n : Nat) : (s.addClk n).rom = s.rom := rfl
@[simp] theorem State.addClk_builder (s : State) (n : Nat) : (s.addClk n).builder = s.builder := rfl
@[simp] theorem State.addClk_port (s : State) (n : Nat) : (s.addClk n).port = s.port := rfl
@[simp] theorem State.addClk_out (s : State) (n : Nat) : (s.addClk n).out = s.out := rfl
@[simp] theorem State.addClk_free (s : State) (n : Nat) : (s.addClk n).free = s.free := rfl

@[simp] theorem State.setBuilder_cpu (s : State) (b : Builder) : (s.setBuilder b).cpu = s.cpu := rfl
@[simp] theorem State.setBuilder_exec (s : State) (b : Builder) : (s.setBuilder b).exec = s.exec := rfl
@[simp] theorem State.setBuilder_bus (s : State) (b : Builder) : (s.setBuilder b).bus = s.bus := rfl
@[simp] theorem State.setBuilder_mem (s : State) (b : Builder) : (s.setBuilder b).mem = s.mem := rfl
@[simp] theorem State.setBuilder_trace (s : State) (b : Builder) : (s.setBuilder b).trace = s.trace := rfl
@[simp] theorem State.setBuilder_isd (s : State) (b : Builder) : (s.setBuilder b).isd = s.isd := rfl
@[simp] theorem State.setBuilder_fallback (s : State) (b : Builder) : (s.setBuilder b).fallback = s.fallback := rfl
@[simp] theorem State.setBuilder_rom (s : State) (b : Builder) : (s.setBuilder b).rom = s.rom := rfl
@[simp] theorem State.setBuilder_builder (s : State) (b : Builder) : (s.setBuilder b).builder = b := rfl
@[simp] theorem State.setBuilder_port (s : State) (b : Builder) : (s.setBuilder b).port = s.port := rfl
@[simp] theorem State.setBuilder_out (s : State) (b : Builder) : (s.setBuilder b).out = s.out := rfl
@[simp] theorem State.setBuilder_free (s : State) (b : Builder) : (s.setBuilder b).free = s.free := rfl

end Sys2Proof.Machine
end

