-- ==== Sys2Proof/Laws/Ops.lean ====
section
/-! SUPPORT. What each shared operation can do: its outcome, what it changes and what it leaves alone. -/

namespace Sys2Proof.Machine

/-! ### Outcomes -/

theorem Res.bind_eq_ok {α β : Type} {x : Res α} {f : α → Res β} {b : β} :
    (x >>= f) = .ok b ↔ ∃ a, x = .ok a ∧ f a = .ok b := by
  cases x with
  | error e => exact ⟨fun h => (by cases h), fun ⟨a, h, _⟩ => (by cases h)⟩
  | ok a => exact ⟨fun h => ⟨a, rfl, h⟩, fun ⟨_, h, k⟩ => by cases h; exact k⟩

@[simp] theorem Res.pure_eq_ok {α : Type} {a b : α} : (pure a : Res α) = .ok b ↔ a = b :=
  ⟨fun h => by cases h; rfl, fun h => by rw [h]; rfl⟩

@[simp] theorem Res.ok_bind {α β : Type} (a : α) (f : α → Res β) : ((.ok a : Res α) >>= f) = f a := rfl

@[simp] theorem Res.pure_bind {α β : Type} (a : α) (f : α → Res β) : ((pure a : Res α) >>= f) = f a := rfl

@[simp] theorem refuse_ne_ok {α : Type} (r : Refusal) (a : α) : (refuse r : Res α) = .ok a ↔ False :=
  ⟨fun h => (by cases h), False.elim⟩

@[simp] theorem toOutcome_eq_next {r : Res State} {t : State} : toOutcome r = .next t ↔ r = .ok t := by
  cases r with
  | ok s => exact ⟨fun h => (by cases h; rfl), fun h => (by cases h; rfl)⟩
  | error e => cases e <;> exact ⟨fun h => (by cases h), fun h => (by cases h)⟩

@[simp] theorem toOutcome_pure (t : State) : toOutcome (pure t) = .next t := rfl

theorem inDomain_of_wf {i : Instr} (h : i.wf = true) (k : Res State) : inDomain i k = toOutcome k := by
  simp [inDomain, h]

theorem inDomain_of_not_wf {i : Instr} (h : i.wf = false) (k : Res State) :
    inDomain i k = .refused .operandOutsideDomain := by
  simp [inDomain, h]

theorem inDomain_eq_next {i : Instr} {k : Res State} {t : State} :
    inDomain i k = .next t ↔ i.wf = true ∧ k = .ok t := by
  by_cases h : i.wf = true
  · simp [inDomain, h]
  · simp [inDomain, h]

/-! ### Free values -/

theorem State.useWord_some (s : State) (v : Long) : s.useWord (some v) = (v, s) := rfl

theorem State.useWord_none (s : State) :
    s.useWord none = (Config.freeWord s.free, { s with free := s.free + 1 }) := rfl

/-- Using a word changes nothing but the counter of open values. -/
theorem State.useWord_frame (s : State) (v : Option Long) : ∃ n, (s.useWord v).2 = { s with free := n } := by
  cases v with
  | none => exact ⟨_, rfl⟩
  | some v => exact ⟨s.free, rfl⟩

/-! ### Bus -/

/-- Everything a bus read can do. -/
theorem busRead_ok {w : Nat} {addr : Long} {mask : BitVec w} {s s' : State} {x : BitVec w}
    (h : busRead addr mask s = .ok (x, s')) :
    ∃ i kind l, s.bus.owner (s.bus.address addr) = some (i, kind, l) ∧
      s' = { s with trace := s.trace ++ [{ device := i, localAddr := l, mask := mask.toNat, data := none }] } ∧
      x = deviceAnswer s.bus kind i (s.bus.address addr) s.mem s'.trace mask := by
  simp only [busRead] at h
  split at h
  · simp at h
  · rename_i i kind l ho
    simp only [Except.ok.injEq, Prod.mk.injEq] at h
    exact ⟨i, kind, l, ho, h.2.symm, by rw [← h.2, ← h.1]⟩

/-- Everything a bus write can do. -/
theorem busWrite_ok {w : Nat} {addr : Long} {mask data : BitVec w} {s s' : State} (h : busWrite addr mask data s = .ok s') :
    ∃ i kind l, s.bus.owner (s.bus.address addr) = some (i, kind, l) ∧
      s' = { s with mem := deviceStore s.bus kind i (s.bus.address addr) s.mem mask data
                    trace := s.trace ++
                      [{ device := i, localAddr := l, mask := mask.toNat, data := some data.toNat }] } := by
  simp only [busWrite] at h
  split at h
  · simp at h
  · rename_i i kind l ho
    exact ⟨i, kind, l, ho, by cases h; rfl⟩

/-- The device of an owned address. -/
theorem Bus.deviceAt_of_owner {b : Bus} {a i l : Nat} {k : DeviceKind} (h : b.owner a = some (i, k, l)) : b.deviceAt a = some i := by
  rw [Bus.owner] at h
  split at h
  · cases h
  · rename_i j hj
    split at h
    · cases h; exact hj
    · split at h
      · cases h; exact hj
      · cases h

theorem busRead_of_owner {w : Nat} {addr : Long} {s : State} {i : Nat} {kind : DeviceKind} {l : Nat} (mask : BitVec w)
    (h : s.bus.owner (s.bus.address addr) = some (i, kind, l)) :
    busRead addr mask s =
      .ok (deviceAnswer s.bus kind i (s.bus.address addr) s.mem
            (s.trace ++ [{ device := i, localAddr := l, mask := mask.toNat, data := none }]) mask,
          { s with trace := s.trace ++ [{ device := i, localAddr := l, mask := mask.toNat, data := none }] }) := by
  simp only [busRead, h]

theorem busWrite_of_owner {w : Nat} {addr : Long} {s : State} {i : Nat} {kind : DeviceKind} {l : Nat} (mask data : BitVec w)
    (h : s.bus.owner (s.bus.address addr) = some (i, kind, l)) :
    busWrite addr mask data s =
      .ok { s with mem := deviceStore s.bus kind i (s.bus.address addr) s.mem mask data
                   trace := s.trace ++
                     [{ device := i, localAddr := l, mask := mask.toNat, data := some data.toNat }] } := by
  simp only [busWrite, h]

theorem Memory.writeByteOf_wf {m : Memory} (h : m.wf) (b : Bus) (i a : Nat) (v : Byte) : (m.writeByteOf b i a v).wf := by
  rw [Memory.writeByteOf]
  split
  · exact Memory.write_wf h _ _
  · exact h

/-- Everything a write of one byte of device `i` does. -/
theorem Memory.read_writeByteOf {m : Memory} (h : m.wf) (b : Bus) (i a : Nat) (v : Byte) (c : Nat) :
    Memory.read (m.writeByteOf b i a v) c = if c = a ∧ b.deviceAt a = some i then v else Memory.read m c := by
  rw [Memory.writeByteOf]
  by_cases ho : b.deviceAt a = some i <;> by_cases hc : c = a
  · rw [if_pos ho, if_pos ⟨hc, ho⟩, hc, Memory.read_write_same h]
  · rw [if_pos ho, if_neg (fun e => hc e.1), Memory.read_write_other h _ hc]
  · rw [if_neg ho, if_neg (fun e => ho e.2)]
  · rw [if_neg ho, if_neg (fun e => hc e.1)]

/-- A word in device `i`'s pages is written whole. -/
theorem Memory.writeWordOf_eq {b : Bus} {i a : Nat} (h0 : b.deviceAt (wordBase a) = some i)
    (h1 : b.deviceAt (wordBase a + 1) = some i) (m : Memory) (v : Word) : m.writeWordOf b i a v = m.writeWord a v := by
  rw [Memory.writeWordOf, Memory.writeByteOf, Memory.writeByteOf, if_pos h0, if_pos h1, Memory.writeWord]

/-- A device's store keeps the canonical form of RAM. -/
theorem deviceStore_wf {w : Nat} {m : Memory} (h : m.wf) (b : Bus) (kind : DeviceKind) (i a : Nat) (mask data : BitVec w) :
    (deviceStore b kind i a m mask data).wf := by
  cases kind with
  | ram =>
    simp only [deviceStore]
    split
    · exact Memory.writeByteOf_wf h _ _ _ _
    · split
      · exact Memory.writeByteOf_wf (Memory.writeByteOf_wf h _ _ _ _) _ _ _ _
      · exact h
  | openBus => exact h
  | external id => exact h

/-- A device's store changes no byte outside its own pages (10_state.md R41). -/
theorem read_deviceStore_other {w : Nat} {m : Memory} (h : m.wf) (b : Bus) (kind : DeviceKind) {i a c : Nat} (mask data : BitVec w)
    (hc : b.deviceAt c ≠ some i) : Memory.read (deviceStore b kind i a m mask data) c = Memory.read m c := by
  have key : ∀ {m' : Memory} (_ : m'.wf) (x : Nat) (v : Byte), Memory.read (m'.writeByteOf b i x v) c = Memory.read m' c := by
    intro m' h' x v
    rw [Memory.read_writeByteOf h', if_neg]
    rintro ⟨rfl, e⟩
    exact hc e
  cases kind with
  | ram =>
    simp only [deviceStore]
    split
    · exact key h _ _
    · split
      · rw [Memory.writeWordOf, key (Memory.writeByteOf_wf h _ _ _ _), key h]
      · rfl
  | openBus => rfl
  | external id => rfl

/-- A bus write changes no byte of a device it does not address (10_state.md R41). -/
theorem busWrite_read_other {w : Nat} {addr : Long} {mask data : BitVec w} {s s' : State} (hm : s.mem.wf)
    (h : busWrite addr mask data s = .ok s') {a : Nat} (ha : s.bus.deviceAt a ≠ s.bus.deviceAt (s.bus.address addr)) :
    Memory.read s'.mem a = Memory.read s.mem a := by
  obtain ⟨i, kind, l, ho, rfl⟩ := busWrite_ok h
  rw [Bus.deviceAt_of_owner ho] at ha
  exact read_deviceStore_other hm _ _ _ _ ha

/-! ### What leaves the host's fixed parts alone -/

/-- `t` comes from `s` by work on CPU, execution context, RAM, transactions and open values only, and RAM keeps its
canonical form. -/
structure HostOnly (s t : State) : Prop where
  bus : t.bus = s.bus
  isd : t.isd = s.isd
  fallback : t.fallback = s.fallback
  rom : t.rom = s.rom
  builder : t.builder = s.builder
  port : t.port = s.port
  out : t.out = s.out
  mem : s.mem.wf → t.mem.wf

theorem HostOnly.refl (s : State) : HostOnly s s := ⟨rfl, rfl, rfl, rfl, rfl, rfl, rfl, id⟩

theorem HostOnly.trans {s t u : State} (h : HostOnly s t) (k : HostOnly t u) : HostOnly s u :=
  ⟨k.bus.trans h.bus, k.isd.trans h.isd, k.fallback.trans h.fallback, k.rom.trans h.rom, k.builder.trans h.builder,
    k.port.trans h.port, k.out.trans h.out, fun w => k.mem (h.mem w)⟩

theorem State.setD_hostOnly (s : State) (n : BitVec 3) (v : Long) : HostOnly s (s.setD n v) :=
  ⟨rfl, rfl, rfl, rfl, rfl, rfl, rfl, id⟩
theorem State.setA_hostOnly (s : State) (n : BitVec 3) (v : Long) : HostOnly s (s.setA n v) :=
  ⟨rfl, rfl, rfl, rfl, rfl, rfl, rfl, id⟩
theorem State.setPc_hostOnly (s : State) (v : Long) : HostOnly s (s.setPc v) :=
  ⟨rfl, rfl, rfl, rfl, rfl, rfl, rfl, id⟩
theorem State.setIr_hostOnly (s : State) (v : Word) : HostOnly s (s.setIr v) :=
  ⟨rfl, rfl, rfl, rfl, rfl, rfl, rfl, id⟩
theorem State.setSr_hostOnly (s : State) (v : Sr) : HostOnly s (s.setSr v) :=
  ⟨rfl, rfl, rfl, rfl, rfl, rfl, rfl, id⟩
theorem State.setAddr_hostOnly (s : State) (t : Slot) (v : Long) : HostOnly s (s.setAddr t v) :=
  ⟨rfl, rfl, rfl, rfl, rfl, rfl, rfl, id⟩
theorem State.setData_hostOnly (s : State) (t : Slot) (v : Long) : HostOnly s (s.setData t v) :=
  ⟨rfl, rfl, rfl, rfl, rfl, rfl, rfl, id⟩
theorem State.addClk_hostOnly (s : State) (n : Nat) : HostOnly s (s.addClk n) :=
  ⟨rfl, rfl, rfl, rfl, rfl, rfl, rfl, id⟩

theorem State.useWord_hostOnly (s : State) (v : Option Long) : HostOnly s (s.useWord v).2 := by
  cases v <;> exact ⟨rfl, rfl, rfl, rfl, rfl, rfl, rfl, id⟩

theorem State.storeReg_hostOnly (s : State) (w : Size) (cls : RegClass) (n : BitVec 3) (v : Long) :
    HostOnly s (s.storeReg w cls n v) := by
  cases cls <;> exact ⟨rfl, rfl, rfl, rfl, rfl, rfl, rfl, id⟩

theorem busRead_hostOnly {w : Nat} {addr : Long} {mask : BitVec w} {s s' : State} {x : BitVec w}
    (h : busRead addr mask s = .ok (x, s')) : HostOnly s s' := by
  obtain ⟨i, kind, l, -, rfl, -⟩ := busRead_ok h
  exact ⟨rfl, rfl, rfl, rfl, rfl, rfl, rfl, id⟩

theorem busWrite_hostOnly {w : Nat} {addr : Long} {mask data : BitVec w} {s s' : State}
    (h : busWrite addr mask data s = .ok s') : HostOnly s s' := by
  obtain ⟨i, kind, l, -, rfl⟩ := busWrite_ok h
  exact ⟨rfl, rfl, rfl, rfl, rfl, rfl, rfl, fun k => deviceStore_wf k _ _ _ _ _ _⟩

/-! ### Accesses of the execution context -/

/-- Everything `MemRead` can do: it adds the access cycles and its transactions, and nothing else changes. -/
theorem memRead_ok {w : Size} {addr : Long} {s s' : State} {x : Long} (h : memRead w addr s = .ok (x, s')) :
    s.bus.params.dataWidth = 16 ∧ (w = .byte ∨ isOdd addr = false) ∧
      ∃ xs, s' = { s with exec := { s.exec with clk := s.exec.clk + Size.accessCycles w }, trace := s.trace ++ xs } := by
  unfold memRead at h
  split at h
  · simp at h
  rename_i hw
  refine ⟨Classical.not_not.1 hw, ?_⟩
  cases w with
  | byte =>
    obtain ⟨⟨y, t⟩, h1, h2⟩ := Res.bind_eq_ok.1 h
    obtain ⟨i, kind, l, -, rfl, -⟩ := busRead_ok h1
    cases h2
    exact ⟨.inl rfl, _, rfl⟩
  | word =>
    simp only at h
    split at h
    · simp at h
    rename_i ho
    obtain ⟨⟨y, t⟩, h1, h2⟩ := Res.bind_eq_ok.1 h
    obtain ⟨i, kind, l, -, rfl, -⟩ := busRead_ok h1
    cases h2
    exact ⟨.inr (by simpa using ho), _, rfl⟩
  | long =>
    simp only at h
    split at h
    · simp at h
    rename_i ho
    obtain ⟨⟨y, t⟩, h1, h2⟩ := Res.bind_eq_ok.1 h
    obtain ⟨⟨z, u⟩, h3, h4⟩ := Res.bind_eq_ok.1 h2
    obtain ⟨i, kind, l, -, rfl, -⟩ := busRead_ok h1
    obtain ⟨i', kind', l', -, rfl, -⟩ := busRead_ok h3
    cases h4
    exact ⟨.inr (by simpa using ho), [⟨i, l, 0, none⟩, ⟨i', l', 0, none⟩], by simp [State.addClk, Size.accessCycles]⟩

theorem memRead_hostOnly {w : Size} {addr : Long} {s s' : State} {x : Long} (h : memRead w addr s = .ok (x, s')) :
    HostOnly s s' := by
  obtain ⟨-, -, xs, rfl⟩ := memRead_ok h
  exact ⟨rfl, rfl, rfl, rfl, rfl, rfl, rfl, id⟩

/-- Everything `MemWrite` can do: it adds the access cycles and its transactions and changes RAM; nothing else changes. -/
theorem memWrite_ok {w : Size} {addr v : Long} {s s' : State} (h : memWrite w addr v s = .ok s') :
    s.bus.params.dataWidth = 16 ∧ (w = .byte ∨ isOdd addr = false) ∧
      ∃ m xs, s' = { s with exec := { s.exec with clk := s.exec.clk + Size.accessCycles w }, mem := m, trace := s.trace ++ xs } ∧
        (s.mem.wf → m.wf) := by
  unfold memWrite at h
  split at h
  · simp at h
  rename_i hw
  refine ⟨Classical.not_not.1 hw, ?_⟩
  cases w with
  | byte =>
    obtain ⟨t, h1, h2⟩ := Res.bind_eq_ok.1 h
    obtain ⟨i, kind, l, -, rfl⟩ := busWrite_ok h1
    cases h2
    exact ⟨.inl rfl, _, _, rfl, fun k => deviceStore_wf k _ _ _ _ _ _⟩
  | word =>
    simp only at h
    split at h
    · simp at h
    rename_i ho
    obtain ⟨t, h1, h2⟩ := Res.bind_eq_ok.1 h
    obtain ⟨i, kind, l, -, rfl⟩ := busWrite_ok h1
    cases h2
    exact ⟨.inr (by simpa using ho), _, _, rfl, fun k => deviceStore_wf k _ _ _ _ _ _⟩
  | long =>
    simp only at h
    split at h
    · simp at h
    rename_i ho
    obtain ⟨t, h1, h2⟩ := Res.bind_eq_ok.1 h
    obtain ⟨u, h3, h4⟩ := Res.bind_eq_ok.1 h2
    obtain ⟨i, kind, l, -, rfl⟩ := busWrite_ok h1
    obtain ⟨i', kind', l', -, rfl⟩ := busWrite_ok h3
    cases h4
    exact ⟨.inr (by simpa using ho), _, [⟨i, l, 0, some (extract v 16 16).toNat⟩, ⟨i', l', 0, some (extract v 0 16).toNat⟩],
      by simp only [State.addClk, Size.accessCycles, List.append_assoc, List.cons_append, List.nil_append]; rfl, fun k => deviceStore_wf (deviceStore_wf k _ _ _ _ _ _) _ _ _ _ _ _⟩

theorem memWrite_hostOnly {w : Size} {addr v : Long} {s s' : State} (h : memWrite w addr v s = .ok s') :
    HostOnly s s' := by
  obtain ⟨-, -, m, xs, rfl, hm⟩ := memWrite_ok h
  exact ⟨rfl, rfl, rfl, rfl, rfl, rfl, rfl, hm⟩

/-- Everything `fetch(width, cpu)` can do: `pc` advances, the cycles and transactions are added, nothing else changes. -/
theorem fetchStream_ok {w : Size} {s s' : State} {x : Long} (h : fetchStream w s = .ok (x, s')) :
    ∃ xs, s' = { s with cpu := { s.cpu with pc := s.cpu.pc + (if w = .long then 4 else 2) }
                        exec := { s.exec with clk := s.exec.clk + Size.accessCycles (Size.fetchAccess w) }
                        trace := s.trace ++ xs } := by
  cases w <;>
  · obtain ⟨⟨y, t⟩, h1, h2⟩ := Res.bind_eq_ok.1 h
    obtain ⟨-, -, xs, rfl⟩ := memRead_ok h1
    cases h2
    exact ⟨xs, rfl⟩

theorem fetchStream_hostOnly {w : Size} {s s' : State} {x : Long} (h : fetchStream w s = .ok (x, s')) :
    HostOnly s s' := by
  obtain ⟨xs, rfl⟩ := fetchStream_ok h
  exact ⟨rfl, rfl, rfl, rfl, rfl, rfl, rfl, id⟩

/-- What `FETCHW` gives, from whatever device, is what `fetch(width, cpu)` gives. -/
theorem fetched_iff {s u : State} {w : Size} {x : Long} : s.fetched w x u ↔ fetchStream w s = .ok (x, u) := by
  show (u.out = s.out ∧ toOutcome (returnValue w (fetchStream w s)) = _) ↔ _
  rw [toOutcome_eq_next, returnValue, Res.bind_eq_ok]
  constructor
  · rintro ⟨hu, ⟨y, t⟩, ht, h⟩
    obtain ⟨xs, rfl⟩ := fetchStream_ok ht
    simp only [State.returns, Res.pure_eq_ok] at h
    cases u
    simp only [State.mk.injEq] at h
    obtain ⟨rfl, rfl, rfl, rfl, rfl, rfl, rfl, rfl, rfl, rfl, h, rfl⟩ := h
    simp only at hu
    subst hu
    rw [ht, BitVec.eq_of_toNat_eq (Result.bits.inj h).2]
  · intro ht
    obtain ⟨xs, rfl⟩ := fetchStream_ok ht
    exact ⟨rfl, _, ht, rfl⟩

end Sys2Proof.Machine
end

