-- ==== Sys2Proof/Laws/Steps.lean ====
section
/-! SUPPORT. What a microcode step and a handler leave alone: the bus, the constants, the builder, the ports; and RAM keeps its
canonical form. -/

namespace Sys2Proof.Machine

theorem extword_hostOnly {s s' : State} {x : Long} (h : extword s = .ok (x, s')) : HostOnly s s' := by
  obtain ⟨⟨y, t⟩, h1, h2⟩ := Res.bind_eq_ok.1 h
  cases h2
  exact fetchStream_hostOnly h1

theorem fetchDisp_hostOnly {s s' : State} {x : Long} (h : fetchDisp s = .ok (x, s')) : HostOnly s s' := by
  obtain ⟨⟨y, t⟩, h1, h2⟩ := Res.bind_eq_ok.1 h
  cases h2
  exact fetchStream_hostOnly h1

/-- Address calculation works on the CPU, the slot and the instruction stream only. -/
theorem calcAddress_hostOnly {v : Variant} {n : BitVec 3} {w : Size} {t : Slot} {s s' : State}
    (h : calcAddress v n w t s = .ok s') : HostOnly s s' := by
  cases v with
  | dataReg => cases h; exact .refl s
  | addrReg => cases h; exact .refl s
  | imm => cases h; exact .refl s
  | addr => cases h; exact State.setAddr_hostOnly ..
  | addrInc => cases h; exact (State.setAddr_hostOnly ..).trans (State.setA_hostOnly ..)
  | addrDec => cases h; exact (State.setA_hostOnly ..).trans (State.setAddr_hostOnly ..)
  | addrDisp =>
    obtain ⟨⟨x, u⟩, h1, h2⟩ := Res.bind_eq_ok.1 h
    cases h2; exact (fetchDisp_hostOnly h1).trans (State.setAddr_hostOnly ..)
  | addrIdx =>
    obtain ⟨⟨x, u⟩, h1, h2⟩ := Res.bind_eq_ok.1 h
    cases h2; exact (extword_hostOnly h1).trans (State.setAddr_hostOnly ..)
  | pcDisp =>
    obtain ⟨⟨x, u⟩, h1, h2⟩ := Res.bind_eq_ok.1 h
    cases h2; exact (fetchDisp_hostOnly h1).trans (State.setAddr_hostOnly ..)
  | pcIdx =>
    obtain ⟨⟨x, u⟩, h1, h2⟩ := Res.bind_eq_ok.1 h
    cases h2; exact (extword_hostOnly h1).trans (State.setAddr_hostOnly ..)
  | absShort =>
    obtain ⟨⟨x, u⟩, h1, h2⟩ := Res.bind_eq_ok.1 h
    cases h2; exact (fetchDisp_hostOnly h1).trans (State.setAddr_hostOnly ..)
  | absLong =>
    obtain ⟨⟨x, u⟩, h1, h2⟩ := Res.bind_eq_ok.1 h
    cases h2; exact (fetchStream_hostOnly h1).trans (State.setAddr_hostOnly ..)

theorem loadMemory_hostOnly {w : Size} {t : Slot} {s s' : State} (h : loadMemory w t s = .ok s') : HostOnly s s' := by
  obtain ⟨⟨x, u⟩, h1, h2⟩ := Res.bind_eq_ok.1 h
  cases h2
  exact (State.useWord_hostOnly s _).trans ((memRead_hostOnly h1).trans (State.setData_hostOnly ..))

theorem storeMemory_hostOnly {w : Size} {t : Slot} {s s' : State} (h : storeMemory w t s = .ok s') : HostOnly s s' :=
  (State.useWord_hostOnly s _).trans ((State.useWord_hostOnly _ _).trans (memWrite_hostOnly h))

theorem storeToReg_hostOnly {w : Size} {cls : RegClass} {n : BitVec 3} {t : Slot} {s s' : State}
    (h : storeToReg w cls n t s = .ok s') : HostOnly s s' := by
  cases h
  exact (State.useWord_hostOnly s _).trans (State.storeReg_hostOnly ..)

theorem eaLoad_hostOnly {v : Variant} {n : BitVec 3} {w : Size} {t : Slot} {s s' : State}
    (h : eaLoad v n w t s = .ok s') : HostOnly s s' := by
  cases v with
  | dataReg => cases h; exact State.setData_hostOnly ..
  | addrReg => cases h; exact State.setData_hostOnly ..
  | imm =>
    obtain ⟨⟨x, u⟩, h1, h2⟩ := Res.bind_eq_ok.1 h
    cases h2; exact (fetchStream_hostOnly h1).trans (State.setData_hostOnly ..)
  | _ => exact loadMemory_hostOnly h

theorem eaStore_hostOnly {v : Variant} {n : BitVec 3} {w : Size} {t : Slot} {s s' : State}
    (h : eaStore v n w t s = .ok s') : HostOnly s s' := by
  cases v with
  | dataReg => exact storeToReg_hostOnly h
  | addrReg => exact storeToReg_hostOnly h
  | imm => cases h; exact .refl s
  | _ => exact storeMemory_hostOnly h

theorem eaTransfer_hostOnly {op : EaOp} {v : Variant} {n : BitVec 3} {w : Size} {t : Slot} {s s' : State}
    (h : eaTransfer op v n w t s = .ok s') : HostOnly s s' := by
  cases op with
  | load => exact eaLoad_hostOnly h
  | store => exact eaStore_hostOnly h
  | none => cases h; exact .refl s

theorem eaAddress_hostOnly {c : Bool} {v : Variant} {n : BitVec 3} {w : Size} {t : Slot} {s s' : State}
    (h : eaAddress c v n w t s = .ok s') : HostOnly s s' := by
  cases c with
  | true => exact calcAddress_hostOnly h
  | false => cases h; exact .refl s

theorem eaPenalty_hostOnly (k : Bool) (v : Variant) (s : State) : HostOnly s (eaPenalty k v s) := by
  cases k with
  | true => exact State.addClk_hostOnly ..
  | false => exact .refl s

/-- An `ea` step whose tables, mode and register are there runs its three parts in order. -/
theorem stepEa_of_decode {c k : Bool} {op : EaOp} {enc : AmEnc} {v : Variant} {s : State} (he : enc.wf = true)
    (hv : enc.decode s.cpu.ir = some v) (hn : v.usesRegister c op = true → enc.nField s.cpu.ir < 8) (w : Size) (t : Slot) :
    stepEa w t c k op enc s = eaAddress c v (BitVec.ofNat 3 (enc.nField s.cpu.ir)) w t s >>= fun s1 =>
      eaTransfer op v (BitVec.ofNat 3 (enc.nField s.cpu.ir)) w t (eaPenalty k v s1) := by
  rw [stepEa, if_neg (by simp [he]), hv]
  exact if_neg fun h => Nat.not_le.2 (hn h.1) h.2

theorem stepEa_hostOnly {w : Size} {t : Slot} {c k : Bool} {op : EaOp} {enc : AmEnc} {s s' : State}
    (h : stepEa w t c k op enc s = .ok s') : HostOnly s s' := by
  unfold stepEa at h
  split at h
  · simp at h
  split at h
  · simp at h
  split at h
  · simp at h
  obtain ⟨u, h1, h2⟩ := Res.bind_eq_ok.1 h
  exact (eaAddress_hostOnly h1).trans ((eaPenalty_hostOnly ..).trans (eaTransfer_hostOnly h2))

theorem stepLdReg_hostOnly {w : Size} {t : Slot} {cls : RegClass} {p : Nat} {s s' : State}
    (h : stepLdReg w t cls p s = .ok s') : HostOnly s s' := by
  unfold stepLdReg at h
  split at h
  · simp at h
  cases h; exact State.setData_hostOnly ..

theorem stepStReg_hostOnly {w : Size} {cls : RegClass} {p : Nat} {s s' : State}
    (h : stepStReg w cls p s = .ok s') : HostOnly s s' := by
  unfold stepStReg at h
  split at h
  · simp at h
  exact storeToReg_hostOnly h

theorem stepFetch_hostOnly {s s' : State} (h : stepFetch s = .ok s') : HostOnly s s' := by
  obtain ⟨⟨x, u⟩, h1, h2⟩ := Res.bind_eq_ok.1 h
  cases h2; exact (fetchStream_hostOnly h1).trans (State.setIr_hostOnly ..)

theorem stepBcd_hostOnly {op : BcdOp} {s s' : State} (h : stepBcd op s = .ok s') : HostOnly s s' := by
  cases h
  exact (State.useWord_hostOnly s _).trans ((State.useWord_hostOnly _ _).trans
    ((State.setData_hostOnly ..).trans ((State.setSr_hostOnly ..).trans (State.addClk_hostOnly ..))))

theorem stepCycles_hostOnly {n : Nat} {s s' : State} (h : stepCycles n s = .ok s') : HostOnly s s' := by
  cases h; exact State.addClk_hostOnly ..

/-- A microcode step leaves the host's fixed parts alone. -/
theorem runStep_hostOnly {width : Option Size} {step : Step} {s s' : State} (h : runStep width step s = .ok s') :
    HostOnly s s' := by
  cases step with
  | ea t c k op enc =>
    cases width with
    | none => simp [runStep] at h
    | some w => exact stepEa_hostOnly h
  | ldReg t cls p =>
    cases width with
    | none => simp [runStep] at h
    | some w => exact stepLdReg_hostOnly h
  | stReg cls p =>
    cases width with
    | none => simp [runStep] at h
    | some w => exact stepStReg_hostOnly h
  | fetch => exact stepFetch_hostOnly h
  | bcd op => exact stepBcd_hostOnly h
  | cycles n => exact stepCycles_hostOnly h

theorem runSteps_hostOnly {width : Option Size} {steps : List Step} {s s' : State}
    (h : runSteps width steps s = .ok s') : HostOnly s s' := by
  induction steps generalizing s with
  | nil => cases h; exact .refl _
  | cons step rest ih =>
    obtain ⟨u, h1, h2⟩ := Res.bind_eq_ok.1 h
    exact (runStep_hostOnly h1).trans (ih h2)

theorem runHostAccess_hostOnly {a : HostAccess} {s s' : State} {x : Nat} (h : runHostAccess a s = .ok (x, s')) :
    HostOnly s s' := by
  cases a with
  | read w addr =>
    obtain ⟨⟨y, u⟩, h1, h2⟩ := Res.bind_eq_ok.1 h
    cases h2; exact memRead_hostOnly h1
  | write w addr v =>
    obtain ⟨u, h1, h2⟩ := Res.bind_eq_ok.1 h
    cases h2; exact memWrite_hostOnly h1
  | busRead addr mask =>
    obtain ⟨⟨y, u⟩, h1, h2⟩ := Res.bind_eq_ok.1 h
    cases h2; exact busRead_hostOnly h1
  | busWrite addr mask data =>
    obtain ⟨u, h1, h2⟩ := Res.bind_eq_ok.1 h
    cases h2; exact busWrite_hostOnly h1

theorem runHostAccesses_hostOnly {call : Nat} {cpu : Cpu} {exec : ExecCtx} {k : Nat} {seen seen' : List Nat}
    {s s' : State} (h : runHostAccesses call cpu exec k seen s = .ok (seen', s')) : HostOnly s s' := by
  induction k generalizing seen s with
  | zero => cases h; exact .refl _
  | succ k ih =>
    simp only [runHostAccesses] at h
    split at h
    · cases h; exact .refl _
    · obtain ⟨⟨x, u⟩, h1, h2⟩ := Res.bind_eq_ok.1 h
      exact (runHostAccess_hostOnly h1).trans (ih h2)

/-- Everything a host-given handler can do when it does not end the run: its accesses, then its CPU and cycles. -/
theorem runHost_ok {s s' : State} (h : runHost s = .ok s') :
    ∃ seen t, runHostAccesses s.free s.cpu s.exec (Config.hostBound s.free s.cpu s.exec) [] { s with free := s.free + 1 } =
        .ok (seen, t) ∧
      (Config.hostEffect s.free s.cpu s.exec seen).terminates = false ∧
      s' = { t with cpu := (Config.hostEffect s.free s.cpu s.exec seen).cpu }.addClk
        (Config.hostEffect s.free s.cpu s.exec seen).cycles := by
  obtain ⟨⟨seen, t⟩, h1, h2⟩ := Res.bind_eq_ok.1 h
  refine ⟨seen, t, h1, ?_⟩
  simp only at h2
  split at h2
  · cases h2
  · rename_i hf
    cases h2
    exact ⟨Bool.not_eq_true _ ▸ hf, rfl⟩

theorem runHost_hostOnly {s s' : State} (h : runHost s = .ok s') : HostOnly s s' := by
  obtain ⟨seen, t, h1, -, rfl⟩ := runHost_ok h
  have h0 : HostOnly s { s with free := s.free + 1 } := ⟨rfl, rfl, rfl, rfl, rfl, rfl, rfl, id⟩
  have h2 : HostOnly t { t with cpu := (Config.hostEffect s.free s.cpu s.exec seen).cpu } :=
    ⟨rfl, rfl, rfl, rfl, rfl, rfl, rfl, id⟩
  exact h0.trans ((runHostAccesses_hostOnly h1).trans (h2.trans (State.addClk_hostOnly ..)))

/-- A handler leaves the host's fixed parts alone. -/
theorem runHandler_hostOnly {h : Handler} {s s' : State} (e : runHandler h s = .ok s') : HostOnly s s' := by
  cases h with
  | pipeline steps width => exact runSteps_hostOnly e
  | host => exact runHost_hostOnly e

theorem runIndex_hostOnly {i : Nat} {s s' : State} (h : runIndex i s = .ok s') : HostOnly s s' := by
  unfold runIndex at h
  split at h
  · simp at h
  exact runHandler_hostOnly h

theorem decodeAndRun_hostOnly {s s' : State} (h : decodeAndRun s = .ok s') : HostOnly s s' := by
  unfold decodeAndRun at h
  split at h
  · simp at h
  exact runIndex_hostOnly h

/-- What `STEP` leaves: the handler ran in a new context, its cycles are returned and the context is released (R290). -/
theorem hostStep_ok {run : State → Res State} {s s' : State} (h : hostStep run s = .ok s') :
    ∃ t, run { s with exec := ExecCtx.fresh } = .ok t ∧
      s' = { t with exec := ExecCtx.fresh, out := .cycles t.exec.clk } := by
  obtain ⟨t, h1, h2⟩ := Res.bind_eq_ok.1 h
  exact ⟨t, h1, by cases h2; rfl⟩

end Sys2Proof.Machine
end

