-- ==== Sys2Proof/Laws/Ram.lean ====
section
/-! SUPPORT. Accesses that find RAM: the value read, the bytes stored, the transactions and the cycles, in the vocabulary of Safety.lean. -/

namespace Sys2Proof.Machine

/-! ### Addresses on the bus -/

theorem two_dvd_two_pow {n : Nat} (h : 1 ≤ n) : 2 ∣ 2 ^ n := ⟨2 ^ (n - 1), by rw [← Nat.pow_succ']; congr 1; omega⟩

theorem isOdd_iff (addr : Long) : isOdd addr = true ↔ addr.toNat % 2 = 1 := by
  rw [isOdd, BitVec.getLsbD, Nat.testBit_zero, decide_eq_true_iff]

theorem isOdd_eq_false_iff (addr : Long) : isOdd addr = false ↔ addr.toNat % 2 = 0 := by
  rw [← Bool.not_eq_true, isOdd_iff]; omega

/-- A bus address has the parity of the address. -/
theorem Bus.address_mod_two (b : Bus) (h : 1 ≤ b.params.addrWidth) (addr : Long) :
    b.address addr % 2 = addr.toNat % 2 := Nat.mod_mod_of_dvd _ (two_dvd_two_pow h)

/-- The byte after an even address is the other byte of its bus word. -/
theorem Bus.address_add_one (b : Bus) (h : 1 ≤ b.params.addrWidth) {addr : Long} (he : isOdd addr = false) :
    b.address (addr + 1) = b.address addr + 1 := by
  rw [isOdd_eq_false_iff] at he
  have h1 : (addr + 1).toNat = addr.toNat + 1 := by
    have := addr.isLt
    rw [BitVec.toNat_add]
    have : (1 : Long).toNat = 1 := rfl
    omega
  obtain ⟨k, hk⟩ := two_dvd_two_pow h
  unfold Bus.address
  rw [h1]
  have hlt := Nat.mod_lt addr.toNat (Nat.two_pow_pos b.params.addrWidth)
  have hev : addr.toNat % 2 ^ b.params.addrWidth % 2 = 0 := by
    rw [Nat.mod_mod_of_dvd _ (two_dvd_two_pow h)]; exact he
  rw [Nat.add_mod, Nat.mod_eq_of_lt (a := 1) (by omega)]
  rw [Nat.mod_eq_of_lt (by omega)]

theorem isOdd_add_two (addr : Long) : isOdd (addr + 2) = isOdd addr := by
  have h : (addr + 2).toNat % 2 = addr.toNat % 2 := by
    rw [BitVec.toNat_add]
    have : (2 : Long).toNat = 2 := rfl
    omega
  rw [Bool.eq_iff_iff, isOdd_iff, isOdd_iff, h]

theorem isOdd_add_one (addr : Long) : isOdd (addr + 1) = !isOdd addr := by
  have h : (addr + 1).toNat % 2 = (addr.toNat + 1) % 2 := by
    rw [BitVec.toNat_add]
    have : (1 : Long).toNat = 1 := rfl
    omega
  rw [Bool.eq_iff_iff, Bool.not_eq_true', isOdd_iff, isOdd_eq_false_iff, h]
  omega

/-! ### Reads -/

/-- A masked byte of a word. -/
theorem lane_extract (x y : Byte) :
    extract ((x ++ y : Word) &&& ~~~(0xFF00 : Word)) 0 8 = y ∧ extract ((x ++ y : Word) &&& ~~~(0x00FF : Word)) 8 8 = x := by
  have hh : ∀ i < 8, (0x00FF : Word).getLsbD (8 + i) = false := by decide
  have hl : ∀ i < 8, (0xFF00 : Word).getLsbD i = false := by decide
  constructor <;>
  · apply BitVec.eq_of_getLsbD_eq
    intro i hi
    have h1 : 8 + i < 16 := by omega
    have h2 : ¬ 8 + i < 8 := by omega
    have h3 : 8 + i - 8 = i := by omega
    have h4 : i < 16 := by omega
    simp only [extract, BitVec.getLsbD_extractLsb', BitVec.getLsbD_and, BitVec.getLsbD_append, BitVec.getLsbD_not, hh i hi, hl i hi, hi,
      h1, h2, h3, h4, Nat.zero_add, decide_true, Bool.true_and, Bool.not_false, Bool.and_true, if_true, if_false]

/-- A byte read that finds RAM. -/
theorem busRead_byte {s : State} (h : 1 ≤ s.bus.params.addrWidth) {addr : Long} (hr : s.ramAt (s.bus.address addr)) :
    ∃ x, busRead addr (laneMask addr) s =
        .ok (x, { s with trace := s.trace ++ [s.accessAt addr (laneMask addr) none] }) ∧
      laneByte addr x = s.byteAtAddr addr := by
  obtain ⟨i, l, ho⟩ := hr
  have hd := Bus.deviceAt_of_owner ho
  rw [busRead_of_owner _ ho]
  refine ⟨_, by simp only [State.accessAt, ho, Option.map_none]; rfl, ?_⟩
  have hp := Bus.address_mod_two s.bus h addr
  simp only [deviceAnswer, ramAnswer, zext, BitVec.setWidth_eq, if_true]
  rw [if_neg (by decide)]
  cases hodd : isOdd addr with
  | true =>
    have hb := wordBase_of_odd (a := s.bus.address addr) (by have := (isOdd_iff addr).1 hodd; omega)
    rw [laneByte, laneMask, hodd, if_pos rfl, if_pos rfl, (lane_extract _ _).1, ramByte, hb, if_pos hd]
    rfl
  | false =>
    have hb := wordBase_of_even (a := s.bus.address addr) (by have := (isOdd_eq_false_iff addr).1 hodd; omega)
    rw [laneByte, laneMask, hodd, if_neg (by decide), if_neg (by decide), (lane_extract _ _).2, ramByte, hb, if_pos hd]
    rfl

/-- The addresses of a bus word of one RAM device. -/
theorem ramWordAt_device {s : State} (h : 1 ≤ s.bus.params.addrWidth) {addr : Long} (he : isOdd addr = false)
    (hr : s.ramWordAt addr) :
    ∃ i l, s.bus.owner (s.bus.address addr) = some (i, .ram, l) ∧ wordBase (s.bus.address addr) = s.bus.address addr ∧
      s.bus.deviceAt (wordBase (s.bus.address addr)) = some i ∧
      s.bus.deviceAt (wordBase (s.bus.address addr) + 1) = some i := by
  obtain ⟨i, l, l', h0, h1⟩ := hr
  have hb : wordBase (s.bus.address addr) = s.bus.address addr :=
    wordBase_of_even (by rw [Bus.address_mod_two _ h]; exact (isOdd_eq_false_iff addr).1 he)
  rw [Bus.address_add_one _ h he] at h1
  exact ⟨i, l, h0, hb, by rw [hb]; exact Bus.deviceAt_of_owner h0, by rw [hb]; exact Bus.deviceAt_of_owner h1⟩

theorem and_not_zero (x : Word) : x &&& ~~~(0 : Word) = x := by
  apply BitVec.eq_of_getLsbD_eq
  intro i hi
  have : (0 : Word).getLsbD i = false := by revert hi; revert i; decide
  rw [BitVec.getLsbD_and, BitVec.getLsbD_not, this]
  simp [hi]

theorem covered_byte (b : Bus) (addr : Long) : b.covered .byte addr = [b.address addr] := by
  show [b.address (addr + 0)] = _
  rw [show addr + (0 : Long) = addr from BitVec.add_zero addr]

theorem covered_word (b : Bus) (addr : Long) : b.covered .word addr = [b.address addr, b.address (addr + 1)] := by
  show [b.address (addr + 0), b.address (addr + 1)] = _
  rw [show addr + (0 : Long) = addr from BitVec.add_zero addr]

theorem covered_long (b : Bus) (addr : Long) :
    b.covered .long addr = [b.address addr, b.address (addr + 1), b.address (addr + 2), b.address (addr + 3)] := by
  show [b.address (addr + 0), b.address (addr + 1), b.address (addr + 2), b.address (addr + 3)] = _
  rw [show addr + (0 : Long) = addr from BitVec.add_zero addr]

/-- A word read that finds RAM. -/
theorem busRead_word {s : State} (h : 1 ≤ s.bus.params.addrWidth) {addr : Long} (he : isOdd addr = false)
    (hr : s.ramWordAt addr) :
    busRead addr (0 : Word) s = .ok (s.wordAt addr, { s with trace := s.trace ++ [s.accessAt addr 0 none] }) := by
  obtain ⟨i, l, ho, hb, h0, h1⟩ := ramWordAt_device h he hr
  rw [busRead_of_owner _ ho]
  simp only [State.accessAt, ho, Option.map_none, deviceAnswer, ramAnswer, zext, BitVec.setWidth_eq, if_true, ramByte, h0, h1,
    and_not_zero]
  rw [if_neg (by decide), hb, ← Bus.address_add_one _ h he]
  rfl

/-- `MemRead` that finds RAM. -/
theorem memRead_ram {s : State} {w : Size} {addr : Long} (h : s.ramAccess w addr) :
    memRead w addr s = .ok (s.ramValue w addr, s.afterRead w addr) := by
  obtain ⟨hw, ha, he, hr⟩ := h
  have h1 : 1 ≤ s.bus.params.addrWidth := by omega
  unfold memRead
  rw [if_neg (by simp [hw])]
  cases w with
  | byte =>
    obtain ⟨x, hx, hv⟩ := busRead_byte h1 hr
    simp only [hx, Res.ok_bind, hv]
    rfl
  | word =>
    have he : isOdd addr = false := by simpa using he
    simp only [he, busRead_word h1 he hr, Res.ok_bind]
    rfl
  | long =>
    have he : isOdd addr = false := by simpa using he
    have h2 : State.ramWordAt { s with trace := s.trace ++ [s.accessAt addr 0 none] } (addr + 2) := hr.2
    simp only [he, busRead_word h1 he hr.1, busRead_word (s := { s with trace := s.trace ++ [s.accessAt addr 0 none] }) h1
      ((isOdd_add_two addr).trans he) h2, Res.ok_bind]
    rw [if_neg (by decide)]
    simp only [State.ramValue, State.afterRead, State.readAccesses, State.addClk, Size.accessCycles, List.append_assoc]
    rfl

/-- `fetch(width, cpu)` that finds RAM. -/
theorem fetchStream_ram {s : State} {w : Size} (h : s.streamReady w) :
    fetchStream w s = .ok (s.streamValue w, s.afterFetch w) := by
  cases w with
  | byte =>
    have h1 : memRead .word s.cpu.pc s = _ := memRead_ram h
    simp only [fetchStream, h1, Res.ok_bind]
    have e : Size.zeroLow .byte (s.ramValue .word s.cpu.pc) = s.streamValue .byte := by
      apply BitVec.eq_of_getLsbD_eq
      intro i hi
      simp only [Size.zeroLow, zext, truncate, Size.bits, State.ramValue, State.streamValue, BitVec.getLsbD_setWidth,
        BitVec.getLsbD_and]
      by_cases h8 : i < 8
      · have : (0xFF : Long).getLsbD i = true := by clear hi; revert h8; revert i; decide
        rw [this]
        simp [h8, hi]
      · have : (0xFF : Long).getLsbD i = false := by
          revert h8; revert hi; revert i; decide
        rw [this]
        simp [h8]
    rw [e]
    rfl
  | word =>
    have h1 : memRead .word s.cpu.pc s = _ := memRead_ram h
    simp only [fetchStream, h1, Res.ok_bind]
    rfl
  | long =>
    have h1 : memRead .long s.cpu.pc s = _ := memRead_ram h
    simp only [fetchStream, h1, Res.ok_bind]
    rfl

/-! ### Writes -/

/-- A word write that finds RAM. -/
theorem busWrite_word {s : State} (h : 1 ≤ s.bus.params.addrWidth) {addr : Long} (he : isOdd addr = false)
    (hr : s.ramWordAt addr) (v : Word) :
    busWrite addr (0 : Word) v s =
      .ok { s with mem := s.mem.writeWord (s.bus.address addr) v, trace := s.trace ++ [s.accessAt addr 0 (some v)] } := by
  obtain ⟨i, l, ho, -, h0, h1⟩ := ramWordAt_device h he hr
  have e : maskMerge (truncate 16 (0 : Word)) (s.mem.readWord (s.bus.address addr)) (truncate 16 v) = v := by
    simp only [maskMerge, truncate, BitVec.setWidth_eq, and_not_zero]
    simp
  rw [busWrite_of_owner _ _ ho]
  simp only [State.accessAt, ho, Option.map_some, deviceStore, if_true, e, Memory.writeWordOf_eq h0 h1]
  rw [if_neg (by decide)]

/-- The bytes of a bus word after a masked write of one lane. -/
theorem lane_merge (x y v : Byte) :
    extract (((x ++ y : Word) &&& (0xFF00 : Word)) ||| ((v.setWidth 16 : Word) &&& ~~~(0xFF00 : Word))) 8 8 = x ∧
    extract (((x ++ y : Word) &&& (0xFF00 : Word)) ||| ((v.setWidth 16 : Word) &&& ~~~(0xFF00 : Word))) 0 8 = v ∧
    extract (((x ++ y : Word) &&& (0x00FF : Word)) ||| (((v.setWidth 16 : Word) <<< 8) &&& ~~~(0x00FF : Word))) 8 8 = v ∧
    extract (((x ++ y : Word) &&& (0x00FF : Word)) ||| (((v.setWidth 16 : Word) <<< 8) &&& ~~~(0x00FF : Word))) 0 8 = y := by
  have hh : ∀ i < 8, (0xFF00 : Word).getLsbD (8 + i) = true := by decide
  have hl : ∀ i < 8, (0xFF00 : Word).getLsbD i = false := by decide
  have lh : ∀ i < 8, (0x00FF : Word).getLsbD (8 + i) = false := by decide
  have ll : ∀ i < 8, (0x00FF : Word).getLsbD i = true := by decide
  refine ⟨?_, ?_, ?_, ?_⟩ <;>
  · apply BitVec.eq_of_getLsbD_eq
    intro i hi
    have h1 : 8 + i < 16 := by omega
    have h2 : ¬ 8 + i < 8 := by omega
    have h3 : 8 + i - 8 = i := by omega
    have h6 : ¬ 8 ≤ i := by omega
    have h7 : i < 16 := by omega
    simp only [extract, BitVec.getLsbD_extractLsb', BitVec.getLsbD_or, BitVec.getLsbD_and, BitVec.getLsbD_not,
      BitVec.getLsbD_append, BitVec.getLsbD_shiftLeft, BitVec.getLsbD_setWidth, hh i hi, hl i hi, lh i hi, ll i hi, h1, h2, h3,
      decide_true, decide_false, Bool.true_and, Bool.and_true, Bool.and_false, Bool.false_and, Bool.not_true,
      Bool.not_false, Bool.or_false, Bool.false_or, hi, if_true, if_false, Nat.zero_add, h7]
    try simp [hi]

/-- The bytes of RAM after a masked write of one lane. -/
theorem stores_byte {b : Bus} {m : Memory} (hm : m.wf) (h : 1 ≤ b.params.addrWidth) {addr : Long} {i : Nat}
    (hd : b.deviceAt (b.address addr) = some i) (v : Long) :
    b.stores .byte addr v m (deviceStore b .ram i (b.address addr) m (laneMask addr) (laneWord addr (truncate 8 v))) := by
  have hp := Bus.address_mod_two b h addr
  have hl := lane_merge (Memory.read m (wordBase (b.address addr))) (Memory.read m (wordBase (b.address addr) + 1)) (truncate 8 v)
  have hv : v.extractLsb' (8 * (Size.byte.bytes - 1 - 0)) 8 = (truncate 8 v : Byte) := by
    apply BitVec.eq_of_getLsbD_eq
    intro i hi
    simp [truncate, hi, Size.bytes]
  have hread : ∀ c, Memory.read (deviceStore b .ram i (b.address addr) m (laneMask addr) (laneWord addr (truncate 8 v))) c =
      if c = b.address addr then truncate 8 v else Memory.read m c := by
    intro c
    simp only [deviceStore, if_true, maskMerge, Memory.writeWordOf, Memory.readWord]
    rw [if_neg (by decide), Memory.read_writeByteOf (Memory.writeByteOf_wf hm _ _ _ _), Memory.read_writeByteOf hm]
    cases hodd : isOdd addr with
    | true =>
      have hb := wordBase_of_odd (a := b.address addr) (by have := (isOdd_iff addr).1 hodd; omega)
      simp only [laneMask, laneWord, hodd, if_true, zext, truncate, BitVec.setWidth_eq] at hl ⊢
      rw [hl.1, hl.2.1, hb]
      by_cases hc : c = b.address addr
      · rw [if_pos ⟨hc, hd⟩, if_pos hc]
      · rw [if_neg (fun e => hc e.1), if_neg hc]
        split
        · rename_i e; rw [e.1]
        · rfl
    | false =>
      have hb := wordBase_of_even (a := b.address addr) (by have := (isOdd_eq_false_iff addr).1 hodd; omega)
      simp only [laneMask, laneWord, hodd, Bool.false_eq_true, if_false, zext, truncate, BitVec.setWidth_eq] at hl ⊢
      rw [hl.2.2.1, hl.2.2.2, hb]
      by_cases hc : c = b.address addr
      · rw [if_neg (by omega), if_pos ⟨hc, hd⟩, if_pos hc]
      · rw [if_neg (c := c = b.address addr ∧ _) (fun e => hc e.1), if_neg hc]
        split
        · rename_i e; rw [e.1]
        · rfl
  refine ⟨fun a ha => ?_, fun k hk => ?_⟩
  · rw [covered_byte, List.mem_singleton] at ha
    rw [hread, if_neg ha]
  · obtain rfl : k = 0 := by simp only [Size.bytes] at hk; omega
    rw [show addr + BitVec.ofNat 32 0 = addr from BitVec.add_zero addr, hread, if_pos rfl, hv]

/-- A byte write that finds RAM. -/
theorem busWrite_byte {s : State} (hm : s.mem.wf) (h : 1 ≤ s.bus.params.addrWidth) {addr : Long}
    (hr : s.ramAt (s.bus.address addr)) (v : Long) :
    ∃ m : Memory, s.bus.stores .byte addr v s.mem m ∧ m.wf ∧
      busWrite addr (laneMask addr) (laneWord addr (truncate 8 v)) s = .ok { s with
        mem := m
        trace := s.trace ++ [s.accessAt addr (laneMask addr) (some (laneWord addr (truncate 8 v)))] } := by
  obtain ⟨i, l, ho⟩ := hr
  refine ⟨_, stores_byte hm h (Bus.deviceAt_of_owner ho) v, deviceStore_wf hm _ _ _ _ _ _, ?_⟩
  rw [busWrite_of_owner _ _ ho]
  simp only [State.accessAt, ho, Option.map_some]

theorem stores_word {b : Bus} {m : Memory} (hm : m.wf) (h : 1 ≤ b.params.addrWidth) {addr : Long}
    (he : isOdd addr = false) (v : Long) : b.stores .word addr v m (m.writeWord (b.address addr) (truncate 16 v)) := by
  have h2 : b.address addr % 2 = 0 := by
    rw [Bus.address_mod_two _ h]; exact (isOdd_eq_false_iff addr).1 he
  have hb := wordBase_of_even h2
  have h0 : addr + BitVec.ofNat 32 0 = addr := BitVec.add_zero addr
  have r0 := Memory.read_writeWord_even hm (b.address addr) (truncate 16 v)
  have r1 := Memory.read_writeWord_odd hm (b.address addr) (truncate 16 v)
  have r2 : ∀ a, a ≠ wordBase (b.address addr) → a ≠ wordBase (b.address addr) + 1 → _ :=
    fun a => Memory.read_writeWord_other (c := a) hm (truncate 16 v)
  generalize m.writeWord (b.address addr) (truncate 16 v) = m' at r0 r1 r2 ⊢
  rw [hb] at r0 r1 r2
  unfold Bus.stores
  rw [covered_word, Bus.address_add_one _ h he]
  constructor
  · intro a ha
    simp only [List.mem_cons, List.not_mem_nil, or_false, not_or] at ha
    exact r2 a ha.1 ha.2
  · intro k hk
    have hk : k = 0 ∨ k = 1 := by simp only [Size.bytes] at hk; omega
    rcases hk with rfl | rfl
    · rw [h0, r0]
      apply BitVec.eq_of_getLsbD_eq
      intro i hi
      have : 8 + i < 16 := by omega
      simp [extract, truncate, Size.bytes, hi, this]
    · rw [show addr + BitVec.ofNat 32 1 = addr + 1 from rfl, Bus.address_add_one _ h he, r1]
      apply BitVec.eq_of_getLsbD_eq
      intro i hi
      have : i < 16 := by omega
      simp [extract, truncate, Size.bytes, hi, this]

/-- The two halves of a long are different bus words. -/
theorem Bus.address_add_two_ne (b : Bus) (h : 2 ≤ b.params.addrWidth) (addr : Long) :
    b.address (addr + 2) ≠ b.address addr := by
  have h4 : 4 ∣ 2 ^ b.params.addrWidth := ⟨2 ^ (b.params.addrWidth - 2), by
    rw [show (4 : Nat) = 2 ^ 2 from rfl, ← Nat.pow_add]; congr 1; omega⟩
  intro e
  have e4 := congrArg (· % 4) e
  simp only [Bus.address, Nat.mod_mod_of_dvd _ h4, BitVec.toNat_add] at e4
  have : (2 : Long).toNat = 2 := rfl
  omega

theorem stores_long {b : Bus} {m : Memory} (hm : m.wf) (h : 2 ≤ b.params.addrWidth) {addr : Long}
    (he : isOdd addr = false) (v : Long) :
    b.stores .long addr v m
      ((m.writeWord (b.address addr) (extract v 16 16)).writeWord (b.address (addr + 2)) (extract v 0 16)) := by
  have h1 : 1 ≤ b.params.addrWidth := by omega
  have he2 : isOdd (addr + 2) = false := (isOdd_add_two addr).trans he
  have s1 := stores_word hm h1 he (BitVec.setWidth 32 (extract v 16 16 : Word))
  have s2 := stores_word (Memory.writeWord_wf hm (b.address addr) (extract v 16 16)) h1 he2
    (BitVec.setWidth 32 (extract v 0 16 : Word))
  have t1 : truncate 16 (BitVec.setWidth 32 (extract v 16 16 : Word)) = (extract v 16 16 : Word) := by
    simp [truncate]
  have t2 : truncate 16 (BitVec.setWidth 32 (extract v 0 16 : Word)) = (extract v 0 16 : Word) := by
    simp [truncate]
  rw [t1] at s1
  rw [t2] at s2
  generalize m.writeWord (b.address addr) (extract v 16 16) = m1 at s1 s2 ⊢
  generalize m1.writeWord (b.address (addr + 2)) (extract v 0 16) = m2 at s2 ⊢
  have a1 := Bus.address_add_one b h1 he
  have a3 : b.address (addr + 3) = b.address (addr + 2) + 1 := by
    rw [← Bus.address_add_one b h1 he2, BitVec.add_assoc]
    rfl
  have p0 : b.address addr % 2 = 0 := by
    rw [Bus.address_mod_two _ h1]; exact (isOdd_eq_false_iff addr).1 he
  have p2 : b.address (addr + 2) % 2 = 0 := by
    rw [Bus.address_mod_two _ h1]; exact (isOdd_eq_false_iff _).1 he2
  have ne := Bus.address_add_two_ne b h addr
  have q1 : ∀ a, a ≠ b.address addr → a ≠ b.address addr + 1 → Memory.read m1 a = Memory.read m a := by
    intro a h h'
    apply s1.1
    rw [covered_word, a1]
    simp only [List.mem_cons, List.not_mem_nil, or_false, not_or]
    exact ⟨h, h'⟩
  have q2 : ∀ a, a ≠ b.address (addr + 2) → a ≠ b.address (addr + 2) + 1 → Memory.read m2 a = Memory.read m1 a := by
    intro a h h'
    apply s2.1
    rw [covered_word, Bus.address_add_one _ h1 he2]
    simp only [List.mem_cons, List.not_mem_nil, or_false, not_or]
    exact ⟨h, h'⟩
  have z : ∀ x : Long, x + BitVec.ofNat 32 0 = x := fun x => BitVec.add_zero x
  have b0 := s1.2 0 (by decide)
  have b1 := s1.2 1 (by decide)
  have b2 := s2.2 0 (by decide)
  have b3 := s2.2 1 (by decide)
  rw [z] at b0 b2
  rw [show addr + BitVec.ofNat 32 1 = addr + 1 from rfl, a1] at b1
  rw [show addr + 2 + BitVec.ofNat 32 1 = addr + 2 + 1 from rfl, Bus.address_add_one _ h1 he2] at b3
  have bits : ∀ (x : Long) (y : Byte) (n : Nat), n ≤ 24 → (∀ i < 8, y.getLsbD i = x.getLsbD (n + i)) →
      y = x.extractLsb' n 8 := by
    intro x y n hn hxy
    apply BitVec.eq_of_getLsbD_eq
    intro i hi
    rw [hxy i hi]
    simp [hi]
  unfold Bus.stores
  rw [covered_long, a1, a3]
  constructor
  · intro a ha
    simp only [List.mem_cons, List.not_mem_nil, or_false, not_or] at ha
    rw [q2 a ha.2.2.1 ha.2.2.2, q1 a ha.1 ha.2.1]
  · intro k hk
    have hk : k = 0 ∨ k = 1 ∨ k = 2 ∨ k = 3 := by simp only [Size.bytes] at hk; omega
    rcases hk with rfl | rfl | rfl | rfl
    · rw [z, q2 _ (Ne.symm ne) (by omega), b0]
      apply bits _ _ _ (by decide)
      intro i hi
      have h1 : 8 + i < 32 := by omega
      have h2 : 8 + i < 16 := by omega
      have h3 : 16 + (8 + i) = 24 + i := by omega
      simp [extract, Size.bytes, hi, h1, h2, h3]
    · rw [show addr + BitVec.ofNat 32 1 = addr + 1 from rfl, a1, q2 _ (by omega) (by omega), b1]
      apply bits _ _ _ (by decide)
      intro i hi
      have h1 : i < 32 := by omega
      have h2 : i < 16 := by omega
      simp [extract, Size.bytes, hi, h1, h2]
    · rw [show addr + BitVec.ofNat 32 2 = addr + 2 from rfl, b2]
      apply bits _ _ _ (by decide)
      intro i hi
      have h1 : 8 + i < 32 := by omega
      have h2 : 8 + i < 16 := by omega
      simp [extract, Size.bytes, hi, h1, h2]
    · rw [show addr + BitVec.ofNat 32 3 = addr + 3 from rfl, a3, b3]
      apply bits _ _ _ (by decide)
      intro i hi
      have h1 : i < 32 := by omega
      have h2 : i < 16 := by omega
      simp [extract, Size.bytes, hi, h1, h2]

/-- `MemWrite` that finds RAM. -/
theorem memWrite_ram {s : State} {w : Size} {addr : Long} (hm : s.mem.wf) (h : s.ramAccess w addr) (v : Long) :
    ∃ m : Memory, s.bus.stores w addr v s.mem m ∧ m.wf ∧ memWrite w addr v s = .ok (s.afterWrite w addr v m) := by
  obtain ⟨hw, ha, he, hr⟩ := h
  have h1 : 1 ≤ s.bus.params.addrWidth := by omega
  unfold memWrite
  rw [if_neg (by simp [hw])]
  cases w with
  | byte =>
    obtain ⟨m, hs, hwf, hx⟩ := busWrite_byte hm h1 hr v
    refine ⟨m, hs, hwf, ?_⟩
    simp only [hx, Res.ok_bind]
    cases ho : isOdd addr with
    | true => simp only [State.afterWrite, State.writeAccesses, laneMask, laneWord, ho, if_true]; rfl
    | false => simp only [State.afterWrite, State.writeAccesses, laneMask, laneWord, ho]; rfl
  | word =>
    have he : isOdd addr = false := by simpa using he
    refine ⟨_, stores_word hm h1 he v, Memory.writeWord_wf hm _ _, ?_⟩
    simp only [he, busWrite_word h1 he hr, Res.ok_bind]
    rfl
  | long =>
    have he : isOdd addr = false := by simpa using he
    refine ⟨_, stores_long hm ha he v, Memory.writeWord_wf (Memory.writeWord_wf hm _ _) _ _, ?_⟩
    have ex : (extract v 0 16 : Word) = v.setWidth 16 := by
      apply BitVec.eq_of_getLsbD_eq
      intro i hi
      simp [extract, hi]
    have r2 : ∀ m' t', State.ramWordAt { s with mem := m', trace := t' } (addr + 2) := fun _ _ => hr.2
    have x2 : ∀ m' t' (x : Word), busWrite (addr + 2) (0 : Word) x { s with mem := m', trace := t' } = _ := fun m' t' x =>
      busWrite_word (s := { s with mem := m', trace := t' }) h1 ((isOdd_add_two addr).trans he) (r2 m' t') x
    simp only [he, busWrite_word h1 he hr.1, Res.ok_bind, x2]
    simp only [State.afterWrite, State.writeAccesses, State.addClk, Size.accessCycles, List.append_assoc, ex]
    rfl

end Sys2Proof.Machine
end

