-- ==== Sys2Proof/Laws/Trie.lean ====
section
/-! SUPPORT. The single-index test of `VISIT` without its sweep: a subtree has one match index exactly when the first pattern that some
word of it matches is matched by all of them. With it the build of a table can be evaluated. -/

namespace Sys2Proof.Machine

/-! ### Bits of a word below a prefix -/

/-- The word below a prefix with `r` open bits. -/
def subWord (pfx r s : Nat) : Word := BitVec.ofNat 16 (pfx * 2 ^ r + s)

theorem subWord_bit {pfx r s i : Nat} (hs : s < 2 ^ r) (hi : i < 16) :
    (subWord pfx r s).getLsbD i = if i < r then s.testBit i else pfx.testBit (i - r) := by
  rw [subWord, BitVec.getLsbD_ofNat, Nat.mul_comm, Nat.testBit_two_pow_mul_add _ hs]
  simp [hi]

theorem matchesWord_iff (p : Pattern) (w : Word) :
    p.matchesWord w = true ↔ ∀ i < 16, ((w.getLsbD i && !p.any.getLsbD i) ^^ p.set.getLsbD i) = false := by
  rw [Pattern.matchesWord, beq_iff_eq]
  constructor
  · intro h i hi
    have := congrArg (fun x : Word => x.getLsbD i) h
    simpa [hi] using this
  · intro h
    apply BitVec.eq_of_getLsbD_eq
    intro i hi
    simpa [hi] using h i hi

/-- The fixed bits of the prefix. -/
def openMask (r : Nat) : Word := BitVec.ofNat 16 (2 ^ r - 1)

theorem openMask_bit {r i : Nat} (hi : i < 16) : (openMask r).getLsbD i = decide (i < r) := by
  rw [openMask, BitVec.getLsbD_ofNat, Nat.testBit_two_pow_sub_one]
  simp [hi]

/-- Some word below the prefix may match the pattern. -/
def meetsPrefix (p : Pattern) (pfx r : Nat) : Bool :=
  (p.set &&& p.any == 0) && ((subWord pfx r 0 ^^^ p.set) &&& ~~~p.any &&& ~~~(openMask r) == 0)

/-- Every open bit is a wildcard of the pattern. -/
def coversOpen (p : Pattern) (r : Nat) : Bool := ~~~p.any &&& openMask r == 0

theorem meetsPrefix_iff (p : Pattern) (pfx r : Nat) :
    meetsPrefix p pfx r = true ↔ ∀ i < 16, (p.set.getLsbD i && p.any.getLsbD i) = false ∧
      (r ≤ i → ((pfx.testBit (i - r) ^^ p.set.getLsbD i) && !p.any.getLsbD i) = false) := by
  have h0 : (0 : Nat) < 2 ^ r := Nat.pow_pos (by decide)
  rw [meetsPrefix, Bool.and_eq_true, beq_iff_eq, beq_iff_eq]
  constructor
  · rintro ⟨h1, h2⟩ i hi
    have k1 := congrArg (fun x : Word => x.getLsbD i) h1
    have k2 := congrArg (fun x : Word => x.getLsbD i) h2
    simp only [BitVec.getLsbD_and, BitVec.getLsbD_xor, BitVec.getLsbD_not, hi, subWord_bit h0 hi, openMask_bit hi,
      decide_true, Bool.true_and] at k1 k2
    refine ⟨by simpa using k1, fun hr => ?_⟩
    rw [if_neg (by omega)] at k2
    simpa [Nat.not_lt.2 hr] using k2
  · intro h
    constructor
    · apply BitVec.eq_of_getLsbD_eq
      intro i hi
      simpa using (h i hi).1
    · apply BitVec.eq_of_getLsbD_eq
      intro i hi
      simp only [BitVec.getLsbD_and, BitVec.getLsbD_xor, BitVec.getLsbD_not, hi, subWord_bit h0 hi, openMask_bit hi,
        decide_true, Bool.true_and]
      by_cases hr : i < r
      · simp [hr]
      · have := (h i hi).2 (by omega)
        simpa [hr] using this

theorem coversOpen_iff (p : Pattern) (r : Nat) :
    coversOpen p r = true ↔ ∀ i < 16, i < r → p.any.getLsbD i = true := by
  rw [coversOpen, beq_iff_eq]
  constructor
  · intro h i hi hr
    have k := congrArg (fun x : Word => x.getLsbD i) h
    simp only [BitVec.getLsbD_and, BitVec.getLsbD_not, hi, openMask_bit hi, hr, decide_true, Bool.true_and,
      Bool.and_true] at k
    simpa using k
  · intro h
    apply BitVec.eq_of_getLsbD_eq
    intro i hi
    by_cases hr : i < r
    · simp [openMask_bit hi, hr, h i hi hr]
    · simp [openMask_bit hi, hr]

/-- No word below the prefix matches. -/
theorem not_matches_of_not_meets {p : Pattern} {pfx r s : Nat} (hs : s < 2 ^ r) (h : meetsPrefix p pfx r = false) :
    p.matchesWord (subWord pfx r s) = false := by
  rw [← Bool.not_eq_true] at h ⊢
  intro hm
  apply h
  rw [meetsPrefix_iff]
  rw [matchesWord_iff] at hm
  intro i hi
  have := hm i hi
  rw [subWord_bit hs hi] at this
  constructor
  · revert this; cases p.any.getLsbD i <;> cases p.set.getLsbD i <;> simp
  · intro hr
    rw [if_neg (by omega)] at this
    revert this
    cases p.any.getLsbD i <;> cases p.set.getLsbD i <;> cases pfx.testBit (i - r) <;> simp

/-- Every word below the prefix matches. -/
theorem matches_of_covers {p : Pattern} {pfx r s : Nat} (hs : s < 2 ^ r) (h : meetsPrefix p pfx r = true)
    (hc : coversOpen p r = true) : p.matchesWord (subWord pfx r s) = true := by
  rw [matchesWord_iff]
  rw [meetsPrefix_iff] at h
  rw [coversOpen_iff] at hc
  intro i hi
  rw [subWord_bit hs hi]
  obtain ⟨h1, h2⟩ := h i hi
  by_cases hr : i < r
  · have := hc i hi hr
    rw [this] at h1 ⊢
    simpa using h1
  · rw [if_neg hr]
    have := h2 (by omega)
    revert h1 this
    cases p.any.getLsbD i <;> cases p.set.getLsbD i <;> cases pfx.testBit (i - r) <;> simp

/-- The low `r` bits of a word as a number. -/
theorem lowBits_bit (x : Word) {r i : Nat} (hi : i < 16) (hr : i < r) :
    ((x &&& openMask r).toNat).testBit i = x.getLsbD i := by
  rw [BitVec.testBit_toNat, BitVec.getLsbD_and, openMask_bit hi]
  simp [hr]

theorem lowBits_lt (x : Word) {r : Nat} : (x &&& openMask r).toNat < 2 ^ r := by
  have h1 : (x &&& openMask r).toNat ≤ (openMask r).toNat := by
    rw [BitVec.toNat_and]; exact Nat.and_le_right
  have h2 : (openMask r).toNat ≤ 2 ^ r - 1 := by
    rw [openMask, BitVec.toNat_ofNat]; exact Nat.mod_le _ _
  have h3 : 0 < 2 ^ r := Nat.pow_pos (by decide)
  omega

/-- Some word below the prefix matches and some does not. -/
theorem split_of_not_covers {p : Pattern} {pfx r : Nat} (h : meetsPrefix p pfx r = true)
    (hc : coversOpen p r = false) :
    (∃ s < 2 ^ r, p.matchesWord (subWord pfx r s) = true) ∧ ∃ s < 2 ^ r, p.matchesWord (subWord pfx r s) = false := by
  rw [meetsPrefix_iff] at h
  constructor
  · refine ⟨(p.set &&& openMask r).toNat, lowBits_lt _, ?_⟩
    rw [matchesWord_iff]
    intro i hi
    rw [subWord_bit (lowBits_lt _) hi]
    obtain ⟨h1, h2⟩ := h i hi
    by_cases hir : i < r
    · rw [if_pos hir, lowBits_bit _ hi hir]
      revert h1
      cases p.any.getLsbD i <;> cases p.set.getLsbD i <;> simp
    · rw [if_neg hir]
      have := h2 (by omega)
      revert h1 this
      cases p.any.getLsbD i <;> cases p.set.getLsbD i <;> cases pfx.testBit (i - r) <;> simp
  · refine ⟨(~~~p.set &&& openMask r).toNat, lowBits_lt _, ?_⟩
    rw [← Bool.not_eq_true] at hc ⊢
    intro hm
    apply hc
    rw [coversOpen_iff]
    rw [matchesWord_iff] at hm
    intro i hi hir
    have := hm i hi
    rw [subWord_bit (lowBits_lt _) hi, if_pos hir, lowBits_bit _ hi hir] at this
    simp only [BitVec.getLsbD_not, hi, decide_true, Bool.true_and] at this
    revert this
    cases p.any.getLsbD i <;> cases p.set.getLsbD i <;> simp

/-! ### The single-index test -/

theorem matchIdx_nil (w : Word) : matchIdx [] w = 0 := rfl

theorem matchIdx_cons (p : Permutation) (ps : List Permutation) (w : Word) :
    matchIdx (p :: ps) w = if p.pattern.matchesWord w = true then 0 else matchIdx ps w + 1 := by
  simp only [matchIdx, List.findIdx_cons]
  cases p.pattern.matchesWord w <;> simp

/-- The one match index of the words below a prefix, if there is one. -/
def singleIndex (pfx r : Nat) : List Permutation → Option Nat
  | [] => some 0
  | p :: ps =>
    if meetsPrefix p.pattern pfx r then (if coversOpen p.pattern r then some 0 else none)
    else (singleIndex pfx r ps).map (· + 1)

theorem singleIndex_some {pfx r x : Nat} {ps : List Permutation} (h : singleIndex pfx r ps = some x) {s : Nat}
    (hs : s < 2 ^ r) : matchIdx ps (subWord pfx r s) = x := by
  induction ps generalizing x with
  | nil => simpa [singleIndex, matchIdx] using h
  | cons p ps ih =>
    rw [matchIdx_cons]
    rw [singleIndex] at h
    by_cases hm : meetsPrefix p.pattern pfx r = true
    · rw [if_pos hm] at h
      by_cases hc : coversOpen p.pattern r = true
      · rw [if_pos hc] at h
        rw [if_pos (matches_of_covers hs hm hc)]
        simpa using h
      · simp [hc] at h
    · have hm' : meetsPrefix p.pattern pfx r = false := by simpa using hm
      rw [if_neg hm] at h
      rw [not_matches_of_not_meets hs hm']
      obtain ⟨y, hy, rfl⟩ := Option.map_eq_some_iff.1 h
      simp [ih hy]

theorem singleIndex_none {pfx r : Nat} {ps : List Permutation} (h : singleIndex pfx r ps = none) :
    ∃ s < 2 ^ r, ∃ u < 2 ^ r, matchIdx ps (subWord pfx r s) ≠ matchIdx ps (subWord pfx r u) := by
  induction ps with
  | nil => simp [singleIndex] at h
  | cons p ps ih =>
    rw [singleIndex] at h
    by_cases hm : meetsPrefix p.pattern pfx r = true
    · rw [if_pos hm] at h
      by_cases hc : coversOpen p.pattern r = true
      · simp [hc] at h
      · obtain ⟨⟨s, hs, h1⟩, u, hu, h2⟩ := split_of_not_covers hm (by simpa using hc)
        refine ⟨s, hs, u, hu, ?_⟩
        rw [matchIdx_cons, matchIdx_cons, h1, h2]
        simp
    · have hm' : meetsPrefix p.pattern pfx r = false := by simpa using hm
      rw [if_neg hm] at h
      obtain ⟨s, hs, u, hu, hne⟩ := ih (by simpa using h)
      refine ⟨s, hs, u, hu, ?_⟩
      rw [matchIdx_cons, matchIdx_cons, not_matches_of_not_meets hs hm', not_matches_of_not_meets hu hm']
      simpa using hne

/-! ### The build without the sweep -/

/-- `VISIT` with the single-index test of `singleIndex`. -/
def visitFast (perms : List Permutation) : (openLevels : Nat) → (pfx : Nat) → List Page → Nat × List Page
  | 0, pfx, pages => (matchIdx perms (BitVec.ofNat 16 pfx), pages)
  | k + 1, pfx, pages =>
    match singleIndex pfx (4 * (k + 1)) perms with
    | some x => stub x (k + 1) pages
    | none =>
      let (cells, pages1) := mapPages (fun c => visitFast perms k (pfx * 16 + c)) (List.range 16) pages
      intern (pageOf cells) pages1

theorem mapPages_congr {f g : Nat → List Page → Nat × List Page} (h : ∀ k pages, f k pages = g k pages) (ks : List Nat)
    (pages : List Page) : mapPages f ks pages = mapPages g ks pages := by
  have : f = g := funext fun k => funext fun p => h k p
  rw [this]

theorem visit_eq_visitFast (perms : List Permutation) (k pfx : Nat) (pages : List Page) :
    visit perms k pfx pages = visitFast perms k pfx pages := by
  induction k generalizing pfx pages with
  | zero => rfl
  | succ k ih =>
    have h0 : (0 : Nat) < 2 ^ (4 * (k + 1)) := Nat.pow_pos (by decide)
    rw [visit, visitFast]
    rw [mapPages_congr (fun c pages => ih (pfx * 16 + c) pages)]
    cases hs : singleIndex pfx (4 * (k + 1)) perms with
    | some x =>
      have hx : matchIdx perms (BitVec.ofNat 16 (pfx * 2 ^ (4 * (k + 1)) + 0)) = x := singleIndex_some hs h0
      rw [if_pos]
      · simp only [hx]
      · simp only [List.all_eq_true, List.mem_range, beq_iff_eq]
        intro s h
        rw [hx]
        exact singleIndex_some hs h
    | none =>
      obtain ⟨s, h, u, h', hne⟩ := singleIndex_none hs
      rw [if_neg]
      simp only [List.all_eq_true, List.mem_range, beq_iff_eq, not_forall]
      by_contra hall
      simp only [not_exists, not_not] at hall
      exact hne ((hall s h).trans (hall u h').symm)

/-! ### The narrowed table -/

theorem narrowEntry_lt (use iw place : Nat) (k : Fin 16) (x : Nat) : narrowEntry use iw place k x < 2 ^ iw := by
  unfold narrowEntry
  split
  · assumption
  · exact Nat.mod_lt _ (Nat.two_pow_pos iw)

theorem narrowEntry_of_lt {iw x : Nat} (h : x < 2 ^ iw) (use place : Nat) (k : Fin 16) :
    narrowEntry use iw place k x = x := if_pos h

theorem entriesFit_iff {iw : Nat} {pages : List Page} :
    entriesFit iw pages = true ↔ ∀ page ∈ pages, ∀ x ∈ page.toList, x < 2 ^ iw := by
  simp only [entriesFit, List.all_eq_true, decide_eq_true_eq]

/-- The page at a place of the narrowed table. -/
theorem compress_page {use numPerms place : Nat} {pages : List Page} {page : Page} (h : pages[place]? = some page) :
    (compress use pages numPerms).pages[place]? =
      some (Vector.ofFn (fun k : Fin 16 => narrowEntry use (indexWidth pages.length numPerms) place k page[k])) := by
  simp [compress, List.getElem?_map, List.getElem?_zipIdx, h]

/-- Where every entry fits, `COMPRESS` keeps the pages. -/
theorem compress_of_fits {pages : List Page} {numPerms : Nat} (h : entriesFit (indexWidth pages.length numPerms) pages = true)
    (use : Nat) : compress use pages numPerms = { iw := indexWidth pages.length numPerms, pages := pages } := by
  rw [entriesFit_iff] at h
  refine congrArg (Table.mk _) (List.ext_getElem? fun place => ?_)
  cases hp : pages[place]? with
  | none => simp [List.getElem?_map, List.getElem?_zipIdx, hp]
  | some page =>
    rw [show (List.map _ _)[place]? = _ from compress_page (use := use) (numPerms := numPerms) hp]
    refine congrArg some (Vector.ext fun k hk => ?_)
    rw [Vector.getElem_ofFn]
    refine narrowEntry_of_lt (h page (List.mem_of_getElem? hp) _ ?_) ..
    exact Vector.mem_toList_iff.2 (Vector.getElem_mem hk)

/-! ### The whole build -/

/-- The whole build with `visitFast`. -/
def buildRomFast (isd : List Descriptor) (fallback : Handler) : Option Rom :=
  if isd.all Descriptor.wf = false then none
  else
    match bindHandlers isd fallback (sortPerms (permuteAll isd)) with
    | .error _ => none
    | .ok handlers =>
      let perms := sortPerms (permuteAll isd)
      let (top, pages) := visitFast perms 4 0 []
      if entriesFit (indexWidth pages.length perms.length) pages then
        some { perms := perms, handlers := handlers, table := compress 0 pages perms.length, top := top }
      else none

theorem buildRom_eq_buildRomFast (isd : List Descriptor) (fallback : Handler) :
    buildRom isd fallback = buildRomFast isd fallback := by
  unfold buildRom buildRomFast
  simp only [visit_eq_visitFast]
  all_goals cases isd.all Descriptor.wf <;> rfl

end Sys2Proof.Machine
end

