-- ==== Sys2Proof/Tests/Slice0.lean ====
section
/-! SUPPORT. The model's own tests: what `Instr.wf` refuses, words of every row decoded, one step of each instruction against the spec's
vectors (95_test_vectors.md and the examples of the rules), and a witness for the hypotheses of every statement. -/

namespace Sys2Proof.Machine

/-! ### Helpers -/

/-- What an instruction returns. -/
def resultOf (i : Instr) (s : State) : Option Result :=
  match exec i s with
  | .next t => some t.out
  | .fault _ => none
  | .refused _ => none

/-- The state an instruction leaves. -/
def after (i : Instr) (s : State) : Option State :=
  match exec i s with
  | .next t => some t
  | .fault _ => none
  | .refused _ => none

/-- The refusal an instruction ends in. -/
def refusalOfExec (i : Instr) (s : State) : Option Refusal :=
  match exec i s with
  | .next _ => none
  | .fault _ => none
  | .refused r => some r

/-- RAM that holds the given words. -/
def ramOf (ws : List (Nat × Word)) : Memory := ws.foldl (fun m x => m.writeWord x.1 x.2) []

/-- Reset with `ir`, `pc` and RAM as given. -/
def hostWith (ir : Word) (pc : Long) (ws : List (Nat × Word)) : State :=
  { State.reset with cpu := { Cpu.reset with ir := ir, pc := pc }, mem := ramOf ws }

/-! ### `Instr.wf` refuses ill-formed terms, one for each check -/

theorem test_wf_extract_width : (Instr.extract 33 0 0 8).wf = false := by decide
theorem test_wf_extract_width_zero : (Instr.extract 0 0 0 0).wf = false := by decide
theorem test_wf_extract_value : (Instr.extract 8 256 0 8).wf = false := by decide
theorem test_wf_extract_field : (Instr.extract 16 0xC300 9 8).wf = false := by decide
theorem test_wf_overwrite : (Instr.overwrite 8 0 16 0).wf = false ∧ (Instr.overwrite 8 256 4 0).wf = false ∧
    (Instr.overwrite 8 0 4 16).wf = false := by decide
theorem test_wf_extend : (Instr.extend 8 0 0).wf = false ∧ (Instr.extend 8 16 0).wf = false ∧
    (Instr.extend 32 8 256).wf = false := by decide
theorem test_wf_truncate : (Instr.truncate 16 8 0).wf = false ∧ (Instr.truncate 8 16 0x10000).wf = false := by decide
theorem test_wf_addo : (Instr.addo 0 0 0).wf = false ∧ (Instr.addo 8 256 0).wf = false ∧ (Instr.addo 8 0 256).wf = false := by
  decide
theorem test_wf_subo : (Instr.subo 0 0 0).wf = false ∧ (Instr.subo 8 256 0).wf = false ∧ (Instr.subo 8 0 256).wf = false := by
  decide
theorem test_wf_size_encoding : (Instr.szwidth ⟨none, none, none⟩).wf = false ∧ (Instr.szcount ⟨some 1, some 1, none⟩).wf = false ∧
    (Instr.szenc ⟨some 2, none, some 2⟩ .byte).wf = false := by decide
theorem test_wf_szdec : (Instr.szdec .twoBit 4).wf = false := by decide
theorem test_wf_amdec : (Instr.amdec { AmEnc.default with mPos := 14 } 0).wf = false ∧
    (Instr.amdec { AmEnc.default with nPos := 14 } 0).wf = false ∧ (Instr.amdec { AmEnc.default with mWidth := 4 } 0).wf = false ∧
    (Instr.amdec { AmEnc.default with rows := [⟨.addr, some 1, none⟩, ⟨.imm, none, some 0⟩] } 0).wf = false ∧
    (Instr.amdec { AmEnc.default with rows := [⟨.addr, some 1, none⟩, ⟨.addr, some 2, none⟩] } 0).wf = false := by decide
theorem test_wf_visit : (Instr.visit 0 5).wf = false ∧ (Instr.visit 16 1).wf = false := by decide
theorem test_wf_stub : (Instr.stub 0 0).wf = false ∧ (Instr.stub 0 5).wf = false := by decide
theorem test_wf_ea_step :
    (Instr.eaStep .byte .src false false .none { AmEnc.default with mPos := 14 }).wf = false ∧
    (Instr.eaStep .byte .src false false .none
      { AmEnc.default with rows := [⟨.addr, some 1, none⟩, ⟨.imm, none, some 0⟩] }).wf = false := by decide
theorem test_wf_register_field : (Instr.ldReg .byte .src .data 14).wf = false ∧ (Instr.stReg .byte .data 14).wf = false := by
  decide
theorem test_wf_write : (Instr.write .byte 0 256).wf = false := by decide

/-! ### Decoding: words written out from 30_encoding.md R94 to R97, R108, R110, R111 -/

theorem test_decode_primitives :
    decode (.select 0b00000000 [15, 0xC300, 9, 3]) = .ok (.extract 16 0xC300 9 3) ∧
    decode (.select 0b00000001 [32, 0xFF13, 8, 0x28]) = .ok (.overwrite 32 0xFF13 8 0x28) ∧
    decode (.select 0b00000010 [31, 15, 0x8000]) = .ok (.extend 32 16 0x8000) ∧
    decode (.select 0b00000011 [8, 32, 0xFF15]) = .ok (.truncate 8 32 0xFF15) ∧
    decode (.select 0b00000100 [15, 0x7FFF, 1]) = .ok (.addo 16 0x7FFF 1) ∧
    decode (.select 0b00000101 [31, 0x100001, 1]) = .ok (.subo 32 0x100001 1) := by decide
theorem test_decode_bcd_tables :
    decode (.select 0b00001000 [255]) = .ok (.tobcd 255) ∧ decode (.select 0b00001001 [0x28]) = .ok (.frombcd 0x28) ∧
    decode (.select 0b00001010 [2, 9, 0]) = .ok (.bcdadd 2 9 false) ∧
    decode (.select 0b00001011 [0x11, 9, 1]) = .ok (.bcdsub 0x11 9 true) := by decide
theorem test_decode_patterns :
    decode (.select 0b00010000 [2, 48, 120]) = .ok (.patnew ['0', 'x']) ∧
    decode (.select 0b00010001 [0xC100, 0x0E0F, 0xC300]) = .ok (.matchWord ⟨0xC100, 0x0E0F⟩ 0xC300) ∧
    decode (.select 0b00010010 [0xC100, 0x0E0F]) = .ok (.specificity ⟨0xC100, 0x0E0F⟩) := by decide
theorem test_decode_encodings :
    decode (.select 0b00010100 [2]) = .ok (.szwidth .move) ∧ decode (.select 0b00010101 [2, 3]) = .ok (.szdec .move 3) ∧
    decode (.select 0b00010110 [1, 2]) = .ok (.szenc .twoBit .long) ∧ decode (.select 0b00010111 [3]) = .ok (.szcount .movea) ∧
    decode (.select 0b00011000 [0, 0x003C]) = .ok (.amdec .default 0x003C) := by decide
theorem test_decode_builder :
    decode (.select 0b00100000 [1]) = .ok (.permute 1) ∧ decode (.select 0b00100001 []) = .ok .sort ∧
    decode (.select 0b00100010 [0xC300]) = .ok (.matchidx 0xC300) ∧ decode (.select 0b00100011 [0xC, 3]) = .ok (.visit 0xC 1) ∧
    decode (.select 0b00100100 [5, 2]) = .ok (.stub 5 3) ∧
    decode (.select 0b00100101 [7, 7, 7, 7, 7, 7, 7, 7, 7, 7, 7, 7, 7, 7, 7, 7]) = .ok (.intern (Vector.replicate 16 7)) ∧
    decode (.select 0b00100110 []) = .ok .compress ∧ decode (.select 0b00100111 []) = .ok .bind := by decide
theorem test_decode_decoder :
    decode (.select 0b00110000 [0x4AFC]) = .ok (.decode 0x4AFC) ∧ decode (.select 0b00110001 []) = .ok .step := by decide
theorem test_decode_steps :
    decode (.select 0b01000000 [0, 1, 1, 0, 0, 1, 9]) = .ok (.eaStep .byte .dst true false .load (.regReg 9)) ∧
    decode (.select 0b01000001 [0, 0, 0, 9]) = .ok (.ldReg .byte .src .data 9) ∧
    decode (.select 0b01000010 [1, 1, 9]) = .ok (.stReg .word .addr 9) ∧ decode (.select 0b01000011 []) = .ok .fetch ∧
    decode (.select 0b01000100 [1]) = .ok (.bcd .sub) ∧ decode (.select 0b01000101 [2]) = .ok (.cycles 2) := by decide
theorem test_decode_helpers :
    decode (.select 0b01001000 []) = .ok .extword ∧ decode (.select 0b01001001 [2]) = .ok (.fetchw .long) ∧
    decode (.select 0b01001010 [0x100000, 1]) = .ok (.read .word 0x100000) ∧
    decode (.select 0b01001011 [0x100011, 0, 0x51]) = .ok (.write .byte 0x100011 0x51) ∧
    decode (.select 0b01001100 [24, 16, 0x100000, 7, 0, 1, 0, 15, 0]) = .ok (.businit Config.busTest false [⟨0, 15, .ram⟩]) := by
  decide
/-- `1100 ddd 10000 m sss` (R108), R232's example words, and 0x4AFC (R303). -/
theorem test_decode_opcode_words :
    decode (.opcode 0b1100001100000000) = .ok (.abcdReg 1 0) ∧ decode (.opcode 0b1100011100000010) = .ok (.abcdReg 3 2) ∧
    decode (.opcode 0b1100001100001000) = .ok (.abcdMem 1 0) ∧ decode (.opcode 0b1100000100001000) = .ok (.abcdMem 0 0) ∧
    decode (.opcode 0b0100101011111100) = .ok .illegal ∧
    decode (.opcode 0b0100111001110001) = .error .unknownOpcodeWord := by decide
theorem test_decode_rejects :
    decode (.select 0b00000110 []) = .error .unassignedSelect ∧ decode (.select 0b00001000 [256]) = .error .badOperand ∧
    decode (.select 0b01000011 [0]) = .error .extraOperands ∧
    decode (.select 0b00000000 [15, 0xC300, 9, 8]) = .error .outsideDomain := by decide
theorem test_encode_opcode_words :
    encode (.abcdReg 1 0) = .opcode 0xC300 ∧ encode (.abcdMem 1 0) = .opcode 0xC308 ∧ encode .illegal = .opcode 0x4AFC := by
  decide

/-! ### One step of each instruction, against the spec's own values -/

theorem test_extract : resultOf (.extract 16 0xC300 9 3) State.reset = some (.bits 3 1) := by decide
theorem test_overwrite : resultOf (.overwrite 32 0xFF13 8 0x28) State.reset = some (.bits 32 0xFF28) := by decide
theorem test_extend : resultOf (.extend 32 16 0x8000) State.reset = some (.bits 32 0xFFFF8000) := by decide
theorem test_truncate : resultOf (.truncate 8 32 0xFF15) State.reset = some (.bits 8 0x15) := by decide
theorem test_addo : resultOf (.addo 16 0x7FFF 1) State.reset = some (.overflow 16 0x8000 false true) := by decide
theorem test_addo_both : resultOf (.addo 8 0x80 0x80) State.reset = some (.overflow 8 0 true true) := by decide
theorem test_subo : resultOf (.subo 8 0x80 1) State.reset = some (.overflow 8 0x7F false true) := by decide
theorem test_subo_both : resultOf (.subo 8 0x7F 0xFF) State.reset = some (.overflow 8 0x80 true true) := by decide
theorem test_tobcd : resultOf (.tobcd 0xFF) State.reset = some (.bcd 0x55 true) := by decide +kernel
theorem test_tobcd_edge : resultOf (.tobcd 99) State.reset = some (.bcd 0x99 false) := by decide +kernel
theorem test_frombcd : resultOf (.frombcd 0x28) State.reset = some (.bits 8 28) := by decide +kernel
theorem test_frombcd_last : resultOf (.frombcd 0xFF) State.reset = some (.bits 8 165) := by decide +kernel
theorem test_bcdadd : resultOf (.bcdadd 0x99 0x99 true) State.reset = some (.bcd 0x99 true) := by decide +kernel
theorem test_bcdadd_carry : resultOf (.bcdadd 0x19 0x01 false) State.reset = some (.bcd 0x20 false) := by decide +kernel
theorem test_bcdsub : resultOf (.bcdsub 0x00 0x99 true) State.reset = some (.bcd 0x00 true) := by decide +kernel
theorem test_bcdsub_plain : resultOf (.bcdsub 0x11 0x09 false) State.reset = some (.bcd 0x02 false) := by decide +kernel
theorem test_patnew :
    resultOf (.patnew ['1', '1', '0', '0', 'x', 'x', 'x', '1', '0', '0', '0', '0', 'x', 'x', 'x', 'x']) State.reset =
      some (.pattern ⟨0xC100, 0x0E0F⟩) := by decide
theorem test_patnew_refused :
    resultOf (.patnew ['X']) State.reset = some (.error (.invalidTemplate ['X'])) := by decide
theorem test_match : resultOf (.matchWord ⟨0xC100, 0x0E0F⟩ 0xC300) State.reset = some (.flag true) := by decide
theorem test_match_not : resultOf (.matchWord ⟨0xC100, 0x0E0F⟩ 0xC310) State.reset = some (.flag false) := by decide
theorem test_specificity : resultOf (.specificity ⟨0xC100, 0x0E0F⟩) State.reset = some (.number 7) := by decide
theorem test_szwidth : resultOf (.szwidth .move) State.reset = some (.number 2) := by decide
theorem test_szwidth_zero : resultOf (.szwidth ⟨none, some 0, none⟩) State.reset = some (.number 0) := by decide
theorem test_szdec : resultOf (.szdec .move 3) State.reset = some (.size (some .word)) := by decide
theorem test_szdec_absent : resultOf (.szdec .movea 1) State.reset = some (.size none) := by decide
theorem test_szenc : resultOf (.szenc .twoBit .long) State.reset = some (.code (some 2)) := by decide
theorem test_szenc_absent : resultOf (.szenc .movea .byte) State.reset = some (.code none) := by decide
theorem test_szcount : resultOf (.szcount .movea) State.reset = some (.number 2) := by decide
theorem test_amdec : resultOf (.amdec .default 0x003C) State.reset = some (.variant (some (.imm, 4))) := by decide
theorem test_amdec_absent : resultOf (.amdec .default 0x003D) State.reset = some (.variant none) := by decide
/-- R248: the three permutations of `t2`. -/
theorem test_permute :
    resultOf (.permute 1) State.reset = some (.perms
      [⟨some .byte, ⟨0x4A00, 0x003F⟩, 1⟩, ⟨some .word, ⟨0x4A40, 0x003F⟩, 1⟩, ⟨some .long, ⟨0x4A80, 0x003F⟩, 1⟩]) := by decide
/-- R248: the sorted list. -/
theorem test_sort :
    resultOf .sort { State.reset with builder := { Builder.start with unsorted := permuteAll toyIsd } } =
      some (.perms toyPerms) := by decide
theorem test_matchidx : resultOf (.matchidx 0xC300) State.reset = some (.index 4) := by decide
theorem test_matchidx_miss : resultOf (.matchidx 0x4AFC) State.reset = some (.index 5) := by decide
theorem test_visit_word :
    resultOf (.visit 0x4E71 4) { State.reset with builder := { Builder.start with perms := toyPerms } } = some (.index 0) := by
  decide
/-- R262: `STUB(5, 3)` on an empty page list. -/
theorem test_stub :
    (after (.stub 5 3) State.reset).map (fun t => (t.builder.pages, t.out)) =
      some ([Page.all 5, Page.all 0, Page.all 1], .index 2) := by decide
theorem test_intern_found :
    resultOf (.intern (Page.all 1)) { State.reset with builder := { Builder.start with pages := toyPages } } =
      some (.index 2) := by decide
theorem test_intern_new :
    resultOf (.intern (Page.all 9)) { State.reset with builder := { Builder.start with pages := toyPages } } =
      some (.index 13) := by decide
/-- R274: thirteen pages and five permutations give four bits. -/
theorem test_compress :
    resultOf .compress { State.reset with builder := { Builder.start with pages := toyPages, perms := toyPerms, top := 12 } } =
      some (.table { iw := 4, pages := toyPages } 12) := by decide
/-- R270 on R262's stub pages: three pages and one index give two bits; the entries that fit stay, whatever is stored for 5. -/
theorem test_compress_wide_entry :
    (after .compress { State.reset with builder := { Builder.start with pages := [Page.all 5, Page.all 0, Page.all 1], top := 2 } }).map
      (fun t => (t.builder.table.iw, t.builder.table.pages.drop 1, t.builder.table.pages.length)) =
      some (2, [Page.all 0, Page.all 1], 3) := by decide
/-- R286: `t2` at 8, 16 and 32 bits, and FALLBACK last. -/
theorem test_bind :
    resultOf .bind { State.reset with builder := { Builder.start with perms := toyPerms } } =
      some (.handlers Rom.reset.handlers) := by decide
/-- R227: `t2` with the width absent. -/
theorem test_bind_refused :
    resultOf .bind { State.reset with builder := { Builder.start with perms := [⟨none, ⟨0x4A00, 0x00FF⟩, 1⟩] } } =
      some (.error .parameterizedStepWithoutSize) := by decide
/-- R280's walk and R285's. -/
theorem test_decode : resultOf (.decode 0xC300) State.reset = some (.index 4) ∧
    resultOf (.decode 0x4A40) State.reset = some (.index 2) := by decide
theorem test_decode_miss : resultOf (.decode 0x4AFC) State.reset = some (.index 5) ∧
    resultOf (.decode 0x0000) State.reset = some (.index 5) := by decide
/-- `t1`: program A, third step. -/
theorem test_step :
    (after .step (hostWith 0x4E71 0x406 [(0x406, 0x4AFC)])).map (fun t => (t.cpu.ir, t.cpu.pc, t.out)) =
      some (0x4AFC, 0x408, .cycles 4) := by decide +kernel
/-- Program C, step 3: `t2.w` with `addr_idx`. -/
theorem test_step_addr_idx :
    (after .step
      { hostWith 0x4A70 0x406 [(0x406, 0x1804), (0x408, 0x4A78)] with
        cpu := ({ Cpu.reset with ir := 0x4A70, pc := 0x406 }.setA 0 0x100006).setD 1 0x10 }).map
      (fun t => (t.cpu.ir, t.cpu.pc, t.out, t.trace)) =
    some (0x4A78, 0x40A, .cycles 14, [⟨0, 0x406, 0, none⟩, ⟨1, 0x1A, 0, none⟩, ⟨0, 0x408, 0, none⟩]) := by decide +kernel
/-- `addr_inc` at 16 bits (95_test_vectors.md 2.8): the address is captured, then the register goes up by 2. -/
theorem test_ea_step_addr_inc :
    (after (.eaStep .word .src true true .none .default)
      { State.reset with cpu := { Cpu.reset with ir := 0x4A58 }.setA 0 0x100000 }).map
      (fun t => (t.exec.src.addr, t.cpu.getA 0, t.exec.clk, t.trace)) = some (some 0x100000, 0x100002, 0, []) := by decide
/-- `addr_reg` store at 16 bits: the whole register is overwritten. -/
theorem test_ea_step_store_addr_reg :
    (after (.eaStep .word .dst true false .store .default)
      { State.reset with cpu := { Cpu.reset with ir := 0x4A49 }, exec := ExecCtx.fresh.setSlot .dst ⟨none, some 0x8000⟩ }).map
      (fun t => t.cpu.getA 1) = some 0xFFFF8000 := by decide
/-- An encoding whose `n` field has four bits and whose `m` field none. -/
def wideEnc : AmEnc :=
  { mPos := 4, mWidth := 0, nPos := 0, nWidth := 4, rows := [⟨.addr, none, some 8⟩, ⟨.dataReg, none, some 15⟩,
      ⟨.imm, none, some 12⟩] }

/-- R98, R185, R200: a wide `n` field in a variant that uses no register. -/
theorem test_ea_step_wide_field :
    (after (.eaStep .word .src true true .load wideEnc) (hostWith 0x4A7C 0x402 [(0x402, 0x1234)])).map
      (fun t => (t.exec.src.data, t.cpu.pc)) = some (some 0x1234, 0x404) := by decide +kernel
/-- R13: there is no register 8 and none 15. -/
theorem test_ea_step_register_absent :
    refusalOfExec (.eaStep .word .src true false .none wideEnc) (hostWith 8 0 []) = some .registerAbsent ∧
    refusalOfExec (.eaStep .word .src false false .load wideEnc) (hostWith 15 0 []) = some .registerAbsent := by decide
theorem test_ldreg :
    (after (.ldReg .word .dst .addr 9) { State.reset with cpu := { Cpu.reset with ir := 0xC300 }.setA 1 0x18000 }).map
      (fun t => t.exec.dst.data) = some (some 0xFFFF8000) := by decide
theorem test_streg :
    (after (.stReg .byte .data 9)
      { State.reset with cpu := { Cpu.reset with ir := 0xC300 }.setD 1 0xFF13
                         exec := ExecCtx.fresh.setSlot .dst ⟨none, some 0x28⟩ }).map
      (fun t => t.cpu.getD 1) = some 0xFF28 := by decide
theorem test_fetch :
    (after .fetch (hostWith 0 0x202 [(0x202, 0x4AFC)])).map (fun t => (t.cpu.ir, t.cpu.pc, t.exec.clk)) =
      some (0x4AFC, 0x204, 4) := by decide +kernel
theorem test_bcd_add :
    (after (.bcd .add)
      { State.reset with cpu := { Cpu.reset with sr := { Cpu.reset.sr with z := true } }
                         exec := { src := ⟨none, some 0xFFFFFF09⟩, dst := ⟨none, some 2⟩, clk := 0 } }).map
      (fun t => (t.exec.dst.data, t.cpu.sr.c, t.cpu.sr.x, t.cpu.sr.z, t.exec.clk)) =
    some (some 0x11, false, false, false, 2) := by decide +kernel
theorem test_bcd_sub :
    (after (.bcd .sub)
      { State.reset with cpu := { Cpu.reset with sr := { Cpu.reset.sr with z := true, n := true, v := true } }
                         exec := { src := ⟨none, some 0x50⟩, dst := ⟨none, some 0x50⟩, clk := 0 } }).map
      (fun t => (t.exec.dst.data, t.cpu.sr)) =
    some (some 0, { Cpu.reset.sr with z := true, n := true, v := true }) := by decide +kernel
theorem test_cycles : (after (.cycles 2) State.reset).map (fun t => t.exec.clk) = some 2 := by decide
theorem test_extword :
    resultOf .extword
      { hostWith 0 0x402 [(0x402, 0x9880)] with cpu := { Cpu.reset with pc := 0x402 }.setA 1 0x100 } =
      some (.bits 32 0x80) := by decide +kernel
theorem test_extword_word_index :
    resultOf .extword
      { hostWith 0 0x402 [(0x402, 0x1004)] with cpu := { Cpu.reset with pc := 0x402 }.setD 1 0x18000 } =
      some (.bits 32 0xFFFF8004) := by decide +kernel
theorem test_fetchw_byte :
    (after (.fetchw .byte) (hostWith 0 0x402 [(0x402, 0x12AB)])).map (fun t => (t.out, t.cpu.pc, t.exec.clk)) =
      some (.bits 8 0xAB, 0x404, 4) := by decide +kernel
/-- `pc` wraps modulo 2^32 and the bus address is reduced. -/
theorem test_fetchw_wrap :
    (after (.fetchw .word) (hostWith 0 0xFFFFFFFE [])).map (fun t => (t.cpu.pc, t.trace)) =
      some (0, [⟨1, 0xEFFFFE, 0, none⟩]) := by decide +kernel
theorem test_read_byte :
    (after (.read .byte 0x100001) (hostWith 0 0 [(0x100000, 0x1275)])).map (fun t => (t.out, t.trace, t.exec.clk)) =
      some (.bits 8 0x75, [⟨1, 1, 0xFF00, none⟩], 4) := by decide +kernel
theorem test_read_long :
    (after (.read .long 0x100002) (hostWith 0 0 [(0x100002, 0x2222), (0x100004, 0x3333)])).map (fun t => (t.out, t.exec.clk)) =
      some (.bits 32 0x22223333, 8) := by decide +kernel
theorem test_write_byte :
    (after (.write .byte 0x100010 0x51) (hostWith 0 0 [(0x100010, 0x3800)])).map (fun t => (t.mem.readWord 0x100010, t.trace)) =
      some (0x5100, [⟨1, 0x10, 0x00FF, some 0x5100⟩]) := by decide +kernel
theorem test_write_odd_byte :
    (after (.write .byte 0x100011 0) (hostWith 0 0 [(0x100010, 0x3825)])).map (fun t => t.mem) =
      some [(0x100010, 0x38)] := by decide +kernel
theorem test_businit :
    resultOf (.businit Config.busTest false [⟨0, 3, .ram⟩, ⟨3, 15, .ram⟩]) State.reset =
      some (.error .conflictingDeviceMappings) := by decide
theorem test_businit_reset :
    (after (.businit Config.busTest false [⟨0, 0, .ram⟩, ⟨1, 15, .ram⟩]) State.reset).map (fun t => t.bus) = some Bus.reset := by
  decide +kernel
/-- A range whose first page is above its last has no page (R55). -/
theorem test_businit_inverted_range :
    (after (.businit Config.busTest false [⟨1, 0, .ram⟩, ⟨0, 15, .ram⟩]) State.reset).map (fun t => (t.out, t.bus.pageTable)) =
      some (.bus, List.replicate 16 1) := by decide +kernel
theorem test_businit_large_page :
    resultOf (.businit { Config.busTest with addrWidth := 4 } true []) State.reset = some (.error .badPageSize) := by decide +kernel
/-- Scenario 1 (R233). -/
theorem test_abcd_register :
    (after (.abcdReg 1 0)
      { State.reset with cpu := ({ Cpu.reset with sr := { Cpu.reset.sr with z := true } }.setD 0 9).setD 1 2 }).map
      (fun t => (t.cpu.getD 0, t.cpu.getD 1, t.cpu.sr.c, t.cpu.sr.x, t.cpu.sr.z, t.out)) =
    some (9, 0x11, false, false, false, .cycles 6) := by decide +kernel
/-- Scenario 4 (R234; 90_conflicts.md C4 for the word). -/
theorem test_abcd_memory :
    (after (.abcdMem 1 0)
      { hostWith 0 0 [(0x100000, 0x9999)] with cpu := (Cpu.reset.setA 0 0x100001).setA 1 0x100002 }).map
      (fun t => (t.cpu.getA 0, t.cpu.getA 1, t.cpu.sr.c, t.cpu.sr.x, t.mem.readWord 0x100000, t.out)) =
    some (0x100000, 0x100001, true, true, 0x9998, .cycles 18) := by decide +kernel
/-- 70_reset_and_hazards.md R345, program E: one register for both operands. -/
theorem test_abcd_memory_one_register :
    (after (.abcdMem 0 0)
      { hostWith 0 0x402 [(0x100000, 0x1234)] with cpu := { Cpu.reset with pc := 0x402 }.setA 0 0x100002 }).map
      (fun t => (t.cpu.getA 0, t.mem.readWord 0x100000, t.trace)) =
    some (0x100000, 0x4634,
      [⟨1, 1, 0xFF00, none⟩, ⟨1, 0, 0x00FF, none⟩, ⟨1, 0, 0x00FF, some 0x4600⟩, ⟨0, 0x402, 0, none⟩]) := by decide +kernel
/-- Program B with `nop`: nothing changes but the cycles returned. -/
theorem test_illegal :
    after .illegal (hostWith 0x4AFC 0x404 []) =
      some { hostWith 0x4AFC 0x404 [] with exec := ExecCtx.fresh, out := .cycles 0 } := by decide +kernel

/-! ### The toy set -/

/-- R248, R274: the build of the toy set is the thirteen pages of the spec. -/
theorem test_toy_build : buildRom toyIsd fallbackNop = some Rom.reset := by
  rw [buildRom_eq_buildRomFast]
  decide +kernel

/-- R226, R232: the sidecar of `abcd`, and of a pipeline that replaces a slot's descriptor. -/
theorem test_info :
    abcdCode.info = { src := .addrMode abcdRS, dst := .addrMode abcdRD } ∧
    (((Pipeline.empty.ldReg .src .data 0).ldReg .src .addr 9).stReg .data 9).info = { src := .addrReg 9, dst := .dataReg 9 } := by
  decide

/-- 95_test_vectors.md: `sr` packed with `s` alone is bit 13. -/
theorem test_sr_pack : Cpu.reset.sr.pack = 0x2000 ∧ Sr.unpack 0x2000 = Cpu.reset.sr := by decide



/-- Every bus address of the test bus is RAM. -/
theorem reset_owner {a : Nat} (h : a < 2 ^ 24) : ∃ i l, Bus.reset.owner a = some (i, .ram, l) := by
  have hp : a / 0x100000 < 16 := by omega
  have key : ∀ p < 16, ∃ i ∈ [0, 1], Bus.reset.pageTable[p]? = some i := by decide
  obtain ⟨i, hi, hk⟩ := key _ hp
  rw [Bus.owner, Bus.deviceAt, show Bus.reset.params.pageSize = 0x100000 from rfl, hk]
  rcases List.mem_pair.1 hi with rfl | rfl <;> exact ⟨_, _, rfl⟩

/-- On the test bus every byte access and every even access finds RAM. -/
theorem ramAccess_of_reset {s : State} (hb : s.bus = Bus.reset) {w : Size} {addr : Long}
    (h : w = .byte ∨ isOdd addr = false) : s.ramAccess w addr := by
  have hw : 1 ≤ s.bus.params.addrWidth := by rw [hb]; decide
  have word : ∀ a : Long, isOdd a = false → s.ramWordAt a := by
    intro a ha
    have hlt : s.bus.address a < 2 ^ 24 := by rw [hb]; exact Nat.mod_lt _ (by decide)
    have hev : s.bus.address a % 2 = 0 := by rw [Bus.address_mod_two _ hw]; exact (isOdd_eq_false_iff a).1 ha
    obtain ⟨i, l, ho⟩ := reset_owner hlt
    obtain ⟨j, l', ho'⟩ := reset_owner (a := s.bus.address a + 1) (by omega)
    have e : Bus.reset.deviceAt (s.bus.address a + 1) = Bus.reset.deviceAt (s.bus.address a) := by
      have : (s.bus.address a + 1) / 0x100000 = s.bus.address a / 0x100000 := by omega
      exact congrArg (Bus.reset.pageTable[·]?) this
    rw [Bus.deviceAt_of_owner ho, Bus.deviceAt_of_owner ho'] at e
    cases e
    exact ⟨i, l, l', by rw [← ho, hb], by rw [Bus.address_add_one _ hw ha, ← ho', hb]⟩
  refine ⟨by rw [hb]; rfl, by rw [hb]; decide, h, ?_⟩
  cases w with
  | byte =>
    rw [State.ramAt, hb]
    exact reset_owner (Nat.mod_lt _ (by decide))
  | word => exact word _ (by simpa using h)
  | long =>
    have h : isOdd addr = false := by simpa using h
    exact ⟨word _ h, word _ ((isOdd_add_two addr).trans h)⟩

/-- The test bus is valid. -/
theorem testBus_valid : Bus.reset.valid := by
  unfold Bus.valid
  refine ⟨by decide, by decide, by decide, by decide, by decide, ?_⟩
  have key : ∀ page < 16, ∃ i ∈ [0, 1], Bus.reset.pageTable[page]? = some i ∧
      ∃ d ∈ Bus.reset.devices, Bus.reset.devices[i]? = some d ∧ d.covers page = true := by decide
  intro page hp
  obtain ⟨i, -, hi, d, -, hd, hc⟩ := key page hp
  exact ⟨i, hi, .inl ⟨d, hd, hc⟩⟩

/-- A bus with RAM on page 0, a device of the host on page 1 and the open bus elsewhere. -/
def openBusOf : Bus :=
  { params := Config.busTest, devices := [⟨0, 0, .ram⟩, ⟨1, 1, .external 7⟩], openBus := true
    pageTable := [0, 1, 2, 2, 2, 2, 2, 2, 2, 2, 2, 2, 2, 2, 2, 2] }

theorem openBusOf_built : initBus Config.busTest true [⟨0, 0, .ram⟩, ⟨1, 1, .external 7⟩] = .ok openBusOf := by decide +kernel

theorem openBusOf_valid : openBusOf.valid := by
  unfold Bus.valid
  refine ⟨by decide, by decide, by decide, by decide, by decide, ?_⟩
  have key : ∀ page < 16, (∃ i ∈ [0, 1], openBusOf.pageTable[page]? = some i ∧
      ∃ d ∈ openBusOf.devices, openBusOf.devices[i]? = some d ∧ d.covers page = true) ∨
      (openBusOf.pageTable[page]? = some 2 ∧ ∀ d ∈ openBusOf.devices, d.covers page = false) := by decide
  intro page hp
  rcases key page hp with ⟨i, -, hi, d, -, hd, hc⟩ | ⟨h2, h3⟩
  · exact ⟨i, hi, .inl ⟨d, hd, hc⟩⟩
  · exact ⟨2, h2, .inr ⟨rfl, rfl, h3⟩⟩

/-- Page 1 is a device of the host, page 2 the open bus: neither is RAM. -/
theorem openBusOf_not_ram {s : State} (hb : s.bus = openBusOf) {a : Nat} (h : a / 0x100000 = 1 ∨ a / 0x100000 = 2) : ¬ s.ramAt a := by
  rintro ⟨i, l, ho⟩
  rw [hb, Bus.owner, Bus.deviceAt, show openBusOf.params.pageSize = 0x100000 from rfl] at ho
  rcases h with h | h <;> rw [h] at ho <;> cases ho

/-- A state whose stream starts at `pc` on the bus with an open bus and a device of the host. -/
def hostOnOpenBus (ir : Word) (pc : Long) : State := { hostWith ir pc [] with bus := openBusOf }

/-- A write to a device of the host: RAM as it was, the byte in its lane (R58, R61, R69). -/
theorem test_write_device :
    (after (.write .byte 0x100010 0x51) (hostOnOpenBus 0 0)).map (fun t => (t.mem, t.trace, t.exec.clk)) =
      some ([], [⟨1, 0x10, 0x00FF, some 0x5100⟩], 4) := by decide +kernel

/-- A bus of sixteen pages of one byte: two RAM devices of one page, then one of fourteen. -/
def byteBus : Bus :=
  { params := { addrWidth := 4, dataWidth := 16, pageSize := 1, maxDevices := 3 }
    devices := [⟨0, 0, .ram⟩, ⟨1, 1, .ram⟩, ⟨2, 15, .ram⟩], openBus := false
    pageTable := [0, 1, 2, 2, 2, 2, 2, 2, 2, 2, 2, 2, 2, 2, 2, 2] }

/-- R41: a word written to the device on page 0 leaves the byte of the device on page 1 alone; both bytes land where one device has both. -/
theorem test_write_byte_pages :
    initBus byteBus.params false byteBus.devices = .ok byteBus ∧
    (after (.write .word 0 0x1234) { State.reset with bus := byteBus, mem := [(1, 0x77)] }).map (fun t => t.mem) =
      some [(0, 0x12), (1, 0x77)] ∧
    (after (.write .word 2 0x1234) { State.reset with bus := byteBus }).map (fun t => t.mem) = some [(2, 0x12), (3, 0x34)] := by
  decide +kernel

/-- R61 on an 8-bit data bus: the masked bits of a RAM byte stay on a write and are 0 on a read. -/
theorem test_handle_8_bit :
    ((runHostAccess (.busWrite 0x12 0xF0 0x35)
        { State.reset with bus := { Bus.reset with params := { Config.busTest with dataWidth := 8 } }, mem := [(0x12, 0xA0)] }).toOption.map
      (fun r => (r.2.mem, r.2.trace, r.2.exec.clk))) = some ([(0x12, 0xA5)], [⟨0, 0x12, 0xF0, some 0x35⟩], 0) ∧
    ((runHostAccess (.busRead 0x12 0xF0)
        { State.reset with bus := { Bus.reset with params := { Config.busTest with dataWidth := 8 } }, mem := [(0x12, 0xA5)] }).toOption.map
      (fun r => r.1)) = some 5 := by decide +kernel

/-- The stream of the open bus gives 0, that of a device of the host some value; at an odd address it is refused. -/
theorem hostOnOpenBus_stream (w : Size) : ∀ ir ∈ [(0 : Word), 0x4A6F, 0x4A79, 0x4A7C],
    (∃ u, (hostOnOpenBus ir 0x200000).fetched w 0 u) ∧ (∃ x u, (hostOnOpenBus ir 0x100000).fetched w x u) ∧
    exec (.fetchw w) (hostOnOpenBus ir 1) = .refused .oddAddress := by
  simp only [fetched_iff, List.mem_cons, List.not_mem_nil, or_false, forall_eq_or_imp, forall_eq]
  cases w <;> exact ⟨⟨⟨_, rfl⟩, ⟨_, _, rfl⟩, rfl⟩, ⟨⟨_, rfl⟩, ⟨_, _, rfl⟩, rfl⟩, ⟨⟨_, rfl⟩, ⟨_, _, rfl⟩, rfl⟩, ⟨_, rfl⟩, ⟨_, _, rfl⟩, rfl⟩

/-! ### Witnesses: for each statement with hypotheses, values that meet them together, clause by clause -/

theorem exec_next {i : Instr} {s : State} (h : (after i s).isSome = true) : ∃ t, exec i s = .next t := by
  rw [after] at h
  split at h
  · exact ⟨_, ‹_›⟩
  · cases h
  · cases h

/-- The constants of a host of `hostWith` are the build of its ISD and FALLBACK. -/
theorem hostWith_build (ir : Word) (pc : Long) (ws : List (Nat × Word)) :
    buildRom (hostWith ir pc ws).isd (hostWith ir pc ws).fallback = some (hostWith ir pc ws).rom := test_toy_build

theorem hostWith_stream (ir : Word) {pc : Long} (h : isOdd pc = false) (ws : List (Nat × Word)) (w : Size) :
    (hostWith ir pc ws).streamReady w := ramAccess_of_reset rfl (.inr h)

/-- Reset with another handler in the place of FALLBACK. -/
def resetWithLast (h : Handler) : State := { State.reset with rom := { Rom.reset with handlers := Rom.reset.handlers.set 5 h } }

/-- R200's domain: the default encoding numbers registers below 8. -/
theorem default_amNumber (ir : Word) : amNumber .default ir < 8 := Nat.mod_lt _ (by decide)

theorem witness_DecodeOfEncodeIsTheInstruction :
    (Instr.extract 32 (2 ^ 32 - 1) 0 32).wf = true ∧ (Instr.amdec (.regReg 13) 0xFFFF).wf = true ∧
    (Instr.visit 0xFFFF 4).wf = true ∧ (Instr.stub 0 4).wf = true ∧ (Instr.ldReg .byte .dst .addr 13).wf = true ∧
    (Instr.eaStep .long .dst true true .store .default).wf = true ∧ (Instr.write .byte 0xFFFFFFFF 0xFF).wf = true ∧
    (Instr.businit Config.busTest true [⟨0, 3, .external 9⟩]).wf = true ∧ (Instr.patnew []).wf = true := by decide
theorem witness_DecoderAcceptsOnlyTheInstructionSet :
    (∀ opsel ∈ [(0x06 : Byte), 0x4D, 0xFF], opsel.toNat ∉ [0x00, 0x01, 0x02, 0x03, 0x04, 0x05, 0x08, 0x09, 0x0A, 0x0B, 0x10, 0x11, 0x12, 0x14,
      0x15, 0x16, 0x17, 0x18, 0x20, 0x21, 0x22, 0x23, 0x24, 0x25, 0x26, 0x27, 0x30, 0x31, 0x40, 0x41, 0x42, 0x43, 0x44, 0x45, 0x48,
      0x49, 0x4A, 0x4B, 0x4C]) ∧
    { State.reset with port := [⟨0xFF, [1]⟩, ⟨0, []⟩] }.port = ⟨0xFF, [1]⟩ :: [⟨0, []⟩] ∧
    (0xC308 : Word).extractLsb' 12 4 = 0b1100 ∧ (0xC308 : Word).extractLsb' 4 5 = 0b10000 ∧
    decode (.select 0x43 []) = .ok .fetch := by decide
theorem witness_UnmeantOperandsAreRefused :
    (Instr.extract 33 0 0 8).wf = false ∧ AmEnc.default.wf = true ∧
    AmEnc.default.decode (hostWith 0x4A7D 0 []).cpu.ir = none ∧
    wideEnc.wf = true ∧ wideEnc.decode 8 = some .addr ∧ 8 ≤ amNumber wideEnc 8 ∧
    wideEnc.decode 15 = some .dataReg ∧ 8 ≤ amNumber wideEnc 15 ∧ EaOp.load ≠ .none := by decide
theorem witness_StepRunsTheDecodedInstruction :
    { State.reset with port := [⟨0x45, [7]⟩] }.port = ⟨0x45, [7]⟩ :: [] ∧ decode (.select 0x45 [7]) = .ok (.cycles 7) ∧
    State.reset.port = [] := by decide
/-- A register form, a memory form and the illegal word in `ir`. -/
theorem witness_StepOnATableWordRunsItsInstruction :
    (∀ ir, (hostWith ir 0 []).port = []) ∧ (∀ ir, buildRom (hostWith ir 0 []).isd (hostWith ir 0 []).fallback =
      some (hostWith ir 0 []).rom) ∧
    decode (.opcode 0xC300) = .ok (.abcdReg 1 0) ∧ decode (.opcode 0xC308) = .ok (.abcdMem 1 0) ∧
    Rom.reset.perms[4]? = some ⟨some .byte, ⟨0xC100, 0x0E0F⟩, 0⟩ ∧ toyIsd[0]? = some abcdDescriptor ∧
    abcdDescriptor.code.steps = abcdCode.steps ∧
    (⟨0xC100, 0x0E0F⟩ : Pattern).matchesWord 0xC300 = true ∧ (⟨0xC100, 0x0E0F⟩ : Pattern).matchesWord 0xC308 = true ∧
    (∀ p ∈ Rom.reset.perms.take 4, p.pattern.matchesWord 0xC300 = false ∧ p.pattern.matchesWord 0xC308 = false) ∧
    decode (.opcode 0x4AFC) = .ok .illegal ∧ (∀ p ∈ Rom.reset.perms, p.pattern.matchesWord 0x4AFC = false) :=
  ⟨fun _ => rfl, fun ir => hostWith_build ir 0 [], by decide, by decide, by decide, by decide, by decide, by decide, by decide,
    by decide, by decide, by decide⟩
/-- The miss on 0x4AFC; `t2.l` as first match at place 3; `t1`, a pipeline of the prefetch alone, at place 0. -/
theorem witness_StepRunsTheHandlerOfTheFirstMatch :
    (∀ ir, buildRom (hostWith ir 0 []).isd (hostWith ir 0 []).fallback = some (hostWith ir 0 []).rom) ∧
    (∀ p ∈ Rom.reset.perms, p.pattern.matchesWord 0x4AFC = false) ∧
    Rom.reset.perms[3]? = some ⟨some .long, ⟨0x4A80, 0x003F⟩, 1⟩ ∧ toyIsd[1]? = some t2Descriptor ∧
    (⟨0x4A80, 0x003F⟩ : Pattern).matchesWord 0x4ABF = true ∧
    (∀ p ∈ Rom.reset.perms.take 3, p.pattern.matchesWord 0x4ABF = false) ∧
    Rom.reset.perms[0]? = some ⟨none, ⟨0x4E71, 0⟩, 2⟩ ∧ toyIsd[2]? = some t1Descriptor ∧
    (⟨0x4E71, 0⟩ : Pattern).matchesWord 0x4E71 = true ∧ t1Descriptor.code.steps = [.fetch] ∧
    (hostWith 0x4E71 0xFFFFFFFE []).streamReady .word :=
  ⟨fun ir => hostWith_build ir 0 [], by decide, by decide, by decide, by decide, by decide, by decide, by decide, by decide,
    by decide, hostWith_stream _ (by decide) _ _⟩
theorem witness_HandlerRunsItsStepsInListOrder :
    stepInstr none .fetch = some .fetch ∧ stepInstr (some .word) (.stReg .addr 9) = some (.stReg .word .addr 9) ∧
    stepInstr (some .byte) (.ea .dst false false .store abcdRD) = some (.eaStep .byte .dst false false .store abcdRD) := by decide
/-- `nop`, `skip` and a FALLBACK of the host at place `P`, and the step on a word nothing matches. -/
theorem witness_MissRunsTheFallback :
    State.reset.rom.handlers[State.reset.rom.perms.length]? = some fallbackNop ∧
    (resetWithLast fallbackSkip).rom.handlers[(resetWithLast fallbackSkip).rom.perms.length]? = some fallbackSkip ∧
    (resetWithLast fallbackSkip).streamReady .word ∧
    (resetWithLast .host).rom.handlers[(resetWithLast .host).rom.perms.length]? = some .host ∧
    buildRom (hostWith 0 0 []).isd (hostWith 0 0 []).fallback = some (hostWith 0 0 []).rom ∧
    (hostWith 0 0 []).fallback = fallbackNop ∧ (∀ p ∈ Rom.reset.perms, p.pattern.matchesWord 0 = false) :=
  ⟨by decide, by decide, ramAccess_of_reset rfl (.inr (by decide)), by decide, hostWith_build 0 0 [], rfl, by decide⟩

/-- The least and the greatest widths of each clause. -/
theorem witness_BitFieldPrimitivesOnTheirDomains :
    (1 ≤ 32 ∧ 32 ≤ 32 ∧ 0xFFFFFFFF < 2 ^ 32 ∧ 31 + 1 ≤ 32) ∧ (1 ≤ 1 ∧ 1 ≤ 32 ∧ 0 < 2 ^ 1 ∧ 1 + 0 ≤ 1) ∧
    (8 ≤ 8 ∧ 0xFF < 2 ^ 8) ∧ (0 ≤ 0 ∧ 0 < 2 ^ 0) ∧ (16 ≤ 32 ∧ 0xFFFFFFFF < 2 ^ 32 ∧ 0xFFFF < 2 ^ 16) ∧
    (1 ≤ 8 ∧ 8 ≤ 8 ∧ 0x80 < 2 ^ 8) ∧ (1 ≤ 1 ∧ 1 ≤ 32 ∧ 1 < 2 ^ 1) := by decide
theorem witness_BitFieldPrimitivesAgree : 8 ≤ 32 ∧ 32 ≤ 32 ∧ 0 ≤ 0 := by decide
/-- Overflow up, overflow down, none; and one-bit operands. -/
theorem witness_AddoGivesSumAndOverflows :
    (1 ≤ 16 ∧ 0x7FFF < 2 ^ 16 ∧ 1 < 2 ^ 16) ∧ (1 ≤ 8 ∧ 0x80 < 2 ^ 8 ∧ 0xFF < 2 ^ 8) ∧ (1 ≤ 1 ∧ 1 < 2 ^ 1 ∧ 1 < 2 ^ 1) := by decide
theorem witness_SuboGivesDifferenceAndOverflows :
    (1 ≤ 8 ∧ 0x80 < 2 ^ 8 ∧ 1 < 2 ^ 8) ∧ (1 ≤ 32 ∧ 0 < 2 ^ 32 ∧ 0xFFFFFFFF < 2 ^ 32) ∧ (1 ≤ 1 ∧ 0 < 2 ^ 1 ∧ 1 < 2 ^ 1) := by decide
theorem witness_BcdTablesInvertEachOther : (0x99 : Byte).toNat / 16 ≤ 9 ∧ (0x99 : Byte).toNat % 16 ≤ 9 := by decide
theorem witness_BcdaddIsDecimalAddition : validBcd 0x99 = true ∧ validBcd 0 = true := by decide
theorem witness_BcdsubIsDecimalSubtraction : validBcd 0 = true ∧ validBcd 0x99 = true := by decide
/-- A template; one character short; a capital letter. -/
theorem witness_PatnewReadsTheTemplate :
    (('1' :: '0' :: List.replicate 14 'x').length = 16 ∧
      ∀ c ∈ '1' :: '0' :: List.replicate 14 'x', c = '0' ∨ c = '1' ∨ c = 'x') ∧
    (List.replicate 15 'x').length ≠ 16 ∧
    (('X' :: List.replicate 15 'x').length = 16 ∧ ∃ c ∈ 'X' :: List.replicate 15 'x', c ≠ '0' ∧ c ≠ '1' ∧ c ≠ 'x') := by
  simp
theorem witness_MatchComparesTheFixedBits :
    (⟨0xFFFF, 0x0001⟩ : Pattern).set &&& (⟨0xFFFF, 0x0001⟩ : Pattern).any ≠ 0 ∧
    (⟨0xC100, 0x0E0F⟩ : Pattern).set &&& (⟨0xC100, 0x0E0F⟩ : Pattern).any = 0 := by decide
/-- No fixed bit, every bit fixed. -/
theorem witness_PatternsMatchAndOverlapByTheirFixedBits :
    (⟨0, 0xFFFF⟩ : Pattern).set &&& (⟨0, 0xFFFF⟩ : Pattern).any = 0 ∧
    (⟨0x4AFC, 0⟩ : Pattern).set &&& (⟨0x4AFC, 0⟩ : Pattern).any = 0 := by decide
theorem witness_SizeFieldWidthAndCount :
    SizeEnc.movea.wf = true ∧ (⟨none, some 0, none⟩ : SizeEnc).wf = true ∧ (⟨some 9, some 0, some 300⟩ : SizeEnc).wf = true := by
  decide
theorem witness_SzdecAndSzencAreInverse :
    SizeEnc.movea.wf = true ∧ 0 < 2 ^ SizeEnc.movea.width ∧ 3 < 2 ^ SizeEnc.movea.width ∧ SizeEnc.movea.word = some 3 ∧
    SizeEnc.movea.byte = none := by decide
theorem witness_AmdecFindsTheOneVariant : AmEnc.default.wf = true ∧ (AmEnc.regReg 9).wf = true := by decide
/-- No size, a static size, a dynamic size; a place past the end; a size field that just fits the word and one that does not. -/
theorem witness_PermuteGivesOneEntryPerSize :
    (toyIsd[2]? = some t1Descriptor ∧ t1Descriptor.size.wf = true ∧ t1Descriptor.size = .absent) ∧
    (toyIsd[0]? = some abcdDescriptor ∧ abcdDescriptor.size.wf = true ∧ abcdDescriptor.size = .static .byte) ∧
    (toyIsd[1]? = some t2Descriptor ∧ t2Descriptor.size.wf = true ∧ t2Descriptor.size = .dynamic 6 .twoBit) ∧
    (∀ d, State.reset.isd[3]? = some d → d.size.wf = false) ∧ (SizeSpec.dynamic 15 .move).wf = false ∧
    (SizeSpec.dynamic 14 .move).wf = true := by decide
theorem witness_PermutationsOfOneInstructionNeverOverlap :
    ∃ t ps, exec (.permute 1) State.reset = .next t ∧ t.out = .perms ps ∧
      ∃ p ∈ ps, ∃ q ∈ ps, p ≠ q := by
  obtain ⟨t, ht⟩ := exec_next (i := .permute 1) (s := State.reset) (by decide)
  refine ⟨t, [⟨some .byte, ⟨0x4A00, 0x003F⟩, 1⟩, ⟨some .word, ⟨0x4A40, 0x003F⟩, 1⟩, ⟨some .long, ⟨0x4A80, 0x003F⟩, 1⟩], ht, ?_,
    by decide⟩
  have := test_permute
  rw [resultOf, ht] at this
  exact Option.some.inj this
theorem witness_InternReusesAnEqualPage :
    Page.all 1 ∈ toyPages ∧ Page.all 9 ∉ toyPages ∧ toyPages.Nodup := by decide
theorem witness_StubPadsTheRemainingLevels : (2 ≤ 2 ∧ 2 ≤ 4) ∧ (2 ≤ 4 ∧ 4 ≤ 4) ∧ (1 ≤ 1 ∧ 1 ≤ 4) := by decide
/-- The root, a middle level and a whole word; a word that extends the prefix. -/
theorem witness_VisitBuildsTheSubtree :
    (0 ≤ 4 ∧ 0 < 16 ^ 0) ∧ (1 ≤ 4 ∧ 0xC < 16 ^ 1) ∧ (4 ≤ 4 ∧ 0xFFFF < 16 ^ 4) ∧
    (0xC300 : Word).toNat / 16 ^ (4 - 1) = 0xC ∧ (0xFFFF : Word).toNat / 16 ^ (4 - 4) = 0xFFFF ∧
    (0xC300 : Word).toNat / 16 ^ (4 - 0) = 0 ∧ toyPages.Nodup := by decide
/-- The toy pages fit their width; an entry of 2 to the width does not. -/
theorem witness_CompressNarrowsTheIndex :
    (∀ page ∈ toyPages, ∀ x ∈ page.toList, x < 2 ^ 4) ∧ (∃ page ∈ [Page.all 1], ∃ x ∈ page.toList, 2 ^ 0 ≤ x) := by decide
/-- The sorted toy permutations; and `t2` at no width. -/
theorem witness_BindFinalisesEachPermutation :
    (∀ p ∈ toyPerms, (toyIsd[p.instr]?.map Descriptor.wf) = some true) ∧
    (∀ p ∈ toyPerms, p.size = none → ∀ st ∈ ((toyIsd[p.instr]?.map (fun d => d.code.steps)).getD []), (stepInstr none st).isSome = true) ∧
    (toyIsd[1]?.map Descriptor.wf = some true ∧
      ∃ st ∈ t2Descriptor.code.steps, (stepInstr none st).isSome = false) := by decide
theorem witness_EveryWellFormedIsdHasOrderlyConstants :
    (∀ d ∈ toyIsd, d.wf = true ∧ (d.size = .absent → ∀ st ∈ d.code.steps, (stepInstr none st).isSome = true)) ∧
    buildRom toyIsd fallbackNop = some Rom.reset := ⟨by decide, test_toy_build⟩
theorem witness_DecodeIsMatchidx : buildRom State.reset.isd State.reset.fallback = some State.reset.rom := test_toy_build
/-- A word that matches and one that does not. -/
theorem witness_DecodeGivesTheMostSpecificMatch :
    buildRom State.reset.isd State.reset.fallback = some State.reset.rom ∧
    exec (.decode 0xC300) State.reset = .next { State.reset with out := .index 4 } ∧
    exec (.decode 0x4AFC) State.reset = .next { State.reset with out := .index 5 } ∧
    State.reset.rom.perms[4]? = some ⟨some .byte, ⟨0xC100, 0x0E0F⟩, 0⟩ := ⟨test_toy_build, rfl, rfl, by decide⟩

/-- A word for each variant of the default encoding, and a host on which the stream can be fetched at each width. -/
theorem witness_EaStepComputesTheAddress :
    AmEnc.default.wf = true ∧ (∀ ir, amNumber .default ir < 8) ∧
    [0x4A47, 0x4A4F, 0x4A57, 0x4A5F, 0x4A67, 0x4A6F, 0x4A77, 0x4A7A, 0x4A7B, 0x4A78, 0x4A79, 0x4A7C].map
      (fun ir => AmEnc.default.decode ir) = allVariants.map some ∧
    (∀ ir, (hostWith ir 0xFFFFFFFE []).cpu.ir = ir ∧ (hostWith ir 0xFFFFFFFE []).streamReady .word ∧
      (hostWith ir 0xFFFFFFFE []).streamReady .long) ∧
    (∀ w, ∀ ir ∈ [(0 : Word), 0x4A6F, 0x4A79, 0x4A7C],
      (∃ u, (hostOnOpenBus ir 0x200000).fetched w 0 u) ∧ (∃ x u, (hostOnOpenBus ir 0x100000).fetched w x u) ∧
      exec (.fetchw w) (hostOnOpenBus ir 1) = .refused .oddAddress) :=
  ⟨by decide, default_amNumber, by decide,
    fun ir => ⟨rfl, hostWith_stream ir (by decide) _ _, hostWith_stream ir (by decide) _ _⟩, hostOnOpenBus_stream⟩
theorem witness_EaStepWithoutRequestsDoesNothing :
    AmEnc.default.wf = true ∧ AmEnc.default.decode (hostWith 0x4A67 0 []).cpu.ir = some .addrDec ∧
    AmEnc.default.decode (hostWith 0x4A57 0 []).cpu.ir = some .addr := by decide
theorem witness_EaStepIsAddressThenTransfer :
    ∃ u, exec (.eaStep .word .src true true .none .default) (hostWith 0x4A67 0 []) = .next u := exec_next (by decide)

/-- The slots of a host of `hostWith` filled. -/
def filled (ir : Word) (addr data : Long) : State :=
  { hostWith ir 0 [] with exec := { src := ⟨some addr, some data⟩, dst := ⟨some addr, some data⟩, clk := 0 } }

/-- Each variant; a memory variant at each width with a written slot, and with an unwritten one; a `READ` that answers and one that is
refused. -/
theorem witness_EaStepLoads :
    AmEnc.default.wf = true ∧ (∀ ir, amNumber .default ir < 8) ∧
    AmEnc.default.decode 0x4A47 = some .dataReg ∧ AmEnc.default.decode 0x4A4F = some .addrReg ∧
    AmEnc.default.decode 0x4A7C = some .imm ∧ (∀ w, (hostWith 0x4A7C 2 []).streamReady w) ∧
    (∀ w, ∃ u, (hostOnOpenBus 0x4A7C 0x200000).fetched w 0 u) ∧
    exec (.fetchw .word) (hostOnOpenBus 0x4A7C 1) = .refused .oddAddress ∧
    AmEnc.default.decode 0x4A57 = some .addr ∧ Variant.addr ∉ [Variant.dataReg, .addrReg, .imm] ∧
    (∀ w, (filled 0x4A57 0x100000 0).ramAccess w ((filled 0x4A57 0x100000 0).slotWord ((filled 0x4A57 0x100000 0).exec.slot .src).addr)) ∧
    (hostWith 0x4A57 0 []).ramAccess .byte ((hostWith 0x4A57 0 []).slotWord ((hostWith 0x4A57 0 []).exec.slot .src).addr) ∧
    (∃ u, exec (.read .byte 0x100001) (filled 0x4A57 0x100001 0) = .next u ∧ u.out = .bits 8 0) ∧
    ((filled 0x4A57 0x100001 0).exec.slot .src).addr = some 0x100001 ∧
    exec (.read .word 0x100001) (filled 0x4A57 0x100001 0) = .refused .oddAddress :=
  ⟨by decide, default_amNumber, by decide, by decide, by decide, fun w => hostWith_stream _ (by decide) _ w,
    fun w => (hostOnOpenBus_stream w _ (by decide)).1, rfl, by decide, by decide,
    fun _ => ramAccess_of_reset rfl (.inr (by decide)), ramAccess_of_reset rfl (.inl rfl), ⟨_, rfl, rfl⟩, rfl, rfl⟩
theorem witness_EaStepStores :
    AmEnc.default.wf = true ∧ (∀ ir, amNumber .default ir < 8) ∧
    AmEnc.default.decode 0x4A47 = some .dataReg ∧ AmEnc.default.decode 0x4A4F = some .addrReg ∧
    AmEnc.default.decode 0x4A7C = some .imm ∧ AmEnc.default.decode 0x4A57 = some .addr ∧
    Variant.addr ∉ [Variant.dataReg, .addrReg, .imm] ∧ Memory.wf (filled 0x4A57 0x100000 0x51).mem ∧
    (∀ w, (filled 0x4A57 0x100000 0x51).ramAccess w
      ((filled 0x4A57 0x100000 0x51).slotWord ((filled 0x4A57 0x100000 0x51).exec.slot .dst).addr)) ∧
    Memory.wf (hostWith 0x4A57 0 []).mem ∧
    (hostWith 0x4A57 0 []).ramAccess .byte
      (({ hostWith 0x4A57 0 [] with free := (hostWith 0x4A57 0 []).free + freeUsed none } : State).slotWord
        ((hostWith 0x4A57 0 []).exec.slot .dst).addr) ∧
    ((filled 0x4A57 0x100000 0x51).exec.slot .dst).addr = some 0x100000 ∧
    ((filled 0x4A57 0x100000 0x51).exec.slot .dst).data = some 0x51 :=
  ⟨by decide, default_amNumber, by decide, by decide, by decide, by decide, by decide, by decide,
    fun _ => ramAccess_of_reset rfl (.inr (by decide)),
    by decide, ramAccess_of_reset rfl (.inl rfl), rfl, rfl⟩
theorem witness_LdregAndStregMoveARegister : 0 ≤ 13 ∧ 13 ≤ 13 := by decide
/-- The first and the last word of the stream. -/
theorem witness_FetchLoadsTheInstructionRegister :
    (hostWith 0 0 []).streamReady .word ∧ (hostWith 0 0xFFFFFFFE []).streamReady .word ∧
    (∃ x u, (hostOnOpenBus 0 0x100000).fetched .word x u) ∧ exec (.fetchw .word) (hostOnOpenBus 0 1) = .refused .oddAddress :=
  ⟨hostWith_stream _ (by decide) _ _, hostWith_stream _ (by decide) _ _, (hostOnOpenBus_stream .word 0 (by decide)).2⟩
theorem witness_ExtwordReadsTheExtensionWord :
    (hostWith 0 0xFFFFFFFE []).streamReady .word ∧ (0x1704 : Word) &&& 0xF8FF = 0x1004 &&& 0xF8FF ∧
    (∃ x u, (hostOnOpenBus 0 0x100000).fetched .word x u) ∧ exec (.fetchw .word) (hostOnOpenBus 0 1) = .refused .oddAddress :=
  ⟨hostWith_stream _ (by decide) _ _, by decide, (hostOnOpenBus_stream .word 0 (by decide)).2⟩
theorem witness_FetchwReadsTheStream :
    (hostWith 0 0xFFFFFFFE []).ramAccess .word (hostWith 0 0xFFFFFFFE []).cpu.pc ∧
    (hostWith 0 0xFFFFFFFE []).ramAccess .long (hostWith 0 0xFFFFFFFE []).cpu.pc ∧
    (∃ u, exec (.read .long (hostOnOpenBus 0 0x200000).cpu.pc) (hostOnOpenBus 0 0x200000) = .next u ∧ u.out = .bits 32 0) ∧
    exec (.read .word (hostOnOpenBus 0 1).cpu.pc) (hostOnOpenBus 0 1) = .refused .oddAddress :=
  ⟨ramAccess_of_reset rfl (.inr (by decide)), ramAccess_of_reset rfl (.inr (by decide)), ⟨_, rfl, rfl⟩, rfl⟩
/-- Each width; an odd byte; a long at the top of the address space. -/
theorem witness_ReadReturnsBigEndianRam :
    State.reset.ramAccess .byte 0x100001 ∧ State.reset.ramAccess .word 0x100000 ∧ State.reset.ramAccess .long 0xFFFFFFFE :=
  ⟨ramAccess_of_reset rfl (.inl rfl), ramAccess_of_reset rfl (.inr (by decide)), ramAccess_of_reset rfl (.inr (by decide))⟩
theorem witness_WriteStoresBigEndianRam :
    (∃ t, exec (.write .word 0 0x1234) { State.reset with bus := byteBus } = .next t) ∧
    (∀ x ∈ byteBus.handed .word 0, byteBus.deviceAt 1 ≠ byteBus.deviceAt x) ∧
    Memory.wf (hostWith 0 0 [(0x100000, 0x1234)]).mem ∧
    ((hostWith 0 0 [(0x100000, 0x1234)]).ramAccess .byte 0x100001 ∧ (0xFF : Long).toNat < 2 ^ Size.byte.bits) ∧
    ((hostWith 0 0 [(0x100000, 0x1234)]).ramAccess .word 0x100000 ∧ (0xFFFF : Long).toNat < 2 ^ Size.word.bits) ∧
    ((hostWith 0 0 [(0x100000, 0x1234)]).ramAccess .long 0xFFFFFFFE ∧ (0xFFFFFFFF : Long).toNat < 2 ^ Size.long.bits) :=
  ⟨exec_next (by decide +kernel), by decide, by decide +kernel, ⟨ramAccess_of_reset rfl (.inl rfl), by decide⟩, ⟨ramAccess_of_reset rfl (.inr (by decide)), by decide⟩,
    ⟨ramAccess_of_reset rfl (.inr (by decide)), by decide⟩⟩
/-- A bus with RAM, a device of the host and the open bus, at each of their pages. -/
theorem witness_ReadsNeverTrapOnAValidBus :
    openBusOf.valid ∧ 0 < openBusOf.params.numPages ∧ 15 < openBusOf.params.numPages ∧
    { State.reset with bus := openBusOf }.bus.ready ∧ isOdd 0x100000 = false ∧ isOdd 0x1FFFFE = false :=
  ⟨openBusOf_valid, by decide, by decide, ⟨openBusOf_valid, rfl⟩, by decide, by decide⟩
/-- The first long word of the open bus's pages, and an odd byte at their end; a long word of a device of the host. -/
theorem witness_OpenBusReadsZeroAndDiscardsWrites :
    { State.reset with bus := openBusOf }.bus.ready ∧ isOdd 0x200000 = false ∧ (0xFFFFFFFF : Long).toNat < 2 ^ Size.long.bits ∧
    (∀ a ∈ openBusOf.covered .long 0x200000, ∀ d ∈ openBusOf.devices, d.covers (a / openBusOf.params.pageSize) = false) ∧
    (0xFF : Long).toNat < 2 ^ Size.byte.bits ∧
    (∀ a ∈ openBusOf.covered .byte 0xFFFFFF, ∀ d ∈ openBusOf.devices, d.covers (a / openBusOf.params.pageSize) = false) ∧
    isOdd 0x1FFFFC = false ∧
    (∀ a ∈ openBusOf.covered .long 0x1FFFFC, ¬ ({ State.reset with bus := openBusOf } : State).ramAt a) ∧
    (∀ a ∈ openBusOf.covered .long 0x1FFFFE, ¬ ({ State.reset with bus := openBusOf } : State).ramAt a) := by
  have h1 : ∀ a ∈ openBusOf.covered .long 0x1FFFFC, a / 0x100000 = 1 ∨ a / 0x100000 = 2 := by decide
  have h2 : ∀ a ∈ openBusOf.covered .long 0x1FFFFE, a / 0x100000 = 1 ∨ a / 0x100000 = 2 := by decide
  exact ⟨⟨openBusOf_valid, rfl⟩, by decide, by decide, by decide, by decide, by decide, by decide,
    fun a h => openBusOf_not_ram rfl (h1 a h), fun a h => openBusOf_not_ram rfl (h2 a h)⟩
theorem witness_OddWordAccessesAreRefused :
    (State.reset.bus.params.dataWidth = 16 ∧ Size.word ≠ .byte ∧ Size.long ≠ .byte ∧ isOdd 1 = true ∧
      (0xFFFF : Long).toNat < 2 ^ Size.word.bits) ∧
    ((hostWith 0 0xFFFFFFFF []).bus.params.dataWidth = 16 ∧ isOdd (hostWith 0 0xFFFFFFFF []).cpu.pc = true) ∧
    ({ State.reset with bus := { Bus.reset with params := Config.busSub } }.bus.params.dataWidth ≠ 16 ∧
      (0xFF : Long).toNat < 2 ^ Size.byte.bits) := by decide
/-- The test bus with the open bus, an inverted range and as many devices as the limit; one failing check for each cause; a page that
just fits the address space and one that does not. -/
theorem witness_BusinitBuildsAValidBusOrSaysWhy :
    let disjoint := fun ds : List Device =>
      ds.Pairwise (fun d e => ∀ page, ¬ (d.first ≤ page ∧ page ≤ d.last ∧ e.first ≤ page ∧ page ≤ e.last))
    let ds : List Device := [⟨0, 0, .ram⟩, ⟨1, 20, .ram⟩, ⟨5, 3, .ram⟩]
    ((∃ k, k ≤ Config.busTest.addrWidth ∧ Config.busTest.pageSize = 2 ^ k) ∧ disjoint ds ∧
      (∀ page < 2 ^ Config.busTest.addrWidth / Config.busTest.pageSize, ∃ d ∈ ds, d.first ≤ page ∧ page ≤ d.last) ∧
      ds.length ≤ ({ Config.busTest with maxDevices := 3 } : BusParams).maxDevices) ∧
    (∃ k, k ≤ 20 ∧ Config.busTest.pageSize = 2 ^ k) ∧
    (∀ k ≤ 19, Config.busTest.pageSize ≠ 2 ^ k) ∧ (∀ k ≤ 24, (3 : Nat) ≠ 2 ^ k) ∧
    ¬ disjoint [⟨0, 3, .ram⟩, ⟨3, 15, .ram⟩] ∧
    ¬ (∃ d ∈ [(⟨0, 14, .ram⟩ : Device)], d.first ≤ 15 ∧ 15 ≤ d.last) ∧ ¬ (Bus.reset.devices.length ≤ 1) := by
  refine ⟨⟨⟨20, by decide⟩, ?_, by decide, by decide⟩, ⟨20, by decide⟩, by decide, by decide, ?_, by decide, by decide⟩
  · simp only [List.pairwise_cons, List.mem_cons, List.not_mem_nil, or_false, forall_eq_or_imp, forall_eq]
    simp; omega
  · intro h
    exact (List.pairwise_cons.1 h).1 _ (List.mem_singleton.2 rfl) 3 (by decide)
theorem witness_AbcdRegisterForm : (hostWith 0 0xFFFFFFFE []).streamReady .word := hostWith_stream _ (by decide) _ _
/-- Two registers; one register for both operands, at address 0. -/
theorem witness_AbcdMemoryForm :
    Memory.wf (hostWith 0 2 [(0x100000, 0x9999)]).mem ∧ (hostWith 0 2 [(0x100000, 0x9999)]).streamReady .word ∧
    (∀ addr, (hostWith 0 2 [(0x100000, 0x9999)]).ramAccess .byte addr) :=
  ⟨by decide +kernel, hostWith_stream _ (by decide) _ _, fun _ => ramAccess_of_reset rfl (.inl rfl)⟩

/-- `t1` at 0x406, the host of program A. -/
theorem witness_StepKeepsTheInvariant :
    (hostWith 0x4E71 0x406 [(0x406, 0x4AFC)]).Inv ∧ ∃ t, step (hostWith 0x4E71 0x406 [(0x406, 0x4AFC)]) = .next t :=
  ⟨⟨by decide +kernel, testBus_valid, hostWith_build _ _ _⟩,
    exec_next (i := .step) (s := hostWith 0x4E71 0x406 [(0x406, 0x4AFC)]) (by decide +kernel)⟩
theorem witness_ConstantsAreNeverWritten :
    (∃ t, exec .sort State.reset = .next t) ∧ (∀ p o ds, Instr.sort ≠ .businit p o ds) ∧
    (∃ t, exec (.businit Config.busTest true []) State.reset = .next t) :=
  ⟨exec_next (by decide), fun _ _ _ h => Instr.noConfusion h, exec_next (by decide +kernel)⟩
/-- A step that is no handler, and one that is, on a host with no handler of its own. -/
theorem witness_OnlyTheBcdStepWritesFlags :
    State.reset.rom.noHost ∧ (∃ t, exec (.bcd .add) (filled 0 0 9) = .next t) ∧ (filled 0 0 9).rom.noHost ∧
    (∃ t, exec .sort State.reset = .next t) ∧ (∀ op, Instr.sort ≠ .bcd op) ∧ ¬ runsAHandler .sort ∧
    (∃ t, exec (.abcdReg 1 0) State.reset = .next t) := by
  refine ⟨by unfold Rom.noHost; decide, exec_next (by decide +kernel), by unfold Rom.noHost; decide, exec_next (by decide),
    fun _ h => Instr.noConfusion h, ?_, exec_next (by decide +kernel)⟩
  rintro (h | h | ⟨_, _, h | h⟩) <;> cases h
theorem witness_PcAndClockOnlyAdvance :
    State.reset.rom.noHost ∧ (∃ t, exec (.cycles 5) State.reset = .next t) ∧ ¬ runsAHandler (.cycles 5) ∧
    Instr.cycles 5 ≠ .fetch ∧ Instr.cycles 5 ≠ .extword ∧ (∀ w, Instr.cycles 5 ≠ .fetchw w) ∧
    (∀ w u c k op e, Instr.cycles 5 ≠ .eaStep w u c k op e) ∧
    (∃ t, exec .step State.reset = .next t) ∧ runsAHandler .step := by
  refine ⟨by unfold Rom.noHost; decide, exec_next (by decide), ?_, by decide, by decide, fun _ h => Instr.noConfusion h,
    fun _ _ _ _ _ _ h => Instr.noConfusion h, exec_next (by decide +kernel), .inl rfl⟩
  rintro (h | h | ⟨_, _, h | h⟩) <;> cases h
theorem witness_RegistersAndRamAreWrittenOnlyByTheirOperations :
    (∃ t, exec (.read .byte 0) State.reset = .next t) ∧ ¬ runsAHandler (.read .byte 0) ∧
    (∀ w u c k op e, Instr.read .byte 0 ≠ .eaStep w u c k op e) ∧ (∀ w c p, Instr.read .byte 0 ≠ .stReg w c p) ∧
    (∀ w a v, Instr.read .byte 0 ≠ .write w a v) ∧ (∀ p o ds, Instr.read .byte 0 ≠ .businit p o ds) ∧
    Instr.read .byte 0 ≠ .fetch := by
  refine ⟨exec_next (by decide +kernel), ?_, fun _ _ _ _ _ _ h => Instr.noConfusion h, fun _ _ _ h => Instr.noConfusion h,
    fun _ _ _ h => Instr.noConfusion h, fun _ _ _ h => Instr.noConfusion h, by decide⟩
  rintro (h | h | ⟨_, _, h | h⟩) <;> cases h

end Sys2Proof.Machine
end

section
/-! The scope statements (00_scope.md): what every operation keeps of the block's fixed parts, the bus that `init` builds, and the
machine's invariant. -/

namespace Sys2Proof.Machine

/-! ### What every operation but `init` keeps -/

/-- `t` has the bus, the constants, the parameters and the waiting requests of `s`, and RAM is still canonical if it was. Weaker than
`HostOnly`: the builder's lists and the result may differ. -/
structure KeepsFixedParts (s t : State) : Prop where
  bus : t.bus = s.bus
  isd : t.isd = s.isd
  fallback : t.fallback = s.fallback
  rom : t.rom = s.rom
  port : t.port = s.port
  mem : s.mem.wf → t.mem.wf

theorem HostOnly.keepsFixedParts {s t : State} (h : HostOnly s t) : KeepsFixedParts s t :=
  ⟨h.bus, h.isd, h.fallback, h.rom, h.port, h.mem⟩

theorem KeepsFixedParts.trans {s t u : State} (h : KeepsFixedParts s t) (k : KeepsFixedParts t u) : KeepsFixedParts s u :=
  ⟨k.bus.trans h.bus, k.isd.trans h.isd, k.fallback.trans h.fallback, k.rom.trans h.rom, k.port.trans h.port,
    fun w => k.mem (h.mem w)⟩

theorem State.returns_keepsFixedParts (s : State) (r : Result) : KeepsFixedParts s (s.returns r) :=
  ⟨rfl, rfl, rfl, rfl, rfl, id⟩

theorem State.setBuilder_keepsFixedParts (s : State) (b : Builder) : KeepsFixedParts s (s.setBuilder b) :=
  ⟨rfl, rfl, rfl, rfl, rfl, id⟩

theorem State.setExec_keepsFixedParts (s : State) (e : ExecCtx) : KeepsFixedParts s { s with exec := e } :=
  ⟨rfl, rfl, rfl, rfl, rfl, id⟩

theorem State.setFree_keepsFixedParts (s : State) (n : Nat) : KeepsFixedParts s { s with free := n } :=
  ⟨rfl, rfl, rfl, rfl, rfl, id⟩

/-- A builder operation: new builder lists, then a result. -/
theorem State.setBuilder_returns_keepsFixedParts (s : State) (b : Builder) (r : Result) :
    KeepsFixedParts s ((s.setBuilder b).returns r) :=
  (s.setBuilder_keepsFixedParts b).trans (State.returns_keepsFixedParts _ r)

/-! ### By the shape of the operation -/

/-- An operation that answers a state which keeps the fixed parts, where its operands are in their domain. -/
theorem inDomain_pure_keepsFixedParts {i : Instr} {s t u : State} (hu : KeepsFixedParts s u) (h : inDomain i (pure u) = .next t) :
    KeepsFixedParts s t := by
  obtain ⟨-, hok⟩ := inDomain_eq_next.1 h
  exact Res.pure_eq_ok.1 hok ▸ hu

/-- A pure function of the operands only leaves its result. -/
theorem inDomain_returns_keepsFixedParts {i : Instr} {s t : State} {r : Result} (h : inDomain i (pure (s.returns r)) = .next t) :
    KeepsFixedParts s t :=
  inDomain_pure_keepsFixedParts (s.returns_keepsFixedParts r) h

/-- A builder operation leaves new builder lists and its result. -/
theorem inDomain_setBuilder_keepsFixedParts {i : Instr} {s t : State} {b : Builder} {r : Result}
    (h : inDomain i (pure ((s.setBuilder b).returns r)) = .next t) : KeepsFixedParts s t :=
  inDomain_pure_keepsFixedParts (s.setBuilder_returns_keepsFixedParts b r) h

theorem execPatnew_keepsFixedParts {template : List Char} {s t : State} (h : execPatnew template s = .next t) :
    KeepsFixedParts s t := by
  unfold execPatnew at h
  split at h <;> cases h <;> exact State.returns_keepsFixedParts ..

theorem execPermute_keepsFixedParts {index : Nat} {s t : State} (h : execPermute index s = .next t) : KeepsFixedParts s t := by
  unfold execPermute at h
  split at h
  · cases h
  · split at h
    · cases h
    · cases h; exact State.setBuilder_returns_keepsFixedParts ..

theorem execCompress_keepsFixedParts {s t : State} (h : execCompress s = .next t) : KeepsFixedParts s t := by
  cases h
  exact (s.setFree_keepsFixedParts _).trans (State.setBuilder_returns_keepsFixedParts ..)

theorem execBind_keepsFixedParts {s t : State} (h : execBind s = .next t) : KeepsFixedParts s t := by
  unfold execBind at h
  split at h
  · cases h; exact State.setBuilder_returns_keepsFixedParts ..
  · cases h; exact State.returns_keepsFixedParts ..
  · cases h

theorem execDecode_keepsFixedParts {w : Word} {s t : State} (h : execDecode w s = .next t) : KeepsFixedParts s t := by
  unfold execDecode at h
  split at h
  · cases h
  · cases h; exact State.returns_keepsFixedParts ..

/-- A helper that returns a value: its own work, then the result. -/
theorem returnValue_keepsFixedParts {w : Size} {r : Res (Long × State)} {s t : State}
    (hr : ∀ {x u}, r = .ok (x, u) → HostOnly s u) (h : returnValue w r = .ok t) : KeepsFixedParts s t := by
  obtain ⟨⟨x, u⟩, hxu, hret⟩ := Res.bind_eq_ok.1 h
  exact Res.pure_eq_ok.1 hret ▸ (hr hxu).keepsFixedParts.trans (u.returns_keepsFixedParts _)

/-- What `STEP` wraps around a handler keeps what the handler keeps (R290). -/
theorem hostStep_keepsFixedParts {run : State → Res State} {s t : State} (hrun : ∀ {u v}, run u = .ok v → HostOnly u v)
    (h : hostStep run s = .ok t) : KeepsFixedParts s t := by
  obtain ⟨u, hu, rfl⟩ := hostStep_ok h
  exact (s.setExec_keepsFixedParts _).trans ((hrun hu).keepsFixedParts.trans
    ((u.setExec_keepsFixedParts ExecCtx.fresh).trans (State.returns_keepsFixedParts _ _)))

/-- An opcode-word row, either form of `abcd`. -/
theorem stepAbcd_keepsFixedParts {w : Word} {s t : State} (h : stepAbcd w s = .ok t) : KeepsFixedParts s t :=
  (s.setIr_hostOnly w).keepsFixedParts.trans (hostStep_keepsFixedParts runHandler_hostOnly h)

theorem takeMiss_keepsFixedParts {s t : State} (h : takeMiss s = .ok t) : KeepsFixedParts s t :=
  hostStep_keepsFixedParts runIndex_hostOnly h

/-! ### `init` -/

/-- Everything `BUSINIT` can do: the new bus with RAM and transactions empty, or the error and nothing else (R60). -/
theorem execBusinit_next {p : BusParams} {o : Bool} {ds : List Device} {s t : State} (h : execBusinit p o ds s = .next t) :
    (∃ b, initBus p o ds = .ok b ∧ t = { s with bus := b, mem := [], trace := [] }.returns .bus) ∨
    (∃ e, initBus p o ds = .error e ∧ t = s.returns (.error e)) := by
  obtain ⟨-, hok⟩ := inDomain_eq_next.1 h
  split at hok
  · rename_i b hb
    exact .inl ⟨b, hb, (Res.pure_eq_ok.1 hok).symm⟩
  · rename_i e he
    exact .inr ⟨e, he, (Res.pure_eq_ok.1 hok).symm⟩

/-! ### Every operation -/

/-- Every operation but `init` keeps the fixed parts: a pure function leaves its result, a builder operation works on the builder's
lists, and what runs on the host is `HostOnly`. -/
theorem exec_keepsFixedParts {i : Instr} {s t : State} (h : exec i s = .next t) (hi : ∀ p o ds, i ≠ .businit p o ds) :
    KeepsFixedParts s t := by
  cases i with
  | businit p o ds => exact absurd rfl (hi p o ds)
  | extract | overwrite | extend | truncate | addo | subo | tobcd | frombcd | bcdadd | bcdsub | matchWord | specificity
  | szwidth | szdec | szenc | szcount | amdec | matchidx =>
    simp only [exec] at h
    exact inDomain_returns_keepsFixedParts h
  | visit | stub | intern =>
    simp only [exec] at h
    exact inDomain_setBuilder_keepsFixedParts h
  | patnew => exact execPatnew_keepsFixedParts h
  | permute => exact execPermute_keepsFixedParts h
  | sort => cases h; exact State.setBuilder_returns_keepsFixedParts ..
  | compress => exact execCompress_keepsFixedParts h
  | bind => exact execBind_keepsFixedParts h
  | decode => exact execDecode_keepsFixedParts h
  | eaStep => exact (stepEa_hostOnly (toOutcome_eq_next.1 h)).keepsFixedParts
  | ldReg => exact (stepLdReg_hostOnly (toOutcome_eq_next.1 h)).keepsFixedParts
  | stReg => exact (stepStReg_hostOnly (toOutcome_eq_next.1 h)).keepsFixedParts
  | fetch => exact (stepFetch_hostOnly (toOutcome_eq_next.1 h)).keepsFixedParts
  | bcd => exact (stepBcd_hostOnly (toOutcome_eq_next.1 h)).keepsFixedParts
  | cycles => exact (stepCycles_hostOnly (toOutcome_eq_next.1 h)).keepsFixedParts
  | extword => exact returnValue_keepsFixedParts extword_hostOnly (toOutcome_eq_next.1 h)
  | fetchw => exact returnValue_keepsFixedParts fetchStream_hostOnly (toOutcome_eq_next.1 h)
  | read => exact returnValue_keepsFixedParts memRead_hostOnly (toOutcome_eq_next.1 h)
  | write =>
    obtain ⟨-, hok⟩ := inDomain_eq_next.1 h
    exact (memWrite_hostOnly hok).keepsFixedParts
  | step => exact hostStep_keepsFixedParts decodeAndRun_hostOnly (toOutcome_eq_next.1 h)
  | abcdReg | abcdMem => exact stepAbcd_keepsFixedParts (toOutcome_eq_next.1 h)
  | illegal =>
    exact (s.setIr_hostOnly 0x4AFC).keepsFixedParts.trans (takeMiss_keepsFixedParts (toOutcome_eq_next.1 h))

/-- Settles O57: `init` writes the bus, RAM, the transactions and the result, and every other operation keeps the fixed parts. -/
theorem constantsAreNeverWritten : Obligations.ConstantsAreNeverWritten := by
  intro i s t h
  by_cases hi : ∃ p o ds, i = .businit p o ds
  · obtain ⟨p, o, ds, rfl⟩ := hi
    obtain ⟨b, -, rfl⟩ | ⟨e, -, rfl⟩ := execBusinit_next h
    · exact ⟨rfl, rfl, rfl, rfl, fun hne => absurd rfl (hne p o ds)⟩
    · exact ⟨rfl, rfl, rfl, rfl, fun _ => rfl⟩
  · have k := exec_keepsFixedParts h fun p o ds e => hi ⟨p, o, ds, e⟩
    exact ⟨k.rom, k.isd, k.fallback, k.port, fun _ => k.bus⟩

/-! ### The bus that `init` builds -/

/-- The page table names the first device that covers a page, or, where none does, the open bus after the last device (R55, R59). -/
theorem pageOwner_eq_some {openBus : Bool} {devices : List Device} {page i : Nat} (h : pageOwner openBus devices page = some i) :
    (∃ d, devices[i]? = some d ∧ d.covers page = true) ∨
      (openBus = true ∧ i = devices.length ∧ ∀ d ∈ devices, d.covers page = false) := by
  simp only [pageOwner] at h
  split at h
  · rename_i hlt
    cases h
    exact .inl ⟨_, List.getElem?_eq_getElem hlt, List.findIdx_getElem (w := hlt)⟩
  · rename_i hge
    split at h
    · rename_i ho
      cases h
      refine .inr ⟨ho, rfl, fun d hd => ?_⟩
      rw [List.findIdx_lt_length] at hge
      exact Bool.eq_false_iff.2 fun hc => hge ⟨d, hd, hc⟩
    · cases h

/-- A list mapped without a failure holds the answer for each element at its place. -/
theorem forall₂_of_mapM_eq_some {α β : Type} {f : α → Option β} {xs : List α} {ys : List β} (h : xs.mapM f = some ys) :
    List.Forall₂ (fun x y => f x = some y) xs ys := by
  induction xs generalizing ys with
  | nil => cases h; exact .nil
  | cons x xs ih =>
    simp only [List.mapM_cons, Option.bind_eq_bind, Option.bind_eq_some_iff, Option.pure_def, Option.some.injEq] at h
    obtain ⟨y, hy, ys', hys, rfl⟩ := h
    exact .cons hy (ih hys)

/-- A page table that is built has an entry for every page, the page's owner. -/
theorem buildPageTable_eq_some {openBus : Bool} {devices : List Device} {n : Nat} {table : List Nat}
    (h : buildPageTable openBus devices n = some table) :
    table.length = n ∧ ∀ page < n, ∃ i, table[page]? = some i ∧ pageOwner openBus devices page = some i := by
  have hall := forall₂_of_mapM_eq_some h
  have hlen : table.length = n := by rw [← hall.length_eq, List.length_range]
  refine ⟨hlen, fun page hp => ⟨table[page], List.getElem?_eq_getElem _, ?_⟩⟩
  have hget := hall.get (i := page) (by rwa [List.length_range]) (by rwa [hlen])
  simpa using hget

/-- `init` answers a bus only if it has passed every check: the bus is valid (R57, R60). -/
theorem initBus_valid {p : BusParams} {o : Bool} {ds : List Device} {b : Bus} (h : initBus p o ds = .ok b) : b.valid := by
  unfold initBus at h
  split at h
  · cases h
  rename_i hsize
  split at h
  · cases h
  rename_i hdisjoint
  split at h
  · cases h
  rename_i table htable
  split at h
  · cases h
  rename_i hmax
  cases h
  obtain ⟨hpow, hle⟩ := not_or.1 hsize
  obtain ⟨hlen, howner⟩ := buildPageTable_eq_some htable
  refine ⟨Bool.not_eq_false _ ▸ hpow, Nat.le_of_not_lt hle, Nat.le_of_not_lt hmax, not_not.1 hdisjoint, hlen, fun page hp => ?_⟩
  obtain ⟨i, hi, hpo⟩ := howner page hp
  exact ⟨i, hi, pageOwner_eq_some hpo⟩

/-! ### The invariant -/

/-- A state that keeps the fixed parts keeps the invariant. -/
theorem KeepsFixedParts.inv {s t : State} (k : KeepsFixedParts s t) (h : s.Inv) : t.Inv := by
  obtain ⟨hmem, hbus, hbuild⟩ := h
  exact ⟨k.mem hmem, k.bus ▸ hbus, by rw [k.isd, k.fallback, k.rom]; exact hbuild⟩

/-- Every operation keeps the invariant, `init` because it builds a valid bus and empties RAM. -/
theorem exec_inv {i : Instr} {s t : State} (h : exec i s = .next t) (hs : s.Inv) : t.Inv := by
  by_cases hi : ∃ p o ds, i = .businit p o ds
  · obtain ⟨p, o, ds, rfl⟩ := hi
    obtain ⟨b, hb, rfl⟩ | ⟨e, -, rfl⟩ := execBusinit_next h
    · obtain ⟨-, -, hbuild⟩ := hs
      exact ⟨Memory.wf_nil, initBus_valid hb, hbuild⟩
    · exact (s.returns_keepsFixedParts _).inv hs
  · exact (exec_keepsFixedParts h fun p o ds e => hi ⟨p, o, ds, e⟩).inv hs

/-- A machine step runs one instruction: the request that leaves the port, or `STEP` where none waits (log 1). -/
theorem step_next {s t : State} (h : step s = .next t) : ∃ i port, exec i { s with port := port } = .next t := by
  unfold step stepMachine at h
  split at h
  · rename_i r rest hport
    unfold serve at h
    split at h
    · rename_i i hi
      exact ⟨i, rest, h⟩
    · cases h
  · exact ⟨.step, s.port, h⟩

/-- Settles O55: a step runs one operation, and every operation keeps the invariant, which does not speak of the port. -/
theorem stepKeepsTheInvariant : Obligations.StepKeepsTheInvariant := by
  intro s t hs h
  obtain ⟨i, port, hexec⟩ := step_next h
  have hport : State.Inv { s with port := port } := hs
  exact exec_inv hexec hport

end Sys2Proof.Machine
end

section
/-! The state statements (10_state.md): what each operation writes of the host, how `pc` and `clk` advance, and that a `WRITE` stays
inside the devices it addresses. -/

namespace Sys2Proof.Machine

/-! ### `WRITE` -/

/-- A write of the execution context changes no byte of a device it does not address (10_state.md R41). -/
theorem memWrite_read_other {w : Size} {addr v : Long} {s t : State} (hm : s.mem.wf) (h : memWrite w addr v s = .ok t) {a : Nat}
    (ha : ∀ x ∈ s.bus.handed w addr, s.bus.deviceAt a ≠ s.bus.deviceAt x) : Memory.read t.mem a = Memory.read s.mem a := by
  unfold memWrite at h
  split at h
  · simp at h
  cases w with
  | byte =>
    obtain ⟨u, hu, hclk⟩ := Res.bind_eq_ok.1 h
    cases hclk
    exact busWrite_read_other hm hu (ha _ (by simp [Bus.handed]))
  | word =>
    simp only at h
    split at h
    · simp at h
    obtain ⟨u, hu, hclk⟩ := Res.bind_eq_ok.1 h
    cases hclk
    exact busWrite_read_other hm hu (ha _ (by simp [Bus.handed]))
  | long =>
    simp only at h
    split at h
    · simp at h
    obtain ⟨u, hu, hrest⟩ := Res.bind_eq_ok.1 h
    obtain ⟨r, hr, hclk⟩ := Res.bind_eq_ok.1 hrest
    cases hclk
    have k := busWrite_hostOnly hu
    calc Memory.read r.mem a = Memory.read u.mem a :=
          busWrite_read_other (k.mem hm) hr (by rw [k.bus]; exact ha _ (by simp [Bus.handed]))
      _ = Memory.read s.mem a := busWrite_read_other hm hu (ha _ (by simp [Bus.handed]))

/-- Settles O48: `WRITE` is the context's write, which stores into RAM big-endian and otherwise stays inside the addressed devices. -/
theorem writeStoresBigEndianRam : Obligations.WriteStoresBigEndianRam := by
  constructor
  · intro s w addr v hm hram hv
    obtain ⟨m, hstores, hwf, hok⟩ := memWrite_ram hm hram v
    exact ⟨m, hstores, hwf, inDomain_eq_next.2 ⟨decide_eq_true hv, hok⟩⟩
  · intro s t w addr v hm h a ha
    obtain ⟨-, hok⟩ := inDomain_eq_next.1 h
    exact memWrite_read_other hm hok ha

/-! ### Parts of the host -/

/-- The parts of the host that the operations of 10_state.md write. -/
inductive HostPart where
  | d | a | pc | ir | sr | ram | trace

/-- `r'` is `r` but for `c`, `x` and `z`, and `z` is not set (10_state.md R37). -/
def Sr.FlagsOnly (r r' : Sr) : Prop :=
  r' = { r with c := r'.c, x := r'.x, z := r'.z } ∧ (r'.z = true → r.z = true)

theorem Sr.FlagsOnly.refl (r : Sr) : r.FlagsOnly r := ⟨rfl, id⟩

theorem Sr.FlagsOnly.trans {p q r : Sr} (h : p.FlagsOnly q) (k : q.FlagsOnly r) : p.FlagsOnly r := by
  obtain ⟨hq, hz⟩ := h
  obtain ⟨hr, kz⟩ := k
  exact ⟨by rw [hr, hq], fun z => hz (kz z)⟩

theorem Sr.bcdFlags_flagsOnly (r : Sr) (res : Byte) (k : Bool) : r.FlagsOnly (r.bcdFlags res k) :=
  ⟨rfl, fun h => (Bool.and_eq_true_iff.1 h).1⟩

/-- `pc` goes from `s` to `t` forward by words of the instruction stream; `clk` goes up by at least 4 for each word, and the
transactions by at least one, unless `ps` has them begin anew (10_state.md R35, R40; 20_memory.md R72, R73). -/
def Advances (ps : List HostPart) (s t : State) : Prop :=
  ∃ k, t.cpu.pc = s.cpu.pc + BitVec.ofNat 32 (2 * k) ∧ s.exec.clk + 4 * k ≤ t.exec.clk ∧
    (.trace ∉ ps → s.trace.length + k ≤ t.trace.length)

/-- `t` comes from `s` by writing no parts of the host but those of `ps`. Whatever is written, the status register keeps all but the
flags, and `pc`, `clk` and the transactions only advance. -/
structure WritesOnly (ps : List HostPart) (s t : State) : Prop where
  d : .d ∉ ps → t.cpu.d = s.cpu.d
  a : .a ∉ ps → t.cpu.a = s.cpu.a
  pc : .pc ∉ ps → t.cpu.pc = s.cpu.pc
  ir : .ir ∉ ps → t.cpu.ir = s.cpu.ir
  sr : .sr ∉ ps → t.cpu.sr = s.cpu.sr
  ram : .ram ∉ ps → t.mem = s.mem
  flags : s.cpu.sr.FlagsOnly t.cpu.sr
  advances : Advances ps s t

section
variable {ps : List HostPart} {s t u : State}

theorem Advances.of_pc_eq (hpc : t.cpu.pc = s.cpu.pc) (hclk : s.exec.clk ≤ t.exec.clk)
    (htrace : .trace ∉ ps → s.trace.length ≤ t.trace.length) : Advances ps s t :=
  ⟨0, by simp [hpc], hclk, htrace⟩

theorem Advances.trans (h : Advances ps s t) (k : Advances ps t u) : Advances ps s u := by
  obtain ⟨m, hpc, hclk, htrace⟩ := h
  obtain ⟨n, kpc, kclk, ktrace⟩ := k
  refine ⟨m + n, ?_, by omega, fun hp => ?_⟩
  · rw [kpc, hpc, BitVec.add_assoc, ← BitVec.ofNat_add, ← Nat.mul_add]
  · have := htrace hp
    have := ktrace hp
    omega

theorem WritesOnly.trans (h : WritesOnly ps s t) (k : WritesOnly ps t u) : WritesOnly ps s u :=
  ⟨fun e => (k.d e).trans (h.d e), fun e => (k.a e).trans (h.a e), fun e => (k.pc e).trans (h.pc e),
    fun e => (k.ir e).trans (h.ir e), fun e => (k.sr e).trans (h.sr e), fun e => (k.ram e).trans (h.ram e),
    h.flags.trans k.flags, h.advances.trans k.advances⟩

/-- Work that leaves CPU and RAM alone writes no part, if `clk` and the transactions do not go back. -/
theorem WritesOnly.of_cpu_eq (hcpu : t.cpu = s.cpu) (hmem : t.mem = s.mem) (hclk : s.exec.clk ≤ t.exec.clk)
    (htrace : s.trace.length ≤ t.trace.length) : WritesOnly ps s t :=
  ⟨fun _ => by rw [hcpu], fun _ => by rw [hcpu], fun _ => by rw [hcpu], fun _ => by rw [hcpu], fun _ => by rw [hcpu],
    fun _ => hmem, hcpu ▸ .refl _, .of_pc_eq (by rw [hcpu]) hclk fun _ => htrace⟩

theorem WritesOnly.refl (s : State) : WritesOnly ps s s := .of_cpu_eq rfl rfl le_rfl le_rfl

/-! ### The updates of the state -/

theorem State.returns_writesOnly (s : State) (r : Result) : WritesOnly ps s (s.returns r) := .of_cpu_eq rfl rfl le_rfl le_rfl

/-- A builder operation: new builder lists, then a result. -/
theorem State.setBuilder_returns_writesOnly (s : State) (b : Builder) (r : Result) :
    WritesOnly ps s ((s.setBuilder b).returns r) := .of_cpu_eq rfl rfl le_rfl le_rfl

theorem State.setAddr_writesOnly (s : State) (i : Slot) (v : Long) : WritesOnly ps s (s.setAddr i v) :=
  .of_cpu_eq rfl rfl (by simp) le_rfl

theorem State.setData_writesOnly (s : State) (i : Slot) (v : Long) : WritesOnly ps s (s.setData i v) :=
  .of_cpu_eq rfl rfl (by simp) le_rfl

theorem State.addClk_writesOnly (s : State) (n : Nat) : WritesOnly ps s (s.addClk n) :=
  .of_cpu_eq rfl rfl (Nat.le_add_right ..) le_rfl

theorem State.useWord_writesOnly (s : State) (v : Option Long) : WritesOnly ps s (s.useWord v).2 := by
  obtain ⟨n, hn⟩ := s.useWord_frame v
  rw [hn]
  exact .of_cpu_eq rfl rfl le_rfl le_rfl

theorem State.setD_writesOnly (hd : .d ∈ ps) (s : State) (n : BitVec 3) (v : Long) : WritesOnly ps s (s.setD n v) :=
  ⟨fun e => absurd hd e, fun _ => rfl, fun _ => rfl, fun _ => rfl, fun _ => rfl, fun _ => rfl, .refl _,
    .of_pc_eq rfl le_rfl fun _ => le_rfl⟩

theorem State.setA_writesOnly (ha : .a ∈ ps) (s : State) (n : BitVec 3) (v : Long) : WritesOnly ps s (s.setA n v) :=
  ⟨fun _ => rfl, fun e => absurd ha e, fun _ => rfl, fun _ => rfl, fun _ => rfl, fun _ => rfl, .refl _,
    .of_pc_eq rfl le_rfl fun _ => le_rfl⟩

theorem State.setIr_writesOnly (hi : .ir ∈ ps) (s : State) (v : Word) : WritesOnly ps s (s.setIr v) :=
  ⟨fun _ => rfl, fun _ => rfl, fun _ => rfl, fun e => absurd hi e, fun _ => rfl, fun _ => rfl, .refl _,
    .of_pc_eq rfl le_rfl fun _ => le_rfl⟩

theorem State.setSr_writesOnly (hsr : .sr ∈ ps) (s : State) {v : Sr} (hv : s.cpu.sr.FlagsOnly v) :
    WritesOnly ps s (s.setSr v) :=
  ⟨fun _ => rfl, fun _ => rfl, fun _ => rfl, fun _ => rfl, fun e => absurd hsr e, fun _ => rfl, hv,
    .of_pc_eq rfl le_rfl fun _ => le_rfl⟩

/-! ### Memory accesses and fetches -/

theorem busRead_trace_length {w : Nat} {addr : Long} {mask x : BitVec w} (h : busRead addr mask s = .ok (x, t)) :
    t.trace.length = s.trace.length + 1 := by
  obtain ⟨i, kind, l, -, rfl, -⟩ := busRead_ok h
  exact List.length_append

/-- A read makes one transaction for each word it covers (R66, R67, R68). -/
theorem memRead_trace_length {w : Size} {addr x : Long} (h : memRead w addr s = .ok (x, t)) :
    t.trace.length = s.trace.length + (if w = .long then 2 else 1) := by
  unfold memRead at h
  split at h
  · simp at h
  cases w with
  | byte =>
    obtain ⟨⟨y, u⟩, hu, hclk⟩ := Res.bind_eq_ok.1 h
    cases hclk
    exact (busRead_trace_length hu :)
  | word =>
    simp only at h
    split at h
    · simp at h
    obtain ⟨⟨y, u⟩, hu, hclk⟩ := Res.bind_eq_ok.1 h
    cases hclk
    exact (busRead_trace_length hu :)
  | long =>
    simp only at h
    split at h
    · simp at h
    obtain ⟨⟨y, u⟩, hu, hrest⟩ := Res.bind_eq_ok.1 h
    obtain ⟨⟨z, r⟩, hr, hclk⟩ := Res.bind_eq_ok.1 hrest
    cases hclk
    exact (busRead_trace_length hr).trans (congrArg (· + 1) (busRead_trace_length hu))

theorem memRead_writesOnly {w : Size} {addr x : Long} (h : memRead w addr s = .ok (x, t)) : WritesOnly ps s t := by
  obtain ⟨-, -, xs, rfl⟩ := memRead_ok h
  exact .of_cpu_eq rfl rfl (Nat.le_add_right ..) (by simp)

theorem memWrite_writesOnly {w : Size} {addr v : Long} (hram : .ram ∈ ps) (h : memWrite w addr v s = .ok t) :
    WritesOnly ps s t := by
  obtain ⟨-, -, m, xs, rfl, -⟩ := memWrite_ok h
  exact ⟨fun _ => rfl, fun _ => rfl, fun _ => rfl, fun _ => rfl, fun _ => rfl, fun e => absurd hram e, .refl _,
    .of_pc_eq rfl (Nat.le_add_right ..) (by simp)⟩

/-- A fetch makes one transaction for each word it takes (R72). -/
theorem fetchStream_trace_length {w : Size} {x : Long} (h : fetchStream w s = .ok (x, t)) :
    t.trace.length = s.trace.length + (if w = .long then 2 else 1) := by
  cases w <;>
  · obtain ⟨⟨y, u⟩, hread, hpc⟩ := Res.bind_eq_ok.1 h
    cases hpc
    exact (memRead_trace_length hread :)

/-- A fetch takes one word, or two at width 32, and writes `pc` only. -/
theorem fetchStream_writesOnly {w : Size} {x : Long} (hpc : .pc ∈ ps) (h : fetchStream w s = .ok (x, t)) :
    WritesOnly ps s t := by
  have htrace := fetchStream_trace_length h
  obtain ⟨xs, rfl⟩ := fetchStream_ok h
  refine ⟨fun _ => rfl, fun _ => rfl, fun e => absurd hpc e, fun _ => rfl, fun _ => rfl, fun _ => rfl, .refl _,
    (if w = .long then 2 else 1), ?_, ?_, fun _ => htrace.ge⟩
  · cases w <;> rfl
  · cases w <;> exact le_rfl

theorem extword_writesOnly {x : Long} (hpc : .pc ∈ ps) (h : extword s = .ok (x, t)) : WritesOnly ps s t := by
  obtain ⟨⟨y, u⟩, hfetch, hret⟩ := Res.bind_eq_ok.1 h
  cases hret
  exact fetchStream_writesOnly hpc hfetch

theorem fetchDisp_writesOnly {x : Long} (hpc : .pc ∈ ps) (h : fetchDisp s = .ok (x, t)) : WritesOnly ps s t := by
  obtain ⟨⟨y, u⟩, hfetch, hret⟩ := Res.bind_eq_ok.1 h
  cases hret
  exact fetchStream_writesOnly hpc hfetch

/-! ### The microcode steps -/

/-- A word of the stream, or more, then the slot's address: the address calculation of the variants that fetch. -/
theorem bind_setAddr_writesOnly {f : State → Res (Long × State)} {g : Long → Long} {i : Slot}
    (hf : ∀ {x u}, f s = .ok (x, u) → WritesOnly ps s u)
    (h : (f s >>= fun r => pure (r.2.setAddr i (g r.1))) = .ok t) : WritesOnly ps s t := by
  obtain ⟨⟨x, u⟩, hfetch, hret⟩ := Res.bind_eq_ok.1 h
  cases hret
  exact (hf hfetch).trans (State.setAddr_writesOnly ..)

theorem calcAddress_writesOnly {v : Variant} {n : BitVec 3} {w : Size} {i : Slot} (ha : .a ∈ ps) (hpc : .pc ∈ ps)
    (h : calcAddress v n w i s = .ok t) : WritesOnly ps s t := by
  cases v with
  | dataReg | addrReg | imm => cases h; exact .refl s
  | addr => cases h; exact State.setAddr_writesOnly ..
  | addrInc => cases h; exact (State.setAddr_writesOnly ..).trans (State.setA_writesOnly ha ..)
  | addrDec => cases h; exact (State.setA_writesOnly ha ..).trans (State.setAddr_writesOnly ..)
  | addrDisp => exact bind_setAddr_writesOnly (g := fun d => s.cpu.getA n + d) (fetchDisp_writesOnly hpc) h
  | addrIdx => exact bind_setAddr_writesOnly (g := fun x => s.cpu.getA n + x) (extword_writesOnly hpc) h
  | pcDisp => exact bind_setAddr_writesOnly (g := fun d => s.cpu.pc + d) (fetchDisp_writesOnly hpc) h
  | pcIdx => exact bind_setAddr_writesOnly (g := fun x => s.cpu.pc + x) (extword_writesOnly hpc) h
  | absShort => exact bind_setAddr_writesOnly (g := id) (fetchDisp_writesOnly hpc) h
  | absLong => exact bind_setAddr_writesOnly (g := id) (fetchStream_writesOnly hpc) h

theorem loadMemory_writesOnly {w : Size} {i : Slot} (h : loadMemory w i s = .ok t) : WritesOnly ps s t := by
  obtain ⟨⟨x, u⟩, hread, hret⟩ := Res.bind_eq_ok.1 h
  cases hret
  exact (State.useWord_writesOnly ..).trans ((memRead_writesOnly hread).trans (State.setData_writesOnly ..))

theorem storeMemory_writesOnly {w : Size} {i : Slot} (hram : .ram ∈ ps) (h : storeMemory w i s = .ok t) : WritesOnly ps s t :=
  (State.useWord_writesOnly ..).trans ((State.useWord_writesOnly ..).trans (memWrite_writesOnly hram h))

/-- The part that holds the registers of a class. -/
def classPart : RegClass → HostPart
  | .data => .d
  | .addr => .a

theorem eq_classPart {p : HostPart} {cls : RegClass} :
    p = classPart cls ↔ (p = .d ∧ cls = .data) ∨ (p = .a ∧ cls = .addr) := by
  cases cls <;> simp [classPart]

theorem State.storeReg_writesOnly {cls : RegClass} (hr : classPart cls ∈ ps) (s : State) (w : Size) (n : BitVec 3) (v : Long) :
    WritesOnly ps s (s.storeReg w cls n v) := by
  cases cls with
  | data => exact State.setD_writesOnly hr ..
  | addr => exact State.setA_writesOnly hr ..

theorem storeToReg_writesOnly {w : Size} {cls : RegClass} {n : BitVec 3} {i : Slot} (hr : classPart cls ∈ ps)
    (h : storeToReg w cls n i s = .ok t) : WritesOnly ps s t := by
  cases h
  exact (s.useWord_writesOnly _).trans (State.storeReg_writesOnly hr ..)

theorem eaLoad_writesOnly {v : Variant} {n : BitVec 3} {w : Size} {i : Slot} (hpc : .pc ∈ ps) (h : eaLoad v n w i s = .ok t) :
    WritesOnly ps s t := by
  cases v with
  | dataReg | addrReg => cases h; exact State.setData_writesOnly ..
  | imm =>
    obtain ⟨⟨x, u⟩, hfetch, hret⟩ := Res.bind_eq_ok.1 h
    cases hret
    exact (fetchStream_writesOnly hpc hfetch).trans (State.setData_writesOnly ..)
  | _ => exact loadMemory_writesOnly h

theorem eaStore_writesOnly {v : Variant} {n : BitVec 3} {w : Size} {i : Slot} (hd : .d ∈ ps) (ha : .a ∈ ps) (hram : .ram ∈ ps)
    (h : eaStore v n w i s = .ok t) : WritesOnly ps s t := by
  cases v with
  | dataReg => exact storeToReg_writesOnly (cls := .data) hd h
  | addrReg => exact storeToReg_writesOnly (cls := .addr) ha h
  | imm => cases h; exact .refl s
  | _ => exact storeMemory_writesOnly hram h

/-- What an `ea` step may write: its address calculation `pc` and an address register (R203), its store also a data register or RAM
(R208). -/
def eaWrites (op : EaOp) : List HostPart :=
  .pc :: .a :: match op with
    | .store => [.d, .ram]
    | .load => []
    | .none => []

theorem mem_eaWrites {p : HostPart} {op : EaOp} :
    p ∈ eaWrites op ↔ p = .pc ∨ p = .a ∨ (op = .store ∧ (p = .d ∨ p = .ram)) := by
  cases op <;> simp [eaWrites]

theorem eaAddress_writesOnly {c : Bool} {v : Variant} {n : BitVec 3} {w : Size} {i : Slot} (ha : .a ∈ ps) (hpc : .pc ∈ ps)
    (h : eaAddress c v n w i s = .ok t) : WritesOnly ps s t := by
  cases c with
  | true => exact calcAddress_writesOnly ha hpc h
  | false => cases h; exact .refl s

theorem eaPenalty_writesOnly (k : Bool) (v : Variant) (s : State) : WritesOnly ps s (eaPenalty k v s) := by
  cases k with
  | true => exact State.addClk_writesOnly ..
  | false => exact .refl s

theorem eaTransfer_writesOnly {op : EaOp} {v : Variant} {n : BitVec 3} {w : Size} {i : Slot} (hps : eaWrites op ⊆ ps)
    (h : eaTransfer op v n w i s = .ok t) : WritesOnly ps s t := by
  cases op with
  | load => exact eaLoad_writesOnly (hps (by simp [eaWrites])) h
  | store =>
    exact eaStore_writesOnly (hps (by simp [eaWrites])) (hps (by simp [eaWrites])) (hps (by simp [eaWrites])) h
  | none => cases h; exact .refl s

theorem stepEa_writesOnly {w : Size} {i : Slot} {c k : Bool} {op : EaOp} {enc : AmEnc} (hps : eaWrites op ⊆ ps)
    (h : stepEa w i c k op enc s = .ok t) : WritesOnly ps s t := by
  unfold stepEa at h
  split at h
  · simp at h
  split at h
  · simp at h
  split at h
  · simp at h
  obtain ⟨u, haddr, htransfer⟩ := Res.bind_eq_ok.1 h
  have hau : WritesOnly ps s u := eaAddress_writesOnly (hps (by simp [eaWrites])) (hps (by simp [eaWrites])) haddr
  exact hau.trans ((eaPenalty_writesOnly ..).trans (eaTransfer_writesOnly hps htransfer))

theorem stepLdReg_writesOnly {w : Size} {i : Slot} {cls : RegClass} {p : Nat} (h : stepLdReg w i cls p s = .ok t) :
    WritesOnly ps s t := by
  unfold stepLdReg at h
  split at h
  · simp at h
  cases h
  exact State.setData_writesOnly ..

theorem stepStReg_writesOnly {w : Size} {cls : RegClass} {p : Nat} (hr : classPart cls ∈ ps)
    (h : stepStReg w cls p s = .ok t) : WritesOnly ps s t := by
  unfold stepStReg at h
  split at h
  · simp at h
  exact storeToReg_writesOnly hr h

theorem stepFetch_writesOnly (hpc : .pc ∈ ps) (hir : .ir ∈ ps) (h : stepFetch s = .ok t) : WritesOnly ps s t := by
  obtain ⟨⟨x, u⟩, hfetch, hret⟩ := Res.bind_eq_ok.1 h
  cases hret
  exact (fetchStream_writesOnly hpc hfetch).trans (State.setIr_writesOnly hir ..)

theorem stepBcd_writesOnly {op : BcdOp} (hsr : .sr ∈ ps) (h : stepBcd op s = .ok t) : WritesOnly ps s t := by
  cases h
  exact (s.useWord_writesOnly _).trans ((State.useWord_writesOnly ..).trans ((State.setData_writesOnly ..).trans
    ((State.setSr_writesOnly hsr _ (Sr.bcdFlags_flagsOnly ..)).trans (State.addClk_writesOnly ..))))

theorem stepCycles_writesOnly {n : Nat} (h : stepCycles n s = .ok t) : WritesOnly ps s t := by
  cases h
  exact State.addClk_writesOnly ..

/-! ### Handlers -/

/-- Every part of the host that some microcode step writes; the transactions never begin anew. -/
def microcodeParts : List HostPart := [.d, .a, .pc, .ir, .sr, .ram]

theorem eaWrites_subset_microcodeParts (op : EaOp) : eaWrites op ⊆ microcodeParts := by
  cases op <;> simp [eaWrites, microcodeParts]

theorem classPart_mem_microcodeParts (cls : RegClass) : classPart cls ∈ microcodeParts := by
  cases cls <;> simp [classPart, microcodeParts]

theorem runStep_writesOnly {width : Option Size} {step : Step} (h : runStep width step s = .ok t) :
    WritesOnly microcodeParts s t := by
  cases step with
  | ea i c k op enc =>
    cases width with
    | none => simp [runStep] at h
    | some w => exact stepEa_writesOnly (eaWrites_subset_microcodeParts op) h
  | ldReg i cls p =>
    cases width with
    | none => simp [runStep] at h
    | some w => exact stepLdReg_writesOnly h
  | stReg cls p =>
    cases width with
    | none => simp [runStep] at h
    | some w => exact stepStReg_writesOnly (classPart_mem_microcodeParts cls) h
  | fetch => exact stepFetch_writesOnly (by simp [microcodeParts]) (by simp [microcodeParts]) h
  | bcd op => exact stepBcd_writesOnly (by simp [microcodeParts]) h
  | cycles n => exact stepCycles_writesOnly h

theorem runSteps_writesOnly {width : Option Size} {steps : List Step} (h : runSteps width steps s = .ok t) :
    WritesOnly microcodeParts s t := by
  induction steps generalizing s with
  | nil => cases h; exact .refl _
  | cons step rest ih =>
    obtain ⟨u, hstep, hrest⟩ := Res.bind_eq_ok.1 h
    exact (runStep_writesOnly hstep).trans (ih hrest)

theorem runHandler_writesOnly {h : Handler} (hh : h ≠ .host) (e : runHandler h s = .ok t) : WritesOnly microcodeParts s t := by
  cases h with
  | pipeline steps width => exact runSteps_writesOnly e
  | host => exact absurd rfl hh

theorem runIndex_ok {i : Nat} (h : runIndex i s = .ok t) : ∃ hd ∈ s.rom.handlers, runHandler hd s = .ok t := by
  unfold runIndex at h
  split at h
  · simp at h
  · rename_i hd hi
    exact ⟨hd, List.mem_of_getElem? hi, h⟩

theorem decodeAndRun_ok (h : decodeAndRun s = .ok t) : ∃ hd ∈ s.rom.handlers, runHandler hd s = .ok t := by
  unfold decodeAndRun at h
  split at h
  · simp at h
  · exact runIndex_ok h

end

/-- The state in which an operation that runs a handler starts it: the opcode word in `ir`, a new context (R290). -/
def State.handlerStart (s : State) (ir : Word) : State := { s with cpu := { s.cpu with ir := ir }, exec := ExecCtx.fresh }

/-- An operation that runs a handler runs one of the array or the one of `abcd`, returns its count and releases the context (R290,
R232, R303). -/
theorem exec_runsAHandler {i : Instr} {s t : State} (hi : runsAHandler i) (h : exec i s = .next t) :
    ∃ (hd : Handler) (ir : Word) (u : State),
      (hd ∈ s.rom.handlers ∨ hd = .pipeline abcdCode.steps (some .byte)) ∧ runHandler hd (s.handlerStart ir) = .ok u ∧
        t = { u with exec := ExecCtx.fresh, out := .cycles u.exec.clk } := by
  obtain rfl | rfl | ⟨dst, src, rfl | rfl⟩ := hi
  · obtain ⟨u, hrun, ht⟩ := hostStep_ok (toOutcome_eq_next.1 h)
    obtain ⟨hd, hmem, hrun⟩ := decodeAndRun_ok hrun
    exact ⟨hd, s.cpu.ir, u, .inl hmem, hrun, ht⟩
  · obtain ⟨u, hrun, ht⟩ := hostStep_ok (toOutcome_eq_next.1 h)
    obtain ⟨hd, hmem, hrun⟩ := runIndex_ok hrun
    exact ⟨hd, 0x4AFC, u, .inl hmem, hrun, ht⟩
  · obtain ⟨u, hrun, ht⟩ := hostStep_ok (toOutcome_eq_next.1 h)
    exact ⟨_, abcdWord 0 dst src, u, .inr rfl, hrun, ht⟩
  · obtain ⟨u, hrun, ht⟩ := hostStep_ok (toOutcome_eq_next.1 h)
    exact ⟨_, abcdWord 1 dst src, u, .inr rfl, hrun, ht⟩

/-- Where no handler is the host's, such an operation writes what microcode steps write, from its start on. -/
theorem runHandler_start_writesOnly {hd : Handler} {ir : Word} {s u : State} (hrom : s.rom.noHost)
    (hd' : hd ∈ s.rom.handlers ∨ hd = .pipeline abcdCode.steps (some .byte)) (h : runHandler hd (s.handlerStart ir) = .ok u) :
    WritesOnly microcodeParts (s.handlerStart ir) u := by
  refine runHandler_writesOnly ?_ h
  obtain hmem | rfl := hd'
  · exact hrom hd hmem
  · exact fun e => Handler.noConfusion e

/-! ### Every operation that runs no handler -/

/-- The parts of the host that an operation may write when it runs no handler. -/
def hostWrites : Instr → List HostPart
  | .eaStep _ _ _ _ op _ => eaWrites op
  | .stReg _ cls _ => [classPart cls]
  | .fetch => [.pc, .ir]
  | .bcd _ => [.sr]
  | .extword => [.pc]
  | .fetchw _ => [.pc]
  | .write _ _ _ => [.ram]
  | .businit _ _ _ => [.ram, .trace]
  | _ => []

section
variable {ps : List HostPart} {s t : State}

theorem inDomain_pure_writesOnly {i : Instr} {u : State} (hu : WritesOnly ps s u) (h : inDomain i (pure u) = .next t) :
    WritesOnly ps s t := by
  obtain ⟨-, hok⟩ := inDomain_eq_next.1 h
  exact Res.pure_eq_ok.1 hok ▸ hu

theorem returnValue_writesOnly {w : Size} {r : Res (Long × State)} (hr : ∀ {x u}, r = .ok (x, u) → WritesOnly ps s u)
    (h : returnValue w r = .ok t) : WritesOnly ps s t := by
  obtain ⟨⟨x, u⟩, hxu, hret⟩ := Res.bind_eq_ok.1 h
  exact Res.pure_eq_ok.1 hret ▸ (hr hxu).trans (u.returns_writesOnly _)

theorem execPatnew_writesOnly {template : List Char} (h : execPatnew template s = .next t) : WritesOnly ps s t := by
  unfold execPatnew at h
  split at h <;> cases h <;> exact State.returns_writesOnly ..

theorem execPermute_writesOnly {index : Nat} (h : execPermute index s = .next t) : WritesOnly ps s t := by
  unfold execPermute at h
  split at h
  · cases h
  · split at h
    · cases h
    · cases h; exact State.setBuilder_returns_writesOnly ..

theorem execBind_writesOnly (h : execBind s = .next t) : WritesOnly ps s t := by
  unfold execBind at h
  split at h
  · cases h; exact State.setBuilder_returns_writesOnly ..
  · cases h; exact State.returns_writesOnly ..
  · cases h

theorem execDecode_writesOnly {w : Word} (h : execDecode w s = .next t) : WritesOnly ps s t := by
  unfold execDecode at h
  split at h
  · cases h
  · cases h; exact State.returns_writesOnly ..

theorem execBusinit_writesOnly {p : BusParams} {o : Bool} {ds : List Device} (hram : .ram ∈ ps) (htrace : .trace ∈ ps)
    (h : execBusinit p o ds s = .next t) : WritesOnly ps s t := by
  obtain ⟨b, -, rfl⟩ | ⟨e, -, rfl⟩ := execBusinit_next h
  · exact ⟨fun _ => rfl, fun _ => rfl, fun _ => rfl, fun _ => rfl, fun _ => rfl, fun e => absurd hram e, .refl _,
      .of_pc_eq rfl le_rfl fun e => absurd htrace e⟩
  · exact s.returns_writesOnly _

end

/-- Every operation that runs no handler writes no parts of the host but its own. -/
theorem exec_writesOnly {i : Instr} {s t : State} (h : exec i s = .next t) (hi : ¬ runsAHandler i) :
    WritesOnly (hostWrites i) s t := by
  cases i with
  | extract | overwrite | extend | truncate | addo | subo | tobcd | frombcd | bcdadd | bcdsub | matchWord | specificity
  | szwidth | szdec | szenc | szcount | amdec | matchidx =>
    simp only [exec] at h
    exact inDomain_pure_writesOnly (s.returns_writesOnly _) h
  | visit | stub | intern =>
    simp only [exec] at h
    exact inDomain_pure_writesOnly (s.setBuilder_returns_writesOnly ..) h
  | patnew => exact execPatnew_writesOnly h
  | permute => exact execPermute_writesOnly h
  | sort => cases h; exact State.setBuilder_returns_writesOnly ..
  | compress => cases h; exact .of_cpu_eq rfl rfl le_rfl le_rfl
  | bind => exact execBind_writesOnly h
  | decode => exact execDecode_writesOnly h
  | eaStep => exact stepEa_writesOnly (List.Subset.refl _) (toOutcome_eq_next.1 h)
  | ldReg => exact stepLdReg_writesOnly (toOutcome_eq_next.1 h)
  | stReg => exact stepStReg_writesOnly (by simp [hostWrites]) (toOutcome_eq_next.1 h)
  | fetch => exact stepFetch_writesOnly (by simp [hostWrites]) (by simp [hostWrites]) (toOutcome_eq_next.1 h)
  | bcd => exact stepBcd_writesOnly (by simp [hostWrites]) (toOutcome_eq_next.1 h)
  | cycles => exact stepCycles_writesOnly (toOutcome_eq_next.1 h)
  | extword => exact returnValue_writesOnly (extword_writesOnly (by simp [hostWrites])) (toOutcome_eq_next.1 h)
  | fetchw => exact returnValue_writesOnly (fetchStream_writesOnly (by simp [hostWrites])) (toOutcome_eq_next.1 h)
  | read => exact returnValue_writesOnly memRead_writesOnly (toOutcome_eq_next.1 h)
  | write =>
    obtain ⟨-, hok⟩ := inDomain_eq_next.1 h
    exact memWrite_writesOnly (by simp [hostWrites]) hok
  | businit => exact execBusinit_writesOnly (by simp [hostWrites]) (by simp [hostWrites]) h
  | step => exact absurd (.inl rfl) hi
  | illegal => exact absurd (.inr (.inl rfl)) hi
  | abcdReg dst src => exact absurd (.inr (.inr ⟨dst, src, .inl rfl⟩)) hi
  | abcdMem dst src => exact absurd (.inr (.inr ⟨dst, src, .inr rfl⟩)) hi

/-! ### Which operations write a part -/

theorem d_mem_hostWrites {i : Instr} :
    .d ∈ hostWrites i ↔ (∃ w u c k e, i = .eaStep w u c k .store e) ∨ ∃ w p, i = .stReg w .data p := by
  cases i <;> simp [hostWrites, mem_eaWrites, eq_classPart]

theorem a_mem_hostWrites {i : Instr} :
    .a ∈ hostWrites i ↔ (∃ w u c k op e, i = .eaStep w u c k op e) ∨ ∃ w p, i = .stReg w .addr p := by
  cases i <;> simp [hostWrites, mem_eaWrites, eq_classPart]

theorem pc_mem_hostWrites {i : Instr} :
    .pc ∈ hostWrites i ↔ (∃ w u c k op e, i = .eaStep w u c k op e) ∨ i = .fetch ∨ i = .extword ∨ ∃ w, i = .fetchw w := by
  cases i <;> simp [hostWrites, mem_eaWrites, eq_classPart]

theorem ir_mem_hostWrites {i : Instr} : .ir ∈ hostWrites i ↔ i = .fetch := by
  cases i <;> simp [hostWrites, mem_eaWrites, eq_classPart]

theorem sr_mem_hostWrites {i : Instr} : .sr ∈ hostWrites i ↔ ∃ op, i = .bcd op := by
  cases i <;> simp [hostWrites, mem_eaWrites, eq_classPart]

theorem ram_mem_hostWrites {i : Instr} : .ram ∈ hostWrites i ↔
    (∃ w u c k e, i = .eaStep w u c k .store e) ∨ (∃ w a v, i = .write w a v) ∨ ∃ p o ds, i = .businit p o ds := by
  cases i <;> simp [hostWrites, mem_eaWrites, eq_classPart]

theorem trace_mem_hostWrites {i : Instr} : .trace ∈ hostWrites i ↔ ∃ p o ds, i = .businit p o ds := by
  cases i <;> simp [hostWrites, mem_eaWrites, eq_classPart]

/-! ### The obligations -/

/-- Settles O58: an operation that runs no handler writes the status register only if it is `bcd`, and what a handler's steps write of
it is flags. -/
theorem onlyTheBcdStepWritesFlags : Obligations.OnlyTheBcdStepWritesFlags := by
  intro i s t hrom h
  by_cases hi : runsAHandler i
  · obtain ⟨hd, ir, u, hmem, hrun, rfl⟩ := exec_runsAHandler hi h
    exact ⟨fun _ hn => absurd hi hn, (runHandler_start_writesOnly hrom hmem hrun).flags⟩
  · have k := exec_writesOnly h hi
    refine ⟨fun hbcd _ => k.sr fun hmem => ?_, k.flags⟩
    obtain ⟨op, rfl⟩ := sr_mem_hostWrites.1 hmem
    exact hbcd op rfl

/-- Settles O59: every microcode step only advances; a handler runs its steps from a new context, and the operations that fetch
nothing do not write `pc`. -/
theorem pcAndClockOnlyAdvance : Obligations.PcAndClockOnlyAdvance := by
  intro i s t hrom h
  by_cases hi : runsAHandler i
  · obtain ⟨hd, ir, u, hmem, hrun, rfl⟩ := exec_runsAHandler hi h
    obtain ⟨k, hpc, hclk, htrace⟩ := (runHandler_start_writesOnly hrom hmem hrun).advances
    have htrace : s.trace.length + k ≤ u.trace.length := htrace (by simp [microcodeParts])
    have hclk : 4 * k ≤ u.exec.clk := Nat.zero_add (4 * k) ▸ hclk
    exact ⟨⟨k, hpc, Nat.le_sub_of_add_le' htrace, fun hn => absurd hi hn⟩, fun _ _ _ _ hn => absurd hi hn,
      fun _ => ⟨hd, ir, u, hmem, toOutcome_eq_next.2 hrun, rfl, k, hpc, hclk⟩⟩
  · have w := exec_writesOnly h hi
    refine ⟨?_, fun hea hfetch hext hfetchw _ => w.pc fun hmem => ?_, fun hn => absurd hn hi⟩
    · obtain ⟨k, hpc, hclk, htrace⟩ := w.advances
      by_cases hbus : .trace ∈ hostWrites i
      · obtain ⟨p, o, ds, rfl⟩ := trace_mem_hostWrites.1 hbus
        exact ⟨0, by simp [w.pc (by simp [hostWrites])], Nat.zero_le _, fun _ => le_trans (Nat.le_add_right ..) hclk⟩
      · exact ⟨k, hpc, Nat.le_sub_of_add_le' (htrace hbus), fun _ => hclk⟩
    · obtain ⟨z, u, c, k, op, e, rfl⟩ | rfl | rfl | ⟨z, rfl⟩ := pc_mem_hostWrites.1 hmem
      · exact hea z u c k op e rfl
      · exact hfetch rfl
      · exact hext rfl
      · exact hfetchw z rfl

/-- Settles O60: an operation that runs no handler leaves every part of the host that is not among its own. -/
theorem registersAndRamAreWrittenOnlyByTheirOperations : Obligations.RegistersAndRamAreWrittenOnlyByTheirOperations := by
  intro i s t h hi
  have k := exec_writesOnly h hi
  refine ⟨fun hea hst => k.d fun hmem => ?_, fun hea hst => k.a fun hmem => ?_, fun hea hwr hbus => k.ram fun hmem => ?_,
    fun hfetch => k.ir fun hmem => hfetch (ir_mem_hostWrites.1 hmem)⟩
  · obtain ⟨w, u, c, p, e, rfl⟩ | ⟨w, p, rfl⟩ := d_mem_hostWrites.1 hmem
    · exact hea w u c p e rfl
    · exact hst w p rfl
  · obtain ⟨w, u, c, p, op, e, rfl⟩ | ⟨w, p, rfl⟩ := a_mem_hostWrites.1 hmem
    · exact hea w u c p op e rfl
    · exact hst w p rfl
  · obtain ⟨w, u, c, p, e, rfl⟩ | ⟨w, a, v, rfl⟩ | ⟨p, o, ds, rfl⟩ := ram_mem_hostWrites.1 hmem
    · exact hea w u c p e rfl
    · exact hwr w a v rfl
    · exact hbus p o ds rfl

end Sys2Proof.Machine
end

section
/-! The memory statements (20_memory.md): reads, writes and fetches on a valid bus, accesses that are refused, and what `init` answers. -/

namespace Sys2Proof.Machine

/-! ### Valid buses -/

theorem isPowerOfTwo_iff {n : Nat} : isPowerOfTwo n = true ↔ ∃ k, n = 2 ^ k := by
  rw [isPowerOfTwo, beq_iff_eq]
  constructor
  · exact fun h => ⟨_, h⟩
  · rintro ⟨k, rfl⟩
    rw [Nat.log2_two_pow]

/-- `init`'s check of the page size (R54; log 33). -/
theorem pageSize_check_iff {size width : Nat} :
    isPowerOfTwo size = true ∧ size ≤ 2 ^ width ↔ ∃ k, k ≤ width ∧ size = 2 ^ k := by
  rw [isPowerOfTwo_iff]
  constructor
  · rintro ⟨⟨k, rfl⟩, hle⟩
    exact ⟨k, (Nat.pow_le_pow_iff_right Nat.one_lt_two).1 hle, rfl⟩
  · rintro ⟨k, hk, rfl⟩
    exact ⟨⟨k, rfl⟩, Nat.pow_le_pow_right Nat.two_pos hk⟩

theorem Device.covers_iff {d : Device} {page : Nat} : d.covers page = true ↔ d.first ≤ page ∧ page ≤ d.last :=
  decide_eq_true_iff

/-- Two devices do not conflict exactly when no page is in both their ranges (R60). -/
theorem Device.conflicts_eq_false_iff {d e : Device} :
    d.conflicts e = false ↔ ∀ page, ¬ (d.covers page = true ∧ e.covers page = true) := by
  simp only [Device.conflicts, Device.covers_iff, decide_eq_false_iff_not]
  constructor
  · intro h page hpage
    omega
  · intro h hle
    exact h (max d.first e.first) (by omega)

/-- The page ranges share no page (R60), said of the pages. -/
theorem pairwise_conflicts_iff {ds : List Device} :
    ds.Pairwise (fun d e => d.conflicts e = false) ↔
      ds.Pairwise (fun d e => ∀ page, ¬ (d.first ≤ page ∧ page ≤ d.last ∧ e.first ≤ page ∧ page ≤ e.last)) := by
  simp only [Device.conflicts_eq_false_iff, Device.covers_iff, and_assoc]

/-- Where no two devices conflict, a page is in the range of at most one place of the list. -/
theorem place_eq_of_covers {ds : List Device} (h : ds.Pairwise (fun d e => d.conflicts e = false)) {i j page : Nat} {d e : Device}
    (hi : ds[i]? = some d) (hj : ds[j]? = some e) (hd : d.covers page = true) (he : e.covers page = true) : j = i := by
  obtain ⟨hilt, rfl⟩ := List.getElem?_eq_some_iff.1 hi
  obtain ⟨hjlt, rfl⟩ := List.getElem?_eq_some_iff.1 hj
  rw [List.pairwise_iff_getElem] at h
  by_contra hne
  obtain hlt | hlt := Nat.lt_or_gt_of_ne hne
  · exact Device.conflicts_eq_false_iff.1 (h j i hjlt hilt hlt) page ⟨he, hd⟩
  · exact Device.conflicts_eq_false_iff.1 (h i j hilt hjlt hlt) page ⟨hd, he⟩

section
variable {b : Bus}

theorem Bus.valid.pageSize (h : b.valid) : ∃ k, k ≤ b.params.addrWidth ∧ b.params.pageSize = 2 ^ k := by
  obtain ⟨hpow, hle, -⟩ := h
  exact pageSize_check_iff.1 ⟨hpow, hle⟩

theorem Bus.valid.few (h : b.valid) : b.devices.length ≤ b.params.maxDevices := by
  obtain ⟨-, -, hfew, -⟩ := h
  exact hfew

theorem Bus.valid.disjoint (h : b.valid) : b.devices.Pairwise (fun d e => d.conflicts e = false) := by
  obtain ⟨-, -, -, hdisjoint, -⟩ := h
  exact hdisjoint

theorem Bus.valid.pageTable_length (h : b.valid) : b.pageTable.length = b.params.numPages := by
  obtain ⟨-, -, -, -, hlen, -⟩ := h
  exact hlen

/-- Every page has an owner, which the page table names (R55, R57, R59). -/
theorem Bus.valid.pageOwned (h : b.valid) {page : Nat} (hp : page < b.params.numPages) :
    (∃ i d, b.devices[i]? = some d ∧ d.covers page = true ∧ b.pageTable[page]? = some i) ∨
      (b.openBus = true ∧ b.pageTable[page]? = some b.devices.length ∧ ∀ d ∈ b.devices, d.covers page = false) := by
  obtain ⟨-, -, -, -, -, howned⟩ := h
  obtain ⟨i, hi, ⟨d, hd, hc⟩ | ⟨ho, rfl, hnone⟩⟩ := howned page hp
  · exact .inl ⟨i, d, hd, hc, hi⟩
  · exact .inr ⟨ho, hi, hnone⟩

/-- A bus that is valid has an open bus, or a device for each page (R57). -/
theorem Bus.valid.mapped (h : b.valid) :
    b.openBus = true ∨ ∀ page < b.params.numPages, ∃ d ∈ b.devices, d.covers page = true := by
  refine or_iff_not_imp_left.2 fun ho page hp => ?_
  obtain ⟨i, d, hd, hc, -⟩ | ⟨ho', -⟩ := h.pageOwned hp
  · exact ⟨d, List.mem_of_getElem? hd, hc⟩
  · exact absurd ho' ho

theorem Bus.valid.numPages_pos (h : b.valid) : 0 < b.params.numPages := by
  obtain ⟨k, hk, hsize⟩ := h.pageSize
  rw [BusParams.numPages, hsize]
  exact Nat.div_pos (Nat.pow_le_pow_right Nat.two_pos hk) (Nat.two_pow_pos k)

/-- Every address the bus sees is on a page (R55, R64). -/
theorem Bus.valid.page_lt (h : b.valid) (addr : Long) : b.address addr / b.params.pageSize < b.params.numPages := by
  obtain ⟨k, hk, hsize⟩ := h.pageSize
  rw [BusParams.numPages, hsize]
  exact Nat.div_lt_div_of_lt_of_dvd (Nat.pow_dvd_pow 2 hk) (Nat.mod_lt _ (Nat.two_pow_pos _))

theorem Bus.owner_of_device {a i : Nat} {d : Device} (hi : b.deviceAt a = some i) (hd : b.devices[i]? = some d) :
    b.owner a = some (i, d.kind, a - d.first * b.params.pageSize) := by
  simp only [Bus.owner, hi, hd]

theorem Bus.owner_of_openBus {a : Nat} (ho : b.openBus = true) (hi : b.deviceAt a = some b.devices.length) :
    b.owner a = some (b.devices.length, .openBus, a) := by
  simp [Bus.owner, hi, ho]

/-- A byte of RAM is on a page that a device covers (R55, R59). -/
theorem Bus.valid.covered_of_ram (h : b.valid) {a i l : Nat} (hr : b.owner a = some (i, .ram, l)) :
    ∃ d ∈ b.devices, d.covers (a / b.params.pageSize) = true := by
  obtain ⟨hp, -⟩ := List.getElem?_eq_some_iff.1 (Bus.deviceAt_of_owner hr)
  rw [h.pageTable_length] at hp
  obtain ⟨j, d, hd, hc, -⟩ | ⟨ho, hj, -⟩ := h.pageOwned hp
  · exact ⟨d, List.mem_of_getElem? hd, hc⟩
  · rw [Bus.owner_of_openBus ho hj] at hr
    cases hr

/-- Every address of a valid bus has an owner: the open bus where no device covers its page (R57, R59). -/
theorem Bus.valid.exists_owner (h : b.valid) (addr : Long) :
    ∃ i kind l, b.owner (b.address addr) = some (i, kind, l) ∧
      ((∀ d ∈ b.devices, d.covers (b.address addr / b.params.pageSize) = false) → kind = .openBus) := by
  obtain ⟨i, d, hd, hc, hi⟩ | ⟨ho, hi, -⟩ := h.pageOwned (h.page_lt addr)
  · refine ⟨i, d.kind, _, Bus.owner_of_device hi hd, fun hnone => ?_⟩
    rw [hnone d (List.mem_of_getElem? hd)] at hc
    cases hc
  · exact ⟨_, _, _, Bus.owner_of_openBus ho hi, fun _ => rfl⟩

end

/-! ### Accesses on a valid bus -/

theorem State.accessAt_of_owner {s : State} {addr : Long} {i : Nat} {kind : DeviceKind} {l : Nat}
    (h : s.bus.owner (s.bus.address addr) = some (i, kind, l)) (mask : Word) (data : Option Word) :
    s.accessAt addr mask data = { device := i, localAddr := l, mask := mask.toNat, data := data.map BitVec.toNat } := by
  simp only [State.accessAt, h]

/-- A masked position of an answer is 0 (R61). -/
theorem deviceAnswer_and_mask {w : Nat} (b : Bus) (kind : DeviceKind) (i a : Nat) (mem : Memory) (trace : List BusAccess)
    (mask : BitVec w) : deviceAnswer b kind i a mem trace mask &&& mask = 0 := by
  have hclear : ∀ x : BitVec w, x &&& ~~~mask &&& mask = 0 := fun x => by
    ext i
    simp
  cases kind with
  | ram => exact hclear _
  | openBus => exact BitVec.zero_and
  | external id => exact hclear _

/-- A device that is no RAM leaves RAM as it was (R59). -/
theorem deviceStore_of_ne_ram {w : Nat} {b : Bus} {kind : DeviceKind} {i a : Nat} {mem : Memory} {mask data : BitVec w}
    (h : kind ≠ .ram) : deviceStore b kind i a mem mask data = mem := by
  cases kind with
  | ram => exact absurd rfl h
  | openBus => rfl
  | external id => rfl

/-- A bus read on a valid bus is answered, by 0 where no device covers the page (R57, R59). -/
theorem busRead_of_valid {s : State} (h : s.bus.valid) (addr : Long) (mask : Word) :
    ∃ x, busRead addr mask s = .ok (x, { s with trace := s.trace ++ [s.accessAt addr mask none] }) ∧
      ((∀ d ∈ s.bus.devices, d.covers (s.bus.address addr / s.bus.params.pageSize) = false) → x = 0) := by
  obtain ⟨i, kind, l, ho, hopen⟩ := h.exists_owner addr
  rw [busRead_of_owner mask ho, s.accessAt_of_owner ho, Option.map_none]
  refine ⟨_, rfl, fun hnone => ?_⟩
  rw [hopen hnone]
  rfl

/-- A bus write on a valid bus that meets no RAM changes nothing but the transactions (R58, R59). -/
theorem busWrite_of_not_ram {s : State} (h : s.bus.valid) {addr : Long} (hram : ¬ s.ramAt (s.bus.address addr))
    (mask data : Word) :
    busWrite addr mask data s = .ok { s with trace := s.trace ++ [s.accessAt addr mask (some data)] } := by
  obtain ⟨i, kind, l, ho, -⟩ := h.exists_owner addr
  have hkind : kind ≠ .ram := by
    rintro rfl
    exact hram ⟨i, l, ho⟩
  rw [busWrite_of_owner mask data ho, s.accessAt_of_owner ho, deviceStore_of_ne_ram hkind, Option.map_some]

/-- The addresses handed to the bus are among those that the access covers. -/
theorem Bus.handed_subset_covered (b : Bus) (w : Size) (addr : Long) : b.handed w addr ⊆ b.covered w addr := by
  cases w with
  | byte => simp [Bus.handed, covered_byte]
  | word => simp [Bus.handed, covered_word]
  | long => simp [Bus.handed, covered_long]

theorem laneByte_zero (addr : Long) : laneByte addr 0 = 0 := by
  unfold laneByte
  split <;> rfl

/-- An aligned read on a valid bus is answered, by 0 where no device covers its pages (R57, R59, R66, R67, R68). -/
theorem memRead_of_ready {s : State} {w : Size} {addr : Long} (hready : s.bus.ready) (he : w = .byte ∨ isOdd addr = false) :
    ∃ x, memRead w addr s = .ok (x, s.afterRead w addr) ∧
      ((∀ a ∈ s.bus.handed w addr, ∀ d ∈ s.bus.devices, d.covers (a / s.bus.params.pageSize) = false) → x = 0) := by
  obtain ⟨hvalid, hw⟩ := hready
  unfold memRead
  rw [if_neg (not_not.2 hw)]
  cases w with
  | byte =>
    obtain ⟨x, hx, hzero⟩ := busRead_of_valid hvalid addr (laneMask addr)
    refine ⟨zext 32 (laneByte addr x), by rw [hx]; rfl, fun hnone => ?_⟩
    rw [hzero (hnone _ (by simp [Bus.handed])), laneByte_zero]
    rfl
  | word =>
    have he : isOdd addr = false := by simpa using he
    obtain ⟨x, hx, hzero⟩ := busRead_of_valid hvalid addr 0
    refine ⟨zext 32 x, by simp only [he, hx]; rfl, fun hnone => ?_⟩
    rw [hzero (hnone _ (by simp [Bus.handed]))]
    rfl
  | long =>
    have he : isOdd addr = false := by simpa using he
    obtain ⟨x, hx, hxzero⟩ := busRead_of_valid hvalid addr 0
    obtain ⟨y, hy, hyzero⟩ := busRead_of_valid (s := { s with trace := s.trace ++ [s.accessAt addr 0 none] }) hvalid (addr + 2) 0
    refine ⟨x ++ y, ?_, fun hnone => ?_⟩
    · simp only [he, hx, hy, Res.ok_bind, List.append_assoc]
      rfl
    · rw [hxzero (hnone _ (by simp [Bus.handed])), hyzero (hnone _ (by simp [Bus.handed]))]
      rfl

/-- An aligned write on a valid bus that meets no RAM completes and leaves RAM as it was (R58, R59, R69, R70, R71). -/
theorem memWrite_of_not_ram {s : State} {w : Size} {addr : Long} (hready : s.bus.ready) (he : w = .byte ∨ isOdd addr = false)
    (hram : ∀ a ∈ s.bus.handed w addr, ¬ s.ramAt a) (v : Long) :
    memWrite w addr v s = .ok (s.afterWrite w addr v s.mem) := by
  obtain ⟨hvalid, hw⟩ := hready
  unfold memWrite
  rw [if_neg (not_not.2 hw)]
  cases w with
  | byte =>
    rw [busWrite_of_not_ram hvalid (hram _ (by simp [Bus.handed]))]
    cases ho : isOdd addr with
    | true => simp only [State.afterWrite, State.writeAccesses, laneMask, laneWord, ho, if_true]; rfl
    | false => simp only [State.afterWrite, State.writeAccesses, laneMask, laneWord, ho]; rfl
  | word =>
    have he : isOdd addr = false := by simpa using he
    simp only [he, busWrite_of_not_ram hvalid (hram (s.bus.address addr) (by simp [Bus.handed]))]
    rfl
  | long =>
    have he : isOdd addr = false := by simpa using he
    have hlow : (extract v 0 16 : Word) = v.setWidth 16 := by
      ext i hi
      simp [extract]
    have hsecond := busWrite_of_not_ram (s := { s with trace := s.trace ++ [s.accessAt addr 0 (some (extract v 16 16))] })
      hvalid (addr := addr + 2) (hram _ (by simp [Bus.handed]))
    simp only [he, busWrite_of_not_ram hvalid (hram (s.bus.address addr) (by simp [Bus.handed])), hsecond, Res.ok_bind,
      List.append_assoc, hlow]
    rfl

theorem zext_toNat_lt {n : Nat} (m : Nat) (x : BitVec n) : (zext m x).toNat < 2 ^ n := by
  rw [zext, BitVec.toNat_setWidth]
  exact Nat.lt_of_le_of_lt (Nat.mod_le ..) x.isLt

/-- A read gives a value of its width. -/
theorem memRead_toNat_lt {w : Size} {addr x : Long} {s t : State} (h : memRead w addr s = .ok (x, t)) :
    x.toNat < 2 ^ w.bits := by
  unfold memRead at h
  split at h
  · simp at h
  cases w with
  | byte =>
    obtain ⟨⟨y, u⟩, -, hret⟩ := Res.bind_eq_ok.1 h
    cases hret
    exact zext_toNat_lt 32 (laneByte addr y)
  | word =>
    simp only at h
    split at h
    · simp at h
    obtain ⟨⟨y, u⟩, -, hret⟩ := Res.bind_eq_ok.1 h
    cases hret
    exact zext_toNat_lt 32 y
  | long => exact x.isLt

/-! ### `READ`, `WRITE` and `FETCHW` by the accesses they make -/

theorem toOutcome_refuse (r : Refusal) : toOutcome (refuse r) = .refused r := rfl

theorem returnValue_ok (w : Size) (x : Long) (s : State) :
    returnValue w (.ok (x, s)) = .ok { s with out := .bits w.bits x.toNat } := rfl

theorem exec_read_of_ok {w : Size} {addr x : Long} {s t : State} (h : memRead w addr s = .ok (x, t)) :
    exec (.read w addr) s = .next { t with out := .bits w.bits x.toNat } := by
  rw [exec, execRead, h, returnValue_ok, toOutcome_eq_next]

theorem exec_read_eq_next {w : Size} {addr : Long} {s u : State} (h : exec (.read w addr) s = .next u) :
    ∃ x t, memRead w addr s = .ok (x, t) ∧ u = { t with out := .bits w.bits x.toNat } := by
  rw [exec, execRead, toOutcome_eq_next] at h
  obtain ⟨⟨x, t⟩, hread, hret⟩ := Res.bind_eq_ok.1 h
  exact ⟨x, t, hread, (Res.pure_eq_ok.1 hret).symm⟩

theorem exec_read_eq_refused {w : Size} {addr : Long} {s : State} {r : Refusal} :
    exec (.read w addr) s = .refused r ↔ memRead w addr s = refuse r := by
  rw [exec, execRead]
  match memRead w addr s with
  | .ok (x, t) => exact ⟨fun h => (by cases h), fun h => (by cases h)⟩
  | .error (.fault f) => exact ⟨fun h => (by cases h), fun h => (by cases h)⟩
  | .error (.refused q) => exact ⟨fun h => (by cases h; rfl), fun h => (by cases h; rfl)⟩

theorem exec_write {w : Size} {addr v : Long} (hv : v.toNat < 2 ^ w.bits) (s : State) :
    exec (.write w addr v) s = toOutcome (memWrite w addr v s) :=
  inDomain_of_wf (i := .write w addr v) (decide_eq_true hv) _

theorem exec_write_of_ok {w : Size} {addr v : Long} {s t : State} (hv : v.toNat < 2 ^ w.bits)
    (h : memWrite w addr v s = .ok t) : exec (.write w addr v) s = .next t := by
  rw [exec_write hv, h, toOutcome_eq_next]

theorem exec_fetchw_of_ok {w : Size} {x : Long} {s t : State} (h : fetchStream w s = .ok (x, t)) :
    exec (.fetchw w) s = .next { t with out := .bits w.bits x.toNat } := by
  rw [exec, execFetchw, h, returnValue_ok, toOutcome_eq_next]

theorem zeroLow_toNat (w : Size) (x : Long) : (Size.zeroLow w x).toNat = x.toNat % 2 ^ w.bits := by
  rw [Size.zeroLow, zext, truncate, BitVec.toNat_setWidth, BitVec.toNat_setWidth]
  refine Nat.mod_eq_of_lt (Nat.lt_of_lt_of_le (Nat.mod_lt _ (Nat.two_pow_pos _)) (Nat.pow_le_pow_right Nat.two_pos ?_))
  cases w <;> decide

theorem zeroLow_of_lt {w : Size} {x : Long} (h : x.toNat < 2 ^ w.bits) : Size.zeroLow w x = x :=
  BitVec.eq_of_toNat_eq ((zeroLow_toNat w x).trans (Nat.mod_eq_of_lt h))

/-- A fetch is a read at `pc`, then `pc` past the words (R72). -/
theorem fetchStream_of_memRead {w : Size} {x : Long} {s t : State}
    (h : memRead (Size.fetchAccess w) s.cpu.pc s = .ok (x, t)) :
    fetchStream w s = .ok (Size.zeroLow w x, t.setPc (s.cpu.pc + (if w = .long then 4 else 2))) := by
  cases w with
  | byte =>
    rw [fetchStream, show memRead .word s.cpu.pc s = .ok (x, t) from h]
    rfl
  | word =>
    rw [fetchStream, show memRead .word s.cpu.pc s = .ok (x, t) from h, zeroLow_of_lt (w := .word) (memRead_toNat_lt h)]
    rfl
  | long =>
    rw [fetchStream, show memRead .long s.cpu.pc s = .ok (x, t) from h, zeroLow_of_lt (w := .long) (memRead_toNat_lt h)]
    rfl

theorem ramValue_word_toNat (s : State) (addr : Long) : (s.ramValue .word addr).toNat = (s.wordAt addr).toNat :=
  BitVec.toNat_setWidth_of_le (by decide)

theorem ramValue_long_toNat (s : State) (addr : Long) :
    (s.ramValue .long addr).toNat = (s.wordAt addr).toNat * 2 ^ 16 + (s.wordAt (addr + 2)).toNat := by
  rw [State.ramValue, BitVec.toNat_append, ← Nat.shiftLeft_add_eq_or_of_lt (s.wordAt (addr + 2)).isLt, Nat.shiftLeft_eq]

/-- `FETCHW` from RAM. -/
theorem exec_fetchw_ram {s : State} {w : Size} (h : s.streamReady w) :
    exec (.fetchw w) s = .next
      { s.afterFetch w with out := .bits w.bits ((s.ramValue (Size.fetchAccess w) s.cpu.pc).toNat % 2 ^ w.bits) } := by
  rw [exec_fetchw_of_ok (fetchStream_of_memRead (memRead_ram h)), zeroLow_toNat]
  rfl

/-! ### Refusals -/

/-- A fetch is refused as its read is (R72). -/
theorem fetchStream_of_refused {w : Size} {s : State} {r : Refusal}
    (h : memRead (Size.fetchAccess w) s.cpu.pc s = refuse r) : fetchStream w s = refuse r := by
  cases w <;>
  · rw [Size.fetchAccess] at h
    rw [fetchStream, h]
    rfl

theorem exec_fetchw_of_refused {w : Size} {s : State} {r : Refusal} (h : fetchStream w s = refuse r) :
    exec (.fetchw w) s = .refused r := by
  rw [exec, execFetchw, h]
  rfl

theorem exec_fetch_of_refused {s : State} {r : Refusal} (h : fetchStream .word s = refuse r) : exec .fetch s = .refused r := by
  rw [exec, execFetch, stepFetch, h]
  rfl

theorem exec_extword_of_refused {s : State} {r : Refusal} (h : fetchStream .word s = refuse r) :
    exec .extword s = .refused r := by
  rw [exec, execExtword, extword, h]
  rfl

theorem exec_write_of_refused {w : Size} {addr v : Long} {s : State} {r : Refusal} (hv : v.toNat < 2 ^ w.bits)
    (h : memWrite w addr v s = refuse r) : exec (.write w addr v) s = .refused r := by
  rw [exec_write hv, h, toOutcome_refuse]

/-- A word or long read at an odd address is refused (R74). -/
theorem memRead_odd {w : Size} {addr : Long} {s : State} (hb : s.bus.params.dataWidth = 16) (hw : w ≠ .byte)
    (ho : isOdd addr = true) : memRead w addr s = refuse .oddAddress := by
  unfold memRead
  rw [if_neg (not_not.2 hb)]
  cases w with
  | byte => exact absurd rfl hw
  | word => exact if_pos ho
  | long => exact if_pos ho

/-- A word or long write at an odd address is refused (R74). -/
theorem memWrite_odd {w : Size} {addr : Long} {s : State} (hb : s.bus.params.dataWidth = 16) (hw : w ≠ .byte)
    (ho : isOdd addr = true) (v : Long) : memWrite w addr v s = refuse .oddAddress := by
  unfold memWrite
  rw [if_neg (not_not.2 hb)]
  cases w with
  | byte => exact absurd rfl hw
  | word => exact if_pos ho
  | long => exact if_pos ho

theorem memRead_noExecutionContext {s : State} (hb : s.bus.params.dataWidth ≠ 16) (w : Size) (addr : Long) :
    memRead w addr s = refuse .noExecutionContext := if_pos hb

theorem memWrite_noExecutionContext {s : State} (hb : s.bus.params.dataWidth ≠ 16) (w : Size) (addr v : Long) :
    memWrite w addr v s = refuse .noExecutionContext := if_pos hb

/-- A fetch of any width at an odd address is refused: it reads a word or a long (R72, R74). -/
theorem fetchStream_odd {s : State} (hb : s.bus.params.dataWidth = 16) (ho : isOdd s.cpu.pc = true) (w : Size) :
    fetchStream w s = refuse .oddAddress :=
  fetchStream_of_refused (memRead_odd hb (by cases w <;> decide) ho)

theorem fetchStream_noExecutionContext {s : State} (hb : s.bus.params.dataWidth ≠ 16) (w : Size) :
    fetchStream w s = refuse .noExecutionContext :=
  fetchStream_of_refused (memRead_noExecutionContext hb ..)

/-! ### `init` -/

theorem initBus_parts {p : BusParams} {o : Bool} {ds : List Device} {b : Bus} (h : initBus p o ds = .ok b) :
    b.params = p ∧ b.openBus = o ∧ b.devices = ds := by
  unfold initBus at h
  split at h
  · cases h
  split at h
  · cases h
  split at h
  · cases h
  split at h
  · cases h
  cases h
  exact ⟨rfl, rfl, rfl⟩

/-- A page without an owner: no open bus and no device that covers it (R55, R59). -/
theorem pageOwner_eq_none {o : Bool} {ds : List Device} {page : Nat} (h : pageOwner o ds page = none) :
    o = false ∧ ∀ d ∈ ds, ¬ d.covers page = true := by
  simp only [pageOwner] at h
  split at h
  · cases h
  rename_i hidx
  split at h
  · cases h
  rename_i ho
  refine ⟨Bool.eq_false_iff.2 ho, fun d hd hc => hidx ?_⟩
  exact List.findIdx_lt_length.2 ⟨d, hd, hc⟩

theorem exists_eq_none_of_mapM_eq_none {α β : Type} {f : α → Option β} {xs : List α} (h : xs.mapM f = none) :
    ∃ x ∈ xs, f x = none := by
  induction xs with
  | nil => cases h
  | cons x xs ih =>
    cases hx : f x with
    | none => exact ⟨x, List.mem_cons_self, hx⟩
    | some y =>
      have hxs : xs.mapM f = none := by
        cases hys : xs.mapM f with
        | none => rfl
        | some ys => simp [List.mapM_cons, hx, hys] at h
      obtain ⟨z, hz, hnone⟩ := ih hxs
      exact ⟨z, List.mem_cons_of_mem x hz, hnone⟩

/-- A page table that cannot be built has a page without an owner (R57). -/
theorem buildPageTable_eq_none {o : Bool} {ds : List Device} {n : Nat} (h : buildPageTable o ds n = none) :
    ∃ page < n, o = false ∧ ∀ d ∈ ds, ¬ d.covers page = true := by
  obtain ⟨page, hp, hnone⟩ := exists_eq_none_of_mapM_eq_none h
  exact ⟨page, List.mem_range.1 hp, pageOwner_eq_none hnone⟩

/-- `init` answers an error only where the check that it names fails (R60, R300). -/
theorem initBus_error {p : BusParams} {o : Bool} {ds : List Device} {e : ConstructionError} (h : initBus p o ds = .error e) :
    (e = .badPageSize ∧ ¬ ∃ k, k ≤ p.addrWidth ∧ p.pageSize = 2 ^ k) ∨
    (e = .conflictingDeviceMappings ∧ ¬ ds.Pairwise (fun d e => d.conflicts e = false)) ∨
    (e = .unmappedPages ∧ ¬ (o = true ∨ ∀ page < p.numPages, ∃ d ∈ ds, d.covers page = true)) ∨
    (e = .maxDeviceLimitReached ∧ ¬ ds.length ≤ p.maxDevices) := by
  unfold initBus at h
  split at h
  · rename_i hsize
    cases h
    refine .inl ⟨rfl, fun hfit => ?_⟩
    obtain ⟨hpow, hle⟩ := pageSize_check_iff.2 hfit
    obtain hpow' | hgt := hsize
    · exact Bool.eq_false_iff.1 hpow' hpow
    · exact Nat.not_lt.2 hle hgt
  split at h
  · rename_i hconflict
    cases h
    exact .inr (.inl ⟨rfl, hconflict⟩)
  split at h
  · rename_i htable
    cases h
    obtain ⟨page, hp, ho, hnone⟩ := buildPageTable_eq_none htable
    refine .inr (.inr (.inl ⟨rfl, ?_⟩))
    rintro (ho' | hall)
    · exact Bool.eq_false_iff.1 ho ho'
    · obtain ⟨d, hd, hc⟩ := hall page hp
      exact hnone d hd hc
  split at h
  · rename_i hmany
    cases h
    exact .inr (.inr (.inr ⟨rfl, Nat.not_le.2 hmany⟩))
  · cases h

theorem exec_businit_of_ok {p : BusParams} {o : Bool} {ds : List Device} {b : Bus} (h : initBus p o ds = .ok b) (s : State) :
    exec (.businit p o ds) s = .next { s with bus := b, mem := [], trace := [], out := .bus } := by
  rw [exec, execBusinit, inDomain_of_wf rfl, h]
  rfl

theorem exec_businit_of_error {p : BusParams} {o : Bool} {ds : List Device} {e : ConstructionError}
    (h : initBus p o ds = .error e) (s : State) : exec (.businit p o ds) s = .next { s with out := .error e } := by
  rw [exec, execBusinit, inDomain_of_wf rfl, h]
  rfl

/-! ### The obligations -/

/-- Settles O46: a fetch is a read at `pc`, and a read gives a value of its width. -/
theorem fetchwReadsTheStream : Obligations.FetchwReadsTheStream := by
  refine ⟨fun s w => ⟨fun u x hu hout => ?_, fun r hr => ?_⟩, fun s => ⟨fun h => ⟨?_, ?_⟩, fun h => ?_⟩⟩
  · obtain ⟨y, t, hread, rfl⟩ := exec_read_eq_next hu
    obtain ⟨-, rfl⟩ := Result.bits.inj hout
    rw [exec_fetchw_of_ok (fetchStream_of_memRead hread), zeroLow_toNat]
    obtain ⟨-, -, xs, rfl⟩ := memRead_ok hread
    rfl
  · exact exec_fetchw_of_refused (fetchStream_of_refused (exec_read_eq_refused.1 hr))
  · rw [exec_fetchw_ram (w := .byte) h, Size.fetchAccess, ramValue_word_toNat]
    rfl
  · rw [exec_fetchw_ram (w := .word) h, Size.fetchAccess, ramValue_word_toNat, Size.bits, Nat.mod_eq_of_lt (s.wordAt s.cpu.pc).isLt]
    rfl
  · rw [exec_fetchw_ram (w := .long) h, Size.fetchAccess, Size.bits, Nat.mod_eq_of_lt (s.ramValue .long s.cpu.pc).isLt,
      ramValue_long_toNat]
    rfl

/-- Settles O47: `READ` is the context's read, which from RAM gives the bytes big-endian. -/
theorem readReturnsBigEndianRam : Obligations.ReadReturnsBigEndianRam :=
  fun _ _ _ h => exec_read_of_ok (memRead_ram h)

/-- Settles O49: a valid bus owns each of its pages once, so that every address has an owner, which answers. -/
theorem readsNeverTrapOnAValidBus : Obligations.ReadsNeverTrapOnAValidBus := by
  refine ⟨fun b h => ⟨h.numPages_pos, fun page hp => ?_⟩, fun s w addr hready he => ?_, fun s w addr mask h => ?_⟩
  · obtain ⟨i, d, hd, hc, hi⟩ | hopen := h.pageOwned hp
    · exact .inl ⟨i, d, hd, hc, hi, fun j e hj he => place_eq_of_covers h.disjoint hd hj hc he⟩
    · exact .inr hopen
  · obtain ⟨x, hread, -⟩ := memRead_of_ready hready he
    exact ⟨x.toNat, s.readAccesses w addr, memRead_toNat_lt hread, exec_read_of_ok hread⟩
  · obtain ⟨i, kind, l, ho, -⟩ := h.exists_owner addr
    exact ⟨_, _, deviceAnswer_and_mask .., busRead_of_owner mask ho⟩

/-- Settles O50: on a valid bus an access meets the owner of each address that it hands to the bus, the open bus where no device covers
the page. -/
theorem openBusReadsZeroAndDiscardsWrites : Obligations.OpenBusReadsZeroAndDiscardsWrites := by
  refine ⟨fun s w addr v hready he hv hnone => ?_, fun s w addr v hready he hv hram => ?_⟩
  · have hhanded : ∀ a ∈ s.bus.handed w addr, ∀ d ∈ s.bus.devices, d.covers (a / s.bus.params.pageSize) = false :=
      fun a ha => hnone a (s.bus.handed_subset_covered w addr ha)
    have hram : ∀ a ∈ s.bus.handed w addr, ¬ s.ramAt a := by
      rintro a ha ⟨i, l, ho⟩
      obtain ⟨hvalid, -⟩ := hready
      obtain ⟨d, hd, hc⟩ := hvalid.covered_of_ram ho
      exact Bool.eq_false_iff.1 (hhanded a ha d hd) hc
    obtain ⟨x, hread, hzero⟩ := memRead_of_ready hready he
    have h0 : x = 0 := hzero hhanded
    subst h0
    exact ⟨exec_read_of_ok hread, exec_write_of_ok hv (memWrite_of_not_ram hready he hram v)⟩
  · exact exec_write_of_ok hv (memWrite_of_not_ram hready he (fun a ha => hram a (s.bus.handed_subset_covered w addr ha)) v)

/-- Settles O51: a fetch and each of its kinds is refused as its read is. -/
theorem oddWordAccessesAreRefused : Obligations.OddWordAccessesAreRefused := by
  refine ⟨fun s w addr v hb hw ho hv => ⟨?_, ?_⟩, fun s w hb ho => ⟨?_, ?_, ?_⟩, fun s w addr v hb hv => ⟨?_, ?_, ?_, ?_, ?_⟩⟩
  · exact exec_read_eq_refused.2 (memRead_odd hb hw ho)
  · exact exec_write_of_refused hv (memWrite_odd hb hw ho v)
  · exact exec_fetchw_of_refused (fetchStream_odd hb ho w)
  · exact exec_fetch_of_refused (fetchStream_odd hb ho .word)
  · exact exec_extword_of_refused (fetchStream_odd hb ho .word)
  · exact exec_read_eq_refused.2 (memRead_noExecutionContext hb w addr)
  · exact exec_write_of_refused hv (memWrite_noExecutionContext hb w addr v)
  · exact exec_fetchw_of_refused (fetchStream_noExecutionContext hb w)
  · exact exec_fetch_of_refused (fetchStream_noExecutionContext hb .word)
  · exact exec_extword_of_refused (fetchStream_noExecutionContext hb .word)

/-- Settles O52: `init` names a check that fails, and a valid bus passes every check. -/
theorem businitBuildsAValidBusOrSaysWhy : Obligations.BusinitBuildsAValidBusOrSaysWhy := by
  intro s p o ds pow disjoint mapped few
  have hdisjoint : disjoint ↔ ds.Pairwise (fun d e => d.conflicts e = false) := pairwise_conflicts_iff.symm
  have hmapped : mapped ↔ (o = true ∨ ∀ page < p.numPages, ∃ d ∈ ds, d.covers page = true) := by
    simp only [Device.covers_iff]
    rfl
  rw [hdisjoint, hmapped]
  cases hinit : initBus p o ds with
  | ok b =>
    have hb := initBus_valid hinit
    obtain ⟨rfl, rfl, rfl⟩ := initBus_parts hinit
    exact ⟨fun _ => ⟨b, hb, rfl, rfl, rfl, exec_businit_of_ok hinit s⟩,
      fun hfail => absurd ⟨hb.pageSize, hb.disjoint, hb.mapped, hb.few⟩ hfail⟩
  | error e =>
    have hcause := initBus_error hinit
    refine ⟨fun ⟨hpow, hdis, hmap, hfew⟩ => ?_, fun _ => ⟨e, exec_businit_of_error hinit s, hcause⟩⟩
    obtain ⟨-, hn⟩ | ⟨-, hn⟩ | ⟨-, hn⟩ | ⟨-, hn⟩ := hcause
    · exact absurd hpow hn
    · exact absurd hdis hn
    · exact absurd hmap hn
    · exact absurd hfew hn

end Sys2Proof.Machine
end

section
/-! The encoding statements (30_encoding.md): a reader of operand words reads back what the encoder writes, the select codes that are
assigned, and the opcode words of the table. -/

namespace Sys2Proof

/-! ### Readers of operand words -/

section
variable {α β : Type}

@[simp] theorem Parse.bind_apply (p : Parse α) (f : α → Parse β) (ws : List Nat) :
    (p >>= f) ws = p ws >>= fun r => f r.1 r.2 := rfl

@[simp] theorem Parse.map_apply (f : α → β) (p : Parse α) (ws : List Nat) :
    (f <$> p) ws = p ws >>= fun r => .ok (f r.1, r.2) := rfl

@[simp] theorem Parse.pure_apply (a : α) (ws : List Nat) : (pure a : Parse α) ws = .ok (a, ws) := rfl

@[simp] theorem Parse.ok_bind (a : α) (f : α → Except DecodeError β) : ((.ok a : Except DecodeError α) >>= f) = f a := rfl

@[simp] theorem nextWord_cons (n : Nat) (ws : List Nat) : nextWord (n :: ws) = .ok (n, ws) := rfl

@[simp] theorem bitsOperand_toNat {w : Nat} (x : BitVec w) (ws : List Nat) : bitsOperand w (x.toNat :: ws) = .ok (x, ws) := by
  simp [bitsOperand, x.isLt]

/-- The place of an entry names the entry. -/
theorem getElem?_indexWord [DecidableEq α] {xs : List α} {a : α} (h : a ∈ xs) : xs[indexWord xs a]? = some a := by
  have hlt : indexWord xs a < xs.length := List.findIdx_lt_length_of_exists ⟨a, h, by simp⟩
  have heq : xs[indexWord xs a] = a := of_decide_eq_true (List.findIdx_getElem (w := hlt))
  rw [List.getElem?_eq_getElem hlt, heq]

theorem oneOf_indexWord [DecidableEq α] {xs : List α} {a : α} (h : a ∈ xs) (ws : List Nat) :
    oneOf xs (indexWord xs a :: ws) = .ok (a, ws) := by
  simp [oneOf, getElem?_indexWord h]

/-- A list of operands, where `p` reads back the words of every entry. -/
theorem listOperand_flatMap {p : Parse α} {words : α → List Nat} (h : ∀ a ws, p (words a ++ ws) = .ok (a, ws)) (xs : List α)
    (ws : List Nat) : listOperand p xs.length (xs.flatMap words ++ ws) = .ok (xs, ws) := by
  induction xs with
  | nil => rfl
  | cons x xs ih => simp [listOperand, h, ih]

theorem countedOperand_flatMap {p : Parse α} {words : α → List Nat} (h : ∀ a ws, p (words a ++ ws) = .ok (a, ws)) (xs : List α)
    (ws : List Nat) : countedOperand p (xs.length :: (xs.flatMap words ++ ws)) = .ok (xs, ws) := by
  simp [countedOperand, listOperand_flatMap h]

end

@[simp] theorem boolOperand_boolWord (b : Bool) (ws : List Nat) : boolOperand (boolWord b :: ws) = .ok (b, ws) := by
  cases b <;> rfl

@[simp] theorem optOperand_optWord (o : Option Nat) (ws : List Nat) : optOperand (optWord o :: ws) = .ok (o, ws) := by
  cases o <;> rfl

@[simp] theorem oneOf_allSizes (s : Size) (ws : List Nat) : oneOf allSizes (indexWord allSizes s :: ws) = .ok (s, ws) :=
  oneOf_indexWord (by cases s <;> decide) ws

@[simp] theorem oneOf_allVariants (v : Variant) (ws : List Nat) :
    oneOf allVariants (indexWord allVariants v :: ws) = .ok (v, ws) :=
  oneOf_indexWord (by cases v <;> decide) ws

@[simp] theorem oneOf_slots (t : Slot) (ws : List Nat) :
    oneOf [Slot.src, .dst] (indexWord [Slot.src, .dst] t :: ws) = .ok (t, ws) :=
  oneOf_indexWord (by cases t <;> decide) ws

@[simp] theorem oneOf_regClasses (c : RegClass) (ws : List Nat) :
    oneOf [RegClass.data, .addr] (indexWord [RegClass.data, .addr] c :: ws) = .ok (c, ws) :=
  oneOf_indexWord (by cases c <;> decide) ws

@[simp] theorem oneOf_eaOps (op : EaOp) (ws : List Nat) :
    oneOf [EaOp.load, .store, .none] (indexWord [EaOp.load, .store, .none] op :: ws) = .ok (op, ws) :=
  oneOf_indexWord (by cases op <;> decide) ws

@[simp] theorem oneOf_bcdOps (op : BcdOp) (ws : List Nat) :
    oneOf [BcdOp.add, .sub] (indexWord [BcdOp.add, .sub] op :: ws) = .ok (op, ws) :=
  oneOf_indexWord (by cases op <;> decide) ws

/-- A level is given as the number of levels still open. -/
theorem oneOf_openLevels {level : Nat} (h : level ≤ 4) (ws : List Nat) :
    oneOf [4, 3, 2, 1, 0] ((4 - level) :: ws) = .ok (level, ws) := by
  interval_cases level <;> rfl

/-! ### Readers of structured operands -/

@[simp] theorem charOperand_toNat (c : Char) (ws : List Nat) : charOperand (c.toNat :: ws) = .ok (c, ws) := by
  simp [charOperand]

@[simp] theorem patternOperand_words (p : Pattern) (ws : List Nat) :
    patternOperand (p.set.toNat :: p.any.toNat :: ws) = .ok (p, ws) := by
  simp [patternOperand]

@[simp] theorem sizeEncOperand_words (e : SizeEnc) (ws : List Nat) : sizeEncOperand (sizeEncWords e ++ ws) = .ok (e, ws) := by
  unfold sizeEncWords
  split_ifs with h1 h2 h3 h4
  · rw [h1]; rfl
  · rw [h2]; rfl
  · rw [h3]; rfl
  · rw [h4]; rfl
  · simp [sizeEncOperand]

@[simp] theorem amRowOperand_words (r : AmRow) (ws : List Nat) : amRowOperand (amRowWords r ++ ws) = .ok (r, ws) := by
  simp [amRowOperand, amRowWords]

@[simp] theorem amEncOperand_words (e : AmEnc) (ws : List Nat) : amEncOperand (amEncWords e ++ ws) = .ok (e, ws) := by
  unfold amEncWords
  split_ifs with h1 h2
  · rw [h1]; rfl
  · simp [amEncOperand, ← h2]
  · simp [amEncOperand, countedOperand_flatMap amRowOperand_words]

@[simp] theorem deviceKindOperand_words (k : DeviceKind) (ws : List Nat) :
    deviceKindOperand (deviceKindWords k ++ ws) = .ok (k, ws) := by
  cases k <;> rfl

@[simp] theorem deviceOperand_words (d : Device) (ws : List Nat) : deviceOperand (deviceWords d ++ ws) = .ok (d, ws) := by
  simp [deviceOperand, deviceWords]

@[simp] theorem devicesOperand_words (ds : List Device) (ws : List Nat) :
    countedOperand deviceOperand (ds.length :: (ds.flatMap deviceWords ++ ws)) = .ok (ds, ws) :=
  countedOperand_flatMap deviceOperand_words ds ws

@[simp] theorem charsOperand_words (cs : List Char) (ws : List Nat) :
    countedOperand charOperand (cs.length :: (cs.map Char.toNat ++ ws)) = .ok (cs, ws) := by
  have hread := countedOperand_flatMap (words := fun c => [Char.toNat c]) charOperand_toNat cs ws
  simpa [← List.map_eq_flatMap] using hread

@[simp] theorem pageOperand_toList (p : Vector Nat 16) (ws : List Nat) : pageOperand (p.toList ++ ws) = .ok (p, ws) := by
  have hread : listOperand nextWord 16 (p.toList ++ ws) = .ok (p.toList, ws) := by
    simpa using listOperand_flatMap (words := fun n => [n]) nextWord_cons p.toList ws
  simp [pageOperand, hread]

/-! ### Opcode words -/

/-- The two rows of `abcd` differ in bit 3 alone (R232), so together they fix bits 15 to 12 and 8 to 4. -/
theorem abcd_mask_iff (w : Word) :
    (w &&& 0xF1F8 = 0xC100 ∨ w &&& 0xF1F8 = 0xC108) ↔ w.extractLsb' 12 4 = 0b1100 ∧ w.extractLsb' 4 5 = 0b10000 := by
  cases hform : w[3] <;>
    simp [BitVec.eq_of_getLsbD_eq_iff, Nat.forall_lt_succ_right, Nat.le_one_iff_eq_zero_or_eq_one, hform] <;>
    tauto

/-- What the decoder makes of an opcode word: a form of `abcd` (R232), the illegal example (R303), or no instruction. -/
theorem decodeOpcode_cases (w : Word) :
    (w &&& 0xF1F8 = 0xC100 ∧ decodeOpcode w = .ok (.abcdReg (extract w 9 3) (extract w 0 3))) ∨
    (w &&& 0xF1F8 = 0xC108 ∧ decodeOpcode w = .ok (.abcdMem (extract w 9 3) (extract w 0 3))) ∨
    (w = 0x4AFC ∧ decodeOpcode w = .ok .illegal) ∨
    (w &&& 0xF1F8 ≠ 0xC100 ∧ w &&& 0xF1F8 ≠ 0xC108 ∧ w ≠ 0x4AFC ∧ decodeOpcode w = .error .unknownOpcodeWord) := by
  unfold decodeOpcode
  split_ifs with hreg hmem hill
  · exact .inl ⟨hreg, rfl⟩
  · exact .inr (.inl ⟨hmem, rfl⟩)
  · exact .inr (.inr (.inl ⟨hill, rfl⟩))
  · exact .inr (.inr (.inr ⟨hreg, hmem, hill, rfl⟩))

theorem decodeOpcode_wf {w : Word} {i : Instr} (h : decodeOpcode w = .ok i) : i.wf = true := by
  obtain ⟨-, hd⟩ | ⟨-, hd⟩ | ⟨-, hd⟩ | ⟨-, -, -, hd⟩ := decodeOpcode_cases w <;> cases hd.symm.trans h <;> rfl

theorem exists_decodeOpcode_iff (w : Word) :
    (∃ i, decodeOpcode w = .ok i) ↔ (w &&& 0xF1F8 = 0xC100 ∨ w &&& 0xF1F8 = 0xC108) ∨ w = 0x4AFC := by
  obtain ⟨hw, hd⟩ | ⟨hw, hd⟩ | ⟨hw, hd⟩ | ⟨hreg, hmem, hill, hd⟩ := decodeOpcode_cases w
  · exact ⟨fun _ => .inl (.inl hw), fun _ => ⟨_, hd⟩⟩
  · exact ⟨fun _ => .inl (.inr hw), fun _ => ⟨_, hd⟩⟩
  · exact ⟨fun _ => .inr hw, fun _ => ⟨_, hd⟩⟩
  · exact ⟨fun ⟨_, h⟩ => (by cases hd.symm.trans h), fun h => absurd h (by tauto)⟩

theorem decodeOpcode_abcdReg : ∀ d s : BitVec 3, decodeOpcode (abcdWord 0 d s) = .ok (.abcdReg d s) := by decide

theorem decodeOpcode_abcdMem : ∀ d s : BitVec 3, decodeOpcode (abcdWord 1 d s) = .ok (.abcdMem d s) := by decide

/-! ### Select codes -/

/-- The select codes that R110 and R111 assign. -/
def assignedSelects : List Nat :=
  [0x00, 0x01, 0x02, 0x03, 0x04, 0x05, 0x08, 0x09, 0x0A, 0x0B, 0x10, 0x11, 0x12, 0x14, 0x15, 0x16, 0x17, 0x18,
    0x20, 0x21, 0x22, 0x23, 0x24, 0x25, 0x26, 0x27, 0x30, 0x31, 0x40, 0x41, 0x42, 0x43, 0x44, 0x45, 0x48, 0x49, 0x4A, 0x4B, 0x4C]

theorem parseSelect_unassigned {opsel : Nat} (h : opsel ∉ assignedSelects) (ws : List Nat) :
    parseSelect opsel ws = .error .unassignedSelect := by
  unfold parseSelect
  split
  case h_40 => rfl
  all_goals exact absurd (by decide) h

theorem decode_select_eq_ok {opsel : Byte} {ws : List Nat} {i : Instr} :
    decode (.select opsel ws) = .ok i ↔ parseSelect opsel.toNat ws = .ok (i, []) ∧ i.wf = true := by
  rcases hp : parseSelect opsel.toNat ws with e | ⟨j, _ | ⟨w, rest⟩⟩
  · simp [decode, hp]
  · by_cases hj : j.wf = true
    · simp only [decode, hp, hj, if_true, Except.ok.injEq, Prod.mk.injEq, and_true]
      exact ⟨fun h => ⟨h, h ▸ hj⟩, And.left⟩
    · simp only [decode, hp, hj, Except.ok.injEq, Prod.mk.injEq, and_true]
      exact ⟨fun h => (by cases h), fun ⟨h, hi⟩ => absurd (h ▸ hi) hj⟩
  · simp [decode, hp]

theorem decode_select_of_error {opsel : Byte} {ws : List Nat} {e : DecodeError} (h : parseSelect opsel.toNat ws = .error e) :
    decode (.select opsel ws) = .error e := by
  simp [decode, h]

theorem decode_wf {c : Code} {i : Instr} (h : decode c = .ok i) : i.wf = true := by
  cases c with
  | opcode w => exact decodeOpcode_wf h
  | select opsel ws => exact (decode_select_eq_ok.1 h).2

/-! ### Codes of instructions -/

/-- The code `c` reads as `i`: an opcode word is in the row of `i`, and a select code with operand words is `i` and uses
exactly those words. -/
def Code.ReadsAs (i : Instr) : Code → Prop
  | .opcode w => decodeOpcode w = .ok i
  | .select opsel operands => ∀ ws, parseSelect opsel.toNat (operands ++ ws) = .ok (i, ws)

theorem Code.ReadsAs.decode_eq {c : Code} {i : Instr} (h : c.ReadsAs i) (hi : i.wf = true) : decode c = .ok i := by
  cases c with
  | opcode w => exact h
  | select opsel operands =>
    refine decode_select_eq_ok.2 ⟨?_, hi⟩
    simpa using h []

/-- The code of an instruction inside its domain reads as the instruction. The domain is needed where a width, a level or a depth is
coded less one or as what is left of it; every other operation's operands are read back by the lemmas above at any value. -/
theorem encode_readsAs {i : Instr} (hi : i.wf = true) : (encode i).ReadsAs i := by
  cases i
  case extract wx x lo w =>
    obtain ⟨hwx, -⟩ := of_decide_eq_true hi
    simp [encode, Code.ReadsAs, parseSelect, Nat.sub_add_cancel hwx]
  case extend wt wy y =>
    obtain ⟨hwy, hwt, -⟩ := of_decide_eq_true hi
    simp [encode, Code.ReadsAs, parseSelect, Nat.sub_add_cancel hwy, Nat.sub_add_cancel (hwy.trans hwt)]
  case addo w a b | subo w a b =>
    obtain ⟨hw, -⟩ := of_decide_eq_true hi
    simp [encode, Code.ReadsAs, parseSelect, Nat.sub_add_cancel hw]
  case visit pfx level =>
    obtain ⟨hlevel, -⟩ := of_decide_eq_true hi
    simp [encode, Code.ReadsAs, parseSelect, oneOf_openLevels hlevel]
  case stub x depthLeft =>
    obtain ⟨hdepth, -⟩ := of_decide_eq_true hi
    simp [encode, Code.ReadsAs, parseSelect, Nat.sub_add_cancel hdepth]
  case abcdReg d s => exact decodeOpcode_abcdReg d s
  case abcdMem d s => exact decodeOpcode_abcdMem d s
  case illegal => rfl
  all_goals simp [encode, Code.ReadsAs, parseSelect]

end Sys2Proof

namespace Sys2Proof.Machine

/-! ### The step that meets a request -/

theorem step_of_port {s : State} {r : Request} {rest : List Request} (h : s.port = r :: rest) :
    step s = serve r { s with port := rest } := by
  simp [step, stepMachine, h]

theorem serve_of_decode_error {r : Request} {e : DecodeError} (h : decode (.select r.opsel r.operands) = .error e) (s : State) :
    serve r s = .refused (refusalOf e) := by
  simp [serve, h]

/-! ### The obligations -/

/-- Settles O2: every part of the code is read back by the reader of its operand, so the whole code reads as the instruction. -/
theorem decodeOfEncodeIsTheInstruction : Obligations.DecodeOfEncodeIsTheInstruction :=
  fun _ hi => (encode_readsAs hi).decode_eq hi

/-- Settles O3, by the codes the decoder knows: an unassigned select code is an error of the reader, an opcode word is in a row by the
bits its row fixes, and every accepting path checks the domain or has none. -/
theorem decoderAcceptsOnlyTheInstructionSet : Obligations.DecoderAcceptsOnlyTheInstructionSet := by
  refine ⟨fun opsel ws hsel => ?_, fun w => ?_, fun c i => decode_wf⟩
  · have hrej : decode (.select opsel ws) = .error .unassignedSelect :=
      decode_select_of_error (parseSelect_unassigned hsel ws)
    exact ⟨hrej, fun s rest hport => (step_of_port hport).trans (serve_of_decode_error (r := ⟨opsel, ws⟩) hrej _)⟩
  · rw [← abcd_mask_iff]
    exact exists_decodeOpcode_iff w

/-- Settles O1, by evaluating the decoder at the nine words. -/
theorem tableWordsDecodeToTheirRows : Obligations.TableWordsDecodeToTheirRows := by
  unfold Obligations.TableWordsDecodeToTheirRows
  decide

end Sys2Proof.Machine
end

section
/-! The integer primitive statements (40_int_primitives.md): operands outside their domain, the four bit-field primitives by bits and
by numbers, and the two overflow primitives against the signed sum and difference. -/

namespace Sys2Proof

/-! ### Bit-field primitives -/

section
variable {wx wy : Nat}

/-- The law of `EXTRACT` (R120). -/
theorem extract_toNat (x : BitVec wx) (lo w : Nat) : (extract x lo w).toNat = x.toNat / 2 ^ lo % 2 ^ w := by
  rw [extract, BitVec.extractLsb'_toNat, Nat.shiftRight_eq_div_pow]

/-- `OVERWRITE` bit by bit: `y` below its width, `x` from there on (R122). -/
theorem getLsbD_overwrite (h : wy ≤ wx) (x : BitVec wx) (y : BitVec wy) (i : Nat) :
    (overwrite x y).getLsbD i = if i < wy then y.getLsbD i else x.getLsbD i := by
  rw [overwrite, BitVec.getLsbD_or, BitVec.getLsbD_and, BitVec.getLsbD_not, BitVec.getLsbD_ofNat, Nat.testBit_two_pow_sub_one,
    BitVec.getLsbD_setWidth]
  by_cases hi : i < wy
  · simp [hi, hi.trans_le h]
  by_cases hx : i < wx
  · simp [hi, hx, Nat.le_of_not_lt hi]
  · simp [hi, Nat.le_of_not_lt hx]

/-- `OVERWRITE` as a number: the bits of `x` above the width of `y`, and `y` below them (R122). -/
theorem overwrite_toNat (h : wy ≤ wx) (x : BitVec wx) (y : BitVec wy) :
    (overwrite x y).toNat = x.toNat / 2 ^ wy * 2 ^ wy + y.toNat := by
  refine Nat.eq_of_testBit_eq fun i => ?_
  rw [Nat.mul_comm, Nat.testBit_two_pow_mul_add _ y.isLt, BitVec.testBit_toNat, getLsbD_overwrite h]
  split_ifs with hi
  · rfl
  · rw [Nat.testBit_div_two_pow, Nat.sub_add_cancel (Nat.le_of_not_lt hi), BitVec.testBit_toNat]

/-- `EXTEND` as a number: where the sign bit is set, all the new bits above it are set (R124). -/
theorem extend_toNat (h : wy ≤ wx) (y : BitVec wy) :
    (extend wx y).toNat = if y.toNat < 2 ^ (wy - 1) then y.toNat else y.toNat + (2 ^ wx - 2 ^ wy) := by
  rw [extend, BitVec.toNat_signExtend, BitVec.toNat_setWidth_of_le h, BitVec.msb_eq_decide]
  by_cases hy : y.toNat < 2 ^ (wy - 1)
  · simp [hy, Nat.not_le.2 hy]
  · simp [hy, Nat.le_of_not_lt hy]

/-- `EXTEND` keeps the value's own bits (R124). -/
theorem truncate_extend (h : wy ≤ wx) (y : BitVec wy) : truncate wy (extend wx y) = y := by
  refine BitVec.eq_of_getLsbD_eq fun i hi => ?_
  simp [truncate, extend, BitVec.getElem_signExtend, hi, hi.trans_le h]

/-- The bits below are those written (R127). -/
theorem truncate_overwrite (h : wy ≤ wx) (x : BitVec wx) (y : BitVec wy) : truncate wy (overwrite x y) = y := by
  refine BitVec.eq_of_getLsbD_eq fun i hi => ?_
  simp [truncate, getLsbD_overwrite h, hi]

/-- The bits above are as they were (R127). -/
theorem extract_overwrite (h : wy ≤ wx) (x : BitVec wx) (y : BitVec wy) (w : Nat) :
    extract (overwrite x y) wy w = extract x wy w := by
  refine BitVec.eq_of_getLsbD_eq fun i hi => ?_
  simp [extract, getLsbD_overwrite h]

end

/-! ### Overflow primitives -/

section
variable {w : Nat}

/-- A number of `w` bits is a `w`-bit value. -/
theorem exists_toNat_eq {a : Nat} (h : a < 2 ^ w) : ∃ x : BitVec w, x.toNat = a := ⟨BitVec.ofNatLT a h, rfl⟩

/-- The sign bit as a bit of the number (R132). -/
theorem testBit_toNat_eq_msb (x : BitVec w) : x.toNat.testBit (w - 1) = x.msb := x.msb_eq_getLsbD_last.symm

/-- The signed reading of R132 is the integer a bit vector stands for. -/
theorem signedReading_toNat (x : BitVec w) : Machine.signedReading w x.toNat = x.toInt := by
  rw [Machine.signedReading, BitVec.toInt_eq_msb_cond, BitVec.msb_eq_decide]
  by_cases hx : x.toNat < 2 ^ (w - 1)
  · simp [hx, Nat.not_le.2 hx]
  · simp [hx, Nat.le_of_not_lt hx]

/-- The signed overflow of `ADDO` by the sign bits (R128). -/
theorem addo_sovf_iff_msb (x y : BitVec w) : (addo x y).2.2 = true ↔ x.msb = y.msb ∧ (addo x y).1.msb ≠ x.msb := by
  simp [addo]

/-- The signed overflow of `ADDO` by the signed readings (R132). -/
theorem addo_sovf_iff_toInt (x y : BitVec w) :
    (addo x y).2.2 = true ↔ x.toInt + y.toInt < -(2 ^ (w - 1)) ∨ 2 ^ (w - 1) ≤ x.toInt + y.toInt := by
  have hsadd : (addo x y).2.2 = x.saddOverflow y := (BitVec.saddOverflow_eq x y).symm
  rw [hsadd, BitVec.saddOverflow]
  simp [or_comm]

theorem subo_toNat (x y : BitVec w) : (subo x y).1.toNat = (2 ^ w + x.toNat - y.toNat) % 2 ^ w := by
  rw [subo, BitVec.toNat_sub, Nat.sub_add_comm y.isLt.le]

/-- The signed overflow of `SUBO` by the sign bits (R130). -/
theorem subo_sovf_iff_msb (x y : BitVec w) : (subo x y).2.2 = true ↔ x.msb ≠ y.msb ∧ (subo x y).1.msb ≠ x.msb := by
  simp [subo]

/-- The signed overflow of `SUBO` by the signed readings (R132). -/
theorem subo_sovf_iff_toInt (x y : BitVec w) :
    (subo x y).2.2 = true ↔ x.toInt - y.toInt < -(2 ^ (w - 1)) ∨ 2 ^ (w - 1) ≤ x.toInt - y.toInt := by
  have hssub : (subo x y).2.2 = x.ssubOverflow y := by
    rw [BitVec.ssubOverflow_eq, subo]
    cases x.msb <;> cases y.msb <;> simp
  rw [hssub, BitVec.ssubOverflow]
  simp [or_comm]

end

/-! ### The `n` field and the register it numbers -/

theorem AmEnc.nField_eq_amNumber (e : AmEnc) (w : Word) : e.nField w = Machine.amNumber e w := extract_toNat w e.nPos e.nWidth

/-- A variant uses register `n` in its address calculation or in its transfer, never in both (R203, R207, R208). -/
theorem Variant.usesRegister_iff {v : Variant} {c : Bool} {op : EaOp} :
    v.usesRegister c op = true ↔
      (c = true ∧ v ∈ [Variant.addr, .addrInc, .addrDec, .addrDisp, .addrIdx]) ∨
        (op ≠ .none ∧ v ∈ [Variant.dataReg, .addrReg]) := by
  cases v <;> simp [Variant.usesRegister]

end Sys2Proof

namespace Sys2Proof.Machine

/-! ### Refusals -/

section
variable {w : Size} {t : Slot} {c k : Bool} {op : EaOp} {enc : AmEnc} {s : State}

theorem stepEa_of_not_wf (h : enc.wf = false) : stepEa w t c k op enc s = refuse .operandOutsideDomain := if_pos h

theorem stepEa_of_absent (he : enc.wf = true) (h : enc.decode s.cpu.ir = none) :
    stepEa w t c k op enc s = refuse .addressingModeAbsent := by
  rw [stepEa, if_neg (by simp [he]), h]

theorem stepEa_of_registerAbsent {v : Variant} (he : enc.wf = true) (hv : enc.decode s.cpu.ir = some v)
    (huse : v.usesRegister c op = true) (hn : 8 ≤ enc.nField s.cpu.ir) :
    stepEa w t c k op enc s = refuse .registerAbsent := by
  rw [stepEa, if_neg (by simp [he]), hv]
  exact if_pos ⟨huse, hn⟩

theorem stepLdReg_of_outside {cls : RegClass} {p : Nat} (h : 13 < p) : stepLdReg w t cls p s = refuse .operandOutsideDomain :=
  if_pos h

theorem stepStReg_of_outside {cls : RegClass} {p : Nat} (h : 13 < p) : stepStReg w cls p s = refuse .operandOutsideDomain :=
  if_pos h

end

/-- Every operation refuses operands outside its domain: by `inDomain`, or by the step's own check; the operations left over take
every operand. -/
theorem exec_of_not_wf {i : Instr} (h : i.wf = false) (s : State) : exec i s = .refused .operandOutsideDomain := by
  cases i with
  | extract | overwrite | extend | truncate | addo | subo | szwidth | szdec | szenc | szcount | amdec | visit | stub | write =>
    exact inDomain_of_not_wf h _
  | eaStep => rw [exec, execEaStep, stepEa_of_not_wf h, toOutcome_refuse]
  | ldReg => rw [exec, execLdReg, stepLdReg_of_outside (Nat.lt_of_not_le (of_decide_eq_false h)), toOutcome_refuse]
  | stReg => rw [exec, execStReg, stepStReg_of_outside (Nat.lt_of_not_le (of_decide_eq_false h)), toOutcome_refuse]
  | _ => cases h

/-! ### The primitives on their domains -/

/-- A pure operation in its domain leaves its result and nothing else. -/
theorem inDomain_returns {i : Instr} (h : i.wf = true) (s : State) (r : Result) :
    inDomain i (pure (s.returns r)) = .next { s with out := r } := inDomain_of_wf h _

theorem exec_extract {wx lo w : Nat} (hpos : 1 ≤ wx) (hmax : wx ≤ 32) (x : BitVec wx) (h : lo + w ≤ wx) (s : State) :
    exec (.extract wx x.toNat lo w) s = .next { s with out := .bits w (extract x lo w).toNat } := by
  simp only [exec, execExtract, BitVec.ofNat_toNat, BitVec.setWidth_eq]
  refine inDomain_returns ?_ s _
  exact decide_eq_true ⟨hpos, hmax, x.isLt, h⟩

theorem exec_overwrite {wx wy : Nat} (h : wy ≤ wx) (x : BitVec wx) (y : BitVec wy) (s : State) :
    exec (.overwrite wx x.toNat wy y.toNat) s = .next { s with out := .bits wx (overwrite x y).toNat } := by
  simp only [exec, execOverwrite, BitVec.ofNat_toNat, BitVec.setWidth_eq]
  refine inDomain_returns ?_ s _
  exact decide_eq_true ⟨h, x.isLt, y.isLt⟩

theorem exec_extend {wt wy : Nat} (hpos : 1 ≤ wy) (h : wy ≤ wt) (y : BitVec wy) (s : State) :
    exec (.extend wt wy y.toNat) s = .next { s with out := .bits wt (extend wt y).toNat } := by
  simp only [exec, execExtend, BitVec.ofNat_toNat, BitVec.setWidth_eq]
  refine inDomain_returns ?_ s _
  exact decide_eq_true ⟨hpos, h, y.isLt⟩

theorem exec_truncate {wt wy : Nat} (h : wt ≤ wy) (y : BitVec wy) (s : State) :
    exec (.truncate wt wy y.toNat) s = .next { s with out := .bits wt (truncate wt y).toNat } := by
  simp only [exec, execTruncate, BitVec.ofNat_toNat, BitVec.setWidth_eq]
  refine inDomain_returns ?_ s _
  exact decide_eq_true ⟨h, y.isLt⟩

theorem exec_addo {w : Nat} (hpos : 1 ≤ w) (x y : BitVec w) (s : State) :
    exec (.addo w x.toNat y.toNat) s =
      .next { s with out := .overflow w (addo x y).1.toNat (addo x y).2.1 (addo x y).2.2 } := by
  simp only [exec, execAddo, BitVec.ofNat_toNat, BitVec.setWidth_eq]
  refine inDomain_returns ?_ s _
  exact decide_eq_true ⟨hpos, x.isLt, y.isLt⟩

theorem exec_subo {w : Nat} (hpos : 1 ≤ w) (x y : BitVec w) (s : State) :
    exec (.subo w x.toNat y.toNat) s =
      .next { s with out := .overflow w (subo x y).1.toNat (subo x y).2.1 (subo x y).2.2 } := by
  simp only [exec, execSubo, BitVec.ofNat_toNat, BitVec.setWidth_eq]
  refine inDomain_returns ?_ s _
  exact decide_eq_true ⟨hpos, x.isLt, y.isLt⟩

/-! ### The obligations -/

/-- Settles O4: the domain is checked before anything else, then the mode, then the register. -/
theorem unmeantOperandsAreRefused : Obligations.UnmeantOperandsAreRefused := by
  refine ⟨fun i s h => exec_of_not_wf h s, fun s w t c k op enc he hnone => ?_, fun s w t c k op enc v he hv hn huse => ?_⟩
  · rw [exec, execEaStep, stepEa_of_absent he hnone, toOutcome_refuse]
  · rw [← enc.nField_eq_amNumber] at hn
    rw [exec, execEaStep, stepEa_of_registerAbsent he hv (Variant.usesRegister_iff.2 huse) hn, toOutcome_refuse]

/-- Settles O10: each operation returns the number of its bit-vector function, which the lemmas above give in arithmetic. -/
theorem bitFieldPrimitivesOnTheirDomains : Obligations.BitFieldPrimitivesOnTheirDomains := by
  refine ⟨fun s wx x lo w hpos hmax hx h => ?_, fun s wt wy y h hy => ?_, fun s wx x wy y h hx hy => ?_,
    fun s wt wy y hpos h hy => ?_⟩
  · obtain ⟨x, rfl⟩ := exists_toNat_eq hx
    rw [exec_extract hpos hmax x h, extract_toNat]
  · obtain ⟨y, rfl⟩ := exists_toNat_eq hy
    rw [exec_truncate h, truncate, BitVec.toNat_setWidth]
  · obtain ⟨x, rfl⟩ := exists_toNat_eq hx
    obtain ⟨y, rfl⟩ := exists_toNat_eq hy
    rw [exec_overwrite h, overwrite_toNat h]
  · obtain ⟨y, rfl⟩ := exists_toNat_eq hy
    rw [exec_extend hpos h, extend_toNat h]

/-- Settles O11, bit by bit. -/
theorem bitFieldPrimitivesAgree : Obligations.BitFieldPrimitivesAgree :=
  fun _ _ x y h => ⟨truncate_overwrite h x y, extract_overwrite h x y _, truncate_extend h y⟩

/-- Settles O12: the model's overflow bit is that of signed addition. -/
theorem addoGivesSumAndOverflows : Obligations.AddoGivesSumAndOverflows := by
  intro s w a b hpos ha hb
  obtain ⟨x, rfl⟩ := exists_toNat_eq ha
  obtain ⟨y, rfl⟩ := exists_toNat_eq hb
  have hsum : (x.toNat + y.toNat) % 2 ^ w = (addo x y).1.toNat := (BitVec.toNat_add x y).symm
  simp only [hsum, testBit_toNat_eq_msb, signedReading_toNat]
  exact ⟨(addo x y).2.2, exec_addo hpos x y s, addo_sovf_iff_msb x y, addo_sovf_iff_toInt x y⟩

/-- Settles O13: the model's overflow bit is that of signed subtraction. -/
theorem suboGivesDifferenceAndOverflows : Obligations.SuboGivesDifferenceAndOverflows := by
  intro s w a b hpos ha hb
  obtain ⟨x, rfl⟩ := exists_toNat_eq ha
  obtain ⟨y, rfl⟩ := exists_toNat_eq hb
  simp only [← subo_toNat, testBit_toNat_eq_msb, signedReading_toNat]
  exact ⟨(subo x y).2.2, exec_subo hpos x y s, subo_sovf_iff_msb x y, subo_sovf_iff_toInt x y⟩

end Sys2Proof.Machine
end

section
/-! The BCD statements (41_bcd.md): the entries of the two tables, the laws that tie them, and addition and subtraction through them as
decimal arithmetic. -/

namespace Sys2Proof.Machine

/-! ### BCD bytes and their decimal values -/

section
variable {b : Byte} {n : Nat}

theorem bcdByteOf_toNat (h : n < 100) : (bcdByteOf n).toNat = n / 10 * 16 + n % 10 :=
  Nat.mod_eq_of_lt (by omega)

theorem decimalOf_bcdByteOf (h : n < 100) : decimalOf (bcdByteOf n) = n := by
  rw [decimalOf, bcdByteOf_toNat h]
  omega

theorem validBcd_iff : validBcd b = true ↔ b.toNat / 16 ≤ 9 ∧ b.toNat % 16 ≤ 9 := decide_eq_true_iff

/-- The value of a valid byte has two digits (R145). -/
theorem decimalOf_lt_of_validBcd (h : validBcd b = true) : decimalOf b < 100 := by
  obtain ⟨hhigh, hlow⟩ := validBcd_iff.1 h
  rw [decimalOf]
  omega

/-- A valid byte is the one that its value names (R140). -/
theorem bcdByteOf_decimalOf (h : validBcd b = true) : bcdByteOf (decimalOf b) = b := by
  refine BitVec.eq_of_toNat_eq ?_
  rw [bcdByteOf_toNat (decimalOf_lt_of_validBcd h), decimalOf]
  obtain ⟨hhigh, hlow⟩ := validBcd_iff.1 h
  omega

/-- The value of every byte fits in a byte, also outside valid BCD (R143, D8). -/
theorem decimalOf_lt_two_pow (b : Byte) : decimalOf b < 2 ^ 8 := by
  rw [decimalOf]
  omega

end

/-! ### The tables -/

theorem tobcd_eq (v : Byte) : tobcd v = (bcdByteOf (v.toNat % 100), decide (99 < v.toNat)) := by
  simp [tobcd, tobcdTable, tobcdEntry, bcdByteOf]

theorem tobcd_ofNat {n : Nat} (h : n ≤ 255) : tobcd (BitVec.ofNat 8 n) = (bcdByteOf (n % 100), decide (99 < n)) := by
  rw [tobcd_eq, BitVec.toNat_ofNat, Nat.mod_eq_of_lt (by omega : n < 2 ^ 8)]

theorem frombcd_toNat (b : Byte) : (frombcd b).toNat = decimalOf b := by
  have hentry : frombcd b = BitVec.ofNat 8 (decimalOf b) := by simp [frombcd, frombcdTable, frombcdEntry, decimalOf]
  rw [hentry, BitVec.toNat_ofNat, Nat.mod_eq_of_lt (decimalOf_lt_two_pow b)]

/-! ### Addition and subtraction through the tables -/

theorem bcdAdd_eq_decimalAdd (dst src : Byte) (x : Bool) : bcdAdd dst src x = decimalAdd dst src x := by
  simp only [bcdAdd, decimalAdd, frombcd_toNat]
  split
  case isTrue h => exact tobcd_ofNat h
  case isFalse => rfl

/-- The table's carry is set for a biased difference above 99, so the borrow is its negation. -/
theorem bcdSub_eq_decimalSub (dst src : Byte) (x : Bool) : bcdSub dst src x = decimalSub dst src x := by
  simp only [bcdSub, decimalSub, frombcd_toNat]
  split
  case isTrue h =>
    rw [tobcd_ofNat (Int.toNat_le.2 h.2), Prod.mk.injEq, ← decide_not, decide_eq_decide]
    exact ⟨rfl, by omega⟩
  case isFalse => rfl

section
variable {dst src : Byte} (hdst : validBcd dst = true) (hsrc : validBcd src = true) (x : Bool)
include hdst hsrc

/-- Valid operands add up to at most 199, so the table has the entry (R146). -/
theorem decimalAdd_of_validBcd :
    decimalAdd dst src x =
      (bcdByteOf ((decimalOf dst + decimalOf src + x.toNat) % 100), decide (99 < decimalOf dst + decimalOf src + x.toNat)) := by
  have hd := decimalOf_lt_of_validBcd hdst
  have hs := decimalOf_lt_of_validBcd hsrc
  have hx := x.toNat_le
  exact if_pos (by omega)

/-- The difference of valid operands lies between -100 and 99: the bias of 100 brings it into the table and does not change its
remainder (R149). -/
theorem decimalSub_of_validBcd :
    decimalSub dst src x =
      (bcdByteOf (((decimalOf dst : Int) - decimalOf src - x.toNat) % 100).toNat,
        decide ((decimalOf dst : Int) - decimalOf src - x.toNat < 0)) := by
  have hd := decimalOf_lt_of_validBcd hdst
  have hs := decimalOf_lt_of_validBcd hsrc
  have hx := x.toNat_le
  rw [decimalSub, if_pos (by omega), Prod.mk.injEq, decide_eq_decide]
  exact ⟨congrArg bcdByteOf (by omega), by omega⟩

end

/-! ### The operations -/

theorem exec_tobcd (v : Byte) (s : State) :
    exec (.tobcd v) s = .next { s with out := .bcd (bcdByteOf (v.toNat % 100)) (decide (99 < v.toNat)) } := by
  rw [exec, execTobcd, tobcd_eq]
  exact inDomain_returns rfl s _

theorem exec_frombcd (b : Byte) (s : State) : exec (.frombcd b) s = .next { s with out := .bits 8 (decimalOf b) } := by
  rw [exec, execFrombcd, frombcd_toNat]
  exact inDomain_returns rfl s _

theorem exec_bcdadd (dst src : Byte) (x : Bool) (s : State) :
    exec (.bcdadd dst src x) s = .next { s with out := .bcd (decimalAdd dst src x).1 (decimalAdd dst src x).2 } := by
  rw [exec, execBcdadd, bcdAdd_eq_decimalAdd]
  exact inDomain_returns rfl s _

theorem exec_bcdsub (dst src : Byte) (x : Bool) (s : State) :
    exec (.bcdsub dst src x) s = .next { s with out := .bcd (decimalSub dst src x).1 (decimalSub dst src x).2 } := by
  rw [exec, execBcdsub, bcdSub_eq_decimalSub]
  exact inDomain_returns rfl s _

/-! ### The obligations -/

/-- Settles O14: an entry of a table is its formula, at every byte. -/
theorem bcdTablesHoldTheDigits : Obligations.BcdTablesHoldTheDigits :=
  ⟨fun s v => exec_tobcd v s, fun s b => exec_frombcd b s⟩

/-- Settles O15: the byte of a number below 100 has that value, and a valid byte is the byte of its value. -/
theorem bcdTablesInvertEachOther : Obligations.BcdTablesInvertEachOther := by
  refine ⟨fun s v => ⟨_, _, exec_tobcd v s, ?_, decide_eq_true_iff⟩, fun s b hhigh hlow => ⟨_, exec_frombcd b s, ?_⟩⟩
  · rw [exec_frombcd, decimalOf_bcdByteOf (Nat.mod_lt _ (by decide))]
  · have hvalid : validBcd b = true := validBcd_iff.2 ⟨hhigh, hlow⟩
    have hlt : decimalOf b < 100 := decimalOf_lt_of_validBcd hvalid
    rw [exec_tobcd, BitVec.toNat_ofNat, Nat.mod_eq_of_lt (decimalOf_lt_two_pow b), Nat.mod_eq_of_lt hlt, bcdByteOf_decimalOf hvalid,
      decide_eq_false (by omega)]

/-- Settles O16: the tables add by decimal values, which for valid BCD never leave them. -/
theorem bcdaddIsDecimalAddition : Obligations.BcdaddIsDecimalAddition := by
  refine ⟨fun s dst src x => exec_bcdadd dst src x s, fun s dst src x hdst hsrc => ?_⟩
  rw [exec_bcdadd, decimalAdd_of_validBcd hdst hsrc]

/-- Settles O17: the tables subtract by decimal values, biased by 100, which for valid BCD never leave them. -/
theorem bcdsubIsDecimalSubtraction : Obligations.BcdsubIsDecimalSubtraction := by
  refine ⟨fun s dst src x => exec_bcdsub dst src x s, fun s dst src x hdst hsrc => ?_⟩
  rw [exec_bcdsub, decimalSub_of_validBcd hdst hsrc]

end Sys2Proof.Machine
end

section
/-! The opcode pattern statements (42_opcode_pattern.md): what a template's characters say of the pattern's bits, which words a pattern
matches and how many, and when two patterns share one. -/

namespace Sys2Proof.Machine

/-! ### Templates -/

/-- Bit `i` of the number is character `i` from the right (30_encoding.md R92). -/
theorem templateBits_testBit (c : Char) (template : List Char) (i : Nat) :
    (templateBits c template).testBit i = true ↔ template.reverse[i]? = some c := by
  induction template using List.reverseRecOn generalizing i with
  | nil => simp [templateBits]
  | append_singleton ds d ih =>
    have hsnoc : templateBits c (ds ++ [d]) = 2 * templateBits c ds + (decide (d = c)).toNat := by
      simp [templateBits, Bool.toNat, Bool.cond_decide]
    rw [hsnoc, List.reverse_append]
    cases i with
    | zero => by_cases hd : d = c <;> simp [hd, Nat.testBit_zero]
    | succ i =>
      rw [Nat.testBit_succ, Nat.mul_add_div (by decide), Nat.div_eq_of_lt (Bool.toNat_lt _), Nat.add_zero, ih]
      simp

theorem templateWord_bit (c : Char) (template : List Char) {i : Nat} (hi : i < 16) :
    (BitVec.ofNat 16 (templateBits c template)).getLsbD i = true ↔ template.reverse[i]? = some c := by
  rw [BitVec.getLsbD_ofNat, decide_eq_true hi, Bool.true_and, templateBits_testBit]

/-- The leftmost of sixteen characters describes the top bit. -/
theorem templateWord_bit_of_place (c : Char) {template : List Char} (hlen : template.length = 16) {j : Nat} (hj : j < 16) :
    (BitVec.ofNat 16 (templateBits c template)).getLsbD (15 - j) = true ↔ template[j]? = some c := by
  have hplace : template.length - 1 - (15 - j) = j := by omega
  rw [templateWord_bit c template (by omega), List.getElem?_reverse (by omega), hplace]

theorem templateChar_iff {c : Char} : templateChar c = true ↔ c = '0' ∨ c = '1' ∨ c = 'x' := by
  simp [templateChar, or_assoc]

/-! ### Patterns by their bits -/

theorem word_eq_zero_iff_bits {x : Word} : x = 0 ↔ ∀ i < 16, x.getLsbD i = false :=
  ⟨fun h _ _ => h ▸ BitVec.getLsbD_zero, fun h => BitVec.eq_of_getLsbD_eq fun i hi => (h i hi).trans BitVec.getLsbD_zero.symm⟩

theorem set_and_any_eq_zero_iff_bits {p : Pattern} :
    p.set &&& p.any = 0 ↔ ∀ i < 16, p.any.getLsbD i = true → p.set.getLsbD i = false := by
  rw [word_eq_zero_iff_bits]
  refine forall₂_congr fun i _ => ?_
  rw [BitVec.getLsbD_and]
  cases p.any.getLsbD i <;> simp

theorem matchesWord_iff_fixedBits {p : Pattern} (hp : p.set &&& p.any = 0) (w : Word) :
    p.matchesWord w = true ↔ ∀ i < 16, p.any.getLsbD i = false → w.getLsbD i = p.set.getLsbD i := by
  rw [matchesWord_iff]
  refine forall₂_congr fun i hi => ?_
  have hset := set_and_any_eq_zero_iff_bits.1 hp i hi
  cases hany : p.any.getLsbD i with
  | true => simp [hset hany]
  | false => simp

theorem matchesWord_iff_xor_eq_zero {p : Pattern} {w : Word} : p.matchesWord w = true ↔ (w &&& ~~~p.any) ^^^ p.set = 0 := beq_iff_eq

/-- The word's bits outside `any` never equal a `set` that meets `any` (R164). -/
theorem set_and_any_eq_zero_of_matchesWord {p : Pattern} {w : Word} (h : p.matchesWord w = true) : p.set &&& p.any = 0 := by
  have hset : w &&& ~~~p.any = p.set := BitVec.xor_eq_zero_iff.1 (matchesWord_iff_xor_eq_zero.1 h)
  rw [← hset, BitVec.and_assoc, BitVec.not_and_self]
  exact BitVec.and_zero

theorem exists_matchesWord_both_iff {p q : Pattern} (hp : p.set &&& p.any = 0) (hq : q.set &&& q.any = 0) :
    (∃ w : Word, p.matchesWord w = true ∧ q.matchesWord w = true) ↔ (p.set ^^^ q.set) &&& ~~~p.any &&& ~~~q.any = 0 := by
  have hfixed : (p.set ^^^ q.set) &&& ~~~p.any &&& ~~~q.any = 0 ↔
      ∀ i < 16, p.any.getLsbD i = false → q.any.getLsbD i = false → p.set.getLsbD i = q.set.getLsbD i := by
    rw [word_eq_zero_iff_bits]
    refine forall₂_congr fun i hi => ?_
    simp only [BitVec.getLsbD_and, BitVec.getLsbD_xor, BitVec.getLsbD_not, decide_eq_true hi, Bool.true_and]
    cases p.any.getLsbD i <;> cases q.any.getLsbD i <;> simp
  simp only [hfixed, matchesWord_iff_fixedBits hp, matchesWord_iff_fixedBits hq]
  constructor
  · rintro ⟨w, hwp, hwq⟩ i hi hpa hqa
    rw [← hwp i hi hpa, hwq i hi hqa]
  · intro h
    refine ⟨p.set ||| q.set, fun i hi hpa => ?_, fun i hi hqa => ?_⟩
    · cases hqa : q.any.getLsbD i with
      | true => simp [set_and_any_eq_zero_iff_bits.1 hq i hi hqa]
      | false => simp [h i hi hpa hqa]
    · cases hpa : p.any.getLsbD i with
      | true => simp [set_and_any_eq_zero_iff_bits.1 hp i hi hpa]
      | false => simp [h i hi hpa hqa]

/-! ### The number of words a pattern matches -/

/-- The number has the pattern's fixed bits among the lowest `n`. -/
def fitsLowBits (p : Pattern) (n w : Nat) : Bool :=
  decide (∀ i < n, p.any.getLsbD i = false → w.testBit i = p.set.getLsbD i)

theorem matchesWord_ofNat_eq_fitsLowBits {p : Pattern} (hp : p.set &&& p.any = 0) (w : Nat) :
    p.matchesWord (BitVec.ofNat 16 w) = fitsLowBits p 16 w := by
  rw [Bool.eq_iff_iff, matchesWord_iff_fixedBits hp, fitsLowBits, decide_eq_true_iff]
  refine forall₂_congr fun i hi => ?_
  rw [BitVec.getLsbD_ofNat, decide_eq_true hi, Bool.true_and]

/-- A leading bit fits if it is a wildcard or the fixed bit; the bits below it fit as before. -/
theorem fitsLowBits_succ (p : Pattern) {n w : Nat} (hw : w < 2 ^ n) (b : Bool) :
    fitsLowBits p (n + 1) (2 ^ n * b.toNat + w) = (fitsLowBits p n w && (p.any.getLsbD n || b == p.set.getLsbD n)) := by
  have hlow : ∀ i < n, (2 ^ n * b.toNat + w).testBit i = w.testBit i := fun i hi => by
    rw [Nat.testBit_two_pow_mul_add _ hw, if_pos hi]
  have htop : (2 ^ n * b.toNat + w).testBit n = b := by
    rw [Nat.testBit_two_pow_mul_add _ hw, if_neg (Nat.lt_irrefl n), Nat.sub_self, Nat.testBit_zero]
    cases b <;> rfl
  rw [Bool.eq_iff_iff, fitsLowBits, decide_eq_true_iff, Nat.forall_lt_succ_right, htop, Bool.and_eq_true, fitsLowBits,
    decide_eq_true_iff]
  refine and_congr (forall₂_congr fun i hi => by rw [hlow i hi]) ?_
  cases p.any.getLsbD n <;> simp

/-- Of the numbers with a given leading bit, those below fit if the bit does, and none otherwise. -/
theorem countP_fitsLowBits_succ (p : Pattern) (n : Nat) (b : Bool) :
    (List.range (2 ^ n)).countP (fun w => fitsLowBits p (n + 1) (2 ^ n * b.toNat + w)) =
      if p.any.getLsbD n || b == p.set.getLsbD n then (List.range (2 ^ n)).countP (fitsLowBits p n) else 0 := by
  rw [List.countP_congr fun w hw => by rw [fitsLowBits_succ p (List.mem_range.1 hw) b]]
  cases p.any.getLsbD n || b == p.set.getLsbD n with
  | true => simp
  | false => simp

/-- Each wildcard among the lowest `n` bits doubles the count; a fixed bit leaves one half. -/
theorem countP_fitsLowBits (p : Pattern) (n : Nat) :
    (List.range (2 ^ n)).countP (fitsLowBits p n) = 2 ^ (List.range n).countP (fun i => p.any.getLsbD i) := by
  induction n with
  | zero => rfl
  | succ n ih =>
    have hlow := countP_fitsLowBits_succ p n false
    have hhigh := countP_fitsLowBits_succ p n true
    rw [ih] at hlow hhigh
    simp only [Bool.toNat_false, Bool.toNat_true, Nat.mul_zero, Nat.zero_add, Nat.mul_one] at hlow hhigh
    have hhalves : (List.range (2 ^ (n + 1))).countP (fitsLowBits p (n + 1)) =
        (List.range (2 ^ n)).countP (fun w => fitsLowBits p (n + 1) w) +
          (List.range (2 ^ n)).countP (fun w => fitsLowBits p (n + 1) (2 ^ n + w)) := by
      rw [Nat.pow_succ, Nat.mul_two, List.range_add, List.countP_append, List.countP_map]
      rfl
    rw [hhalves, hlow, hhigh, List.range_succ, List.countP_append, List.countP_singleton]
    cases p.any.getLsbD n with
    | true => simp [Nat.pow_succ, Nat.mul_two]
    | false => cases p.set.getLsbD n <;> simp

/-! ### The operations -/

theorem exec_patnew_of_template {template : List Char} (hlen : template.length = 16)
    (hchars : ∀ c ∈ template, c = '0' ∨ c = '1' ∨ c = 'x') (s : State) :
    exec (.patnew template) s = .next { s with
      out := .pattern ⟨BitVec.ofNat 16 (templateBits '1' template), BitVec.ofNat 16 (templateBits 'x' template)⟩ } := by
  have hall : template.all templateChar = true := List.all_eq_true.2 fun c hc => templateChar_iff.2 (hchars c hc)
  rw [exec, execPatnew, patnew, if_pos ⟨hlen, hall⟩]
  rfl

theorem exec_patnew_of_not_template {template : List Char}
    (h : template.length ≠ 16 ∨ ∃ c ∈ template, c ≠ '0' ∧ c ≠ '1' ∧ c ≠ 'x') (s : State) :
    exec (.patnew template) s = .next { s with out := .error (.invalidTemplate template) } := by
  have hinvalid : ¬ (template.length = 16 ∧ template.all templateChar = true) := by
    rintro ⟨hlen, hall⟩
    obtain hne | ⟨c, hc, h0, h1, hx⟩ := h
    · exact hne hlen
    · have hchar := templateChar_iff.1 (List.all_eq_true.1 hall c hc)
      simp [h0, h1, hx] at hchar
  rw [exec, execPatnew, patnew, if_neg hinvalid]
  rfl

theorem exec_matchWord (p : Pattern) (w : Word) (s : State) :
    exec (.matchWord p w) s = .next { s with out := .flag (p.matchesWord w) } :=
  inDomain_returns (i := .matchWord p w) rfl s _

theorem exec_specificity (p : Pattern) (s : State) :
    exec (.specificity p) s = .next { s with out := .number p.specificity } :=
  inDomain_returns (i := .specificity p) rfl s _

/-! ### The obligations -/

/-- Settles O18: a bit of `set` or `any` is the place of a `1` or an `x`, and no place holds both. -/
theorem patnewReadsTheTemplate : Obligations.PatnewReadsTheTemplate := by
  refine ⟨fun s template hlen hchars => ⟨_, exec_patnew_of_template hlen hchars s, ?_, fun j hj => ?_⟩,
    fun s template h => exec_patnew_of_not_template h s⟩
  · refine set_and_any_eq_zero_iff_bits.2 fun i hi hany => Bool.eq_false_iff.2 fun hset => ?_
    rw [templateWord_bit _ _ hi] at hany hset
    exact absurd (hany.symm.trans hset) (by decide)
  · exact ⟨templateWord_bit_of_place '1' hlen hj, templateWord_bit_of_place 'x' hlen hj⟩

/-- Settles O19: a pattern that matches some word has no bit in both words, and such a pattern is compared bit by bit. -/
theorem matchComparesTheFixedBits : Obligations.MatchComparesTheFixedBits := fun s p w =>
  ⟨p.matchesWord w, exec_matchWord p w s, matchesWord_iff_xor_eq_zero,
    fun hne => Bool.eq_false_iff.2 fun h => hne (set_and_any_eq_zero_of_matchesWord h),
    fun hp => matchesWord_iff_fixedBits hp w⟩

/-- Settles O20: the population count is the length of the filtered list of places. -/
theorem specificityCountsTheWildcards : Obligations.SpecificityCountsTheWildcards := fun s p =>
  ⟨p.specificity, exec_specificity p s, List.countP_eq_length_filter, List.countP_le_length.trans_eq List.length_range⟩

/-- Settles O21: each wildcard doubles the number of matching words, and two patterns that agree on their common fixed bits share the
word with the fixed 1 bits of both. -/
theorem patternsMatchAndOverlapByTheirFixedBits : Obligations.PatternsMatchAndOverlapByTheirFixedBits := by
  refine ⟨fun p hp => ?_, fun p q hp hq => exists_matchesWord_both_iff hp hq⟩
  simp only [matchesWord_ofNat_eq_fitsLowBits hp, ← List.countP_eq_length_filter]
  exact countP_fitsLowBits p 16

end Sys2Proof.Machine
end

section
/-! The size and addressing-mode encoding statements (43_size_addrmode.md): the codes of a size encoding and its field width, the
inverse of the code mapping, and the one row of an addressing-mode table that a pair of field values satisfies. -/

namespace Sys2Proof

/-- Where no two places of a list satisfy the test, the search finds exactly what satisfies it. -/
theorem find?_eq_some_iff_of_pairwise {α : Type} {p : α → Bool} {l : List α}
    (h : l.Pairwise fun a b => ¬ (p a = true ∧ p b = true)) {a : α} : l.find? p = some a ↔ a ∈ l ∧ p a = true := by
  induction l with
  | nil => simp
  | cons x xs ih =>
    obtain ⟨hx, hxs⟩ := List.pairwise_cons.1 h
    cases hpx : p x with
    | false =>
      rw [List.find?_cons_of_neg (Bool.eq_false_iff.1 hpx), ih hxs]
      refine and_congr_left fun hpa => ?_
      rw [List.mem_cons, or_iff_right]
      rintro rfl
      exact Bool.eq_false_iff.1 hpx hpa
    | true =>
      rw [List.find?_cons_of_pos hpx, Option.some.injEq]
      constructor
      · rintro rfl
        exact ⟨List.mem_cons_self, hpx⟩
      · rintro ⟨ha, hpa⟩
        exact ((List.mem_cons.1 ha).resolve_right fun hxa => hx a hxa ⟨hpx, hpa⟩).symm

/-- `ceilLog2` is the least exponent of 2 that reaches the number (00_scope.md R13). -/
theorem ceilLog2_le_iff {k m : Nat} : ceilLog2 k ≤ m ↔ k ≤ 2 ^ m := by
  have hpos := Nat.one_le_two_pow (n := m)
  unfold ceilLog2
  split
  · omega
  · rw [Nat.add_one_le_iff, Nat.log2_lt (by omega)]
    omega

/-! ### Size encodings -/

theorem Size.mem_byte_word_long (z : Size) : z ∈ [Size.byte, .word, .long] := by cases z <;> decide

section
variable {e : SizeEnc} {z : Size} {b c m : Nat}

theorem SizeEnc.mem_codes_iff : c ∈ e.codes ↔ e.byte = some c ∨ e.word = some c ∨ e.long = some c := by
  simp [codes, encode]

theorem SizeEnc.mem_codes_iff_encode : c ∈ e.codes ↔ ∃ z, e.encode z = some c := by
  rw [codes, List.mem_filterMap]
  exact exists_congr fun z => and_iff_right z.mem_byte_word_long

theorem SizeEnc.width_le_iff : e.width ≤ m ↔ ∀ c ∈ e.codes, c < 2 ^ m := by
  have hmax := List.max?_le_iff (List.max?_cons' (x := 0) (xs := e.codes)) (x := 2 ^ m - 1)
  have hpos := Nat.two_pow_pos m
  rw [width, ceilLog2_le_iff, Nat.add_one_le_iff, Nat.lt_iff_le_pred hpos, hmax, List.forall_mem_cons,
    and_iff_right (Nat.zero_le _)]
  simp only [Nat.lt_iff_le_pred hpos]

/-- Every code is a value of the field. -/
theorem SizeEnc.lt_two_pow_width (h : e.encode z = some c) : c < 2 ^ e.width :=
  width_le_iff.1 le_rfl c (mem_codes_iff_encode.2 ⟨z, h⟩)

theorem SizeEnc.codes_ne_nil (h : e.wf = true) : e.codes ≠ [] := (of_decide_eq_true h).1

theorem SizeEnc.codes_nodup (h : e.wf = true) : e.codes.Nodup := (of_decide_eq_true h).2

/-- `SZDEC` inverts `SZENC`, as no two sizes share a code (R175, R181). -/
theorem SizeEnc.decode_eq_some_iff (h : e.wf = true) : e.decode b = some z ↔ e.encode z = some b := by
  have hdistinct : [Size.byte, .word, .long].Pairwise
      fun y z => ¬ ((e.encode y == some b) = true ∧ (e.encode z == some b) = true) :=
    (List.pairwise_filterMap.1 (codes_nodup h)).imp fun hne ⟨hy, hz⟩ => hne b (beq_iff_eq.1 hy) b (beq_iff_eq.1 hz) rfl
  rw [decode, find?_eq_some_iff_of_pairwise hdistinct, beq_iff_eq]
  exact and_iff_right z.mem_byte_word_long

theorem SizeEnc.decode_isSome_iff (h : e.wf = true) : (e.decode b).isSome = true ↔ b ∈ e.codes := by
  simp only [Option.isSome_iff_exists, decode_eq_some_iff h, mem_codes_iff_encode]

theorem SizeEnc.count_eq_length_filter : e.count = ([e.byte, e.word, e.long].filter Option.isSome).length := by
  rw [count, codes, List.length_filterMap_eq_countP, ← List.countP_eq_length_filter]
  rfl

/-- The values of the field that decode to a size are the codes, each of them once. -/
theorem SizeEnc.decodable_perm_codes (h : e.wf = true) :
    ((List.range (2 ^ e.width)).filter fun b => (e.decode b).isSome).Perm e.codes := by
  refine (List.perm_ext_iff_of_nodup (List.nodup_range.filter _) (codes_nodup h)).2 fun b => ?_
  rw [List.mem_filter, List.mem_range, decode_isSome_iff h]
  exact and_iff_right_of_imp (width_le_iff.1 le_rfl b)

end

/-! ### Addressing-mode encodings -/

theorem fieldAccepts_iff {c : Option Nat} {v : Nat} : fieldAccepts c v = true ↔ c = none ∨ c = some v := by
  cases c with
  | none => simp [fieldAccepts]
  | some k => simp [fieldAccepts, eq_comm (a := v)]

/-- Two constraints that accept one field value meet. -/
theorem fieldMeets_of_fieldAccepts {width v : Nat} {a b : Option Nat} (hv : v < 2 ^ width) (ha : fieldAccepts a v = true)
    (hb : fieldAccepts b v = true) : fieldMeets width a b = true := by
  obtain rfl | rfl := fieldAccepts_iff.1 ha <;> obtain rfl | rfl := fieldAccepts_iff.1 hb <;> simp [fieldMeets, hv]

section
variable {e : AmEnc} {m n : Nat} {v : Variant}

theorem AmEnc.mField_eq (e : AmEnc) (w : Word) : e.mField w = w.toNat / 2 ^ e.mPos % 2 ^ e.mWidth := extract_toNat w e.mPos e.mWidth

theorem AmEnc.widths_le (h : e.wf = true) : e.mWidth + e.nWidth ≤ 6 := (of_decide_eq_true h).2.2.1

/-- No two rows of the table accept the same field values (R188). -/
theorem AmEnc.rows_exclusive (h : e.wf = true) (hm : m < 2 ^ e.mWidth) (hn : n < 2 ^ e.nWidth) :
    e.rows.Pairwise fun r q => ¬ ((fieldAccepts r.m m && fieldAccepts r.n n) = true ∧
      (fieldAccepts q.m m && fieldAccepts q.n n) = true) := by
  obtain ⟨-, -, -, hrows⟩ := of_decide_eq_true h
  simp only [Bool.and_eq_true]
  exact hrows.imp fun ⟨_, hmeet⟩ ⟨⟨hrm, hrn⟩, hqm, hqn⟩ =>
    hmeet ⟨fieldMeets_of_fieldAccepts hm hrm hqm, fieldMeets_of_fieldAccepts hn hrn hqn⟩

theorem AmEnc.variantOf_eq_some_iff (h : e.wf = true) (hm : m < 2 ^ e.mWidth) (hn : n < 2 ^ e.nWidth) :
    e.variantOf m n = some v ↔ ∃ row ∈ e.rows, row.variant = v ∧ (row.m = none ∨ row.m = some m) ∧
      (row.n = none ∨ row.n = some n) := by
  simp only [variantOf, Option.map_eq_some_iff, find?_eq_some_iff_of_pairwise (rows_exclusive h hm hn), Bool.and_eq_true,
    fieldAccepts_iff, and_assoc, and_comm (a := _ = v)]

theorem AmEnc.dense_length (e : AmEnc) : e.dense.length = 2 ^ (e.mWidth + e.nWidth) := by
  rw [dense, List.length_map, List.length_range]

/-- The dense table at index `(m << n_width) | n` (R189). -/
theorem AmEnc.dense_getElem? (hm : m < 2 ^ e.mWidth) (hn : n < 2 ^ e.nWidth) :
    e.dense[m * 2 ^ e.nWidth + n]? = some (e.variantOf m n) := by
  have hidx : m * 2 ^ e.nWidth + n < 2 ^ (e.mWidth + e.nWidth) := by
    calc m * 2 ^ e.nWidth + n < (m + 1) * 2 ^ e.nWidth := by rw [Nat.succ_mul]; exact Nat.add_lt_add_left hn _
      _ ≤ 2 ^ e.mWidth * 2 ^ e.nWidth := Nat.mul_le_mul_right _ hm
      _ = 2 ^ (e.mWidth + e.nWidth) := (Nat.pow_add ..).symm
  have hdiv : (m * 2 ^ e.nWidth + n) / 2 ^ e.nWidth = m := by
    rw [Nat.mul_comm, Nat.mul_add_div (Nat.two_pow_pos _), Nat.div_eq_of_lt hn, Nat.add_zero]
  have hmod : (m * 2 ^ e.nWidth + n) % 2 ^ e.nWidth = n := by rw [Nat.mul_add_mod_self_right, Nat.mod_eq_of_lt hn]
  rw [dense, List.getElem?_map, List.getElem?_range hidx, Option.map_some, hdiv, hmod]

end

end Sys2Proof

namespace Sys2Proof.Machine

/-! ### The operations -/

section
variable {e : SizeEnc}

theorem exec_szwidth (h : e.wf = true) (s : State) : exec (.szwidth e) s = .next { s with out := .number e.width } :=
  inDomain_returns (i := .szwidth e) h s _

theorem exec_szcount (h : e.wf = true) (s : State) : exec (.szcount e) s = .next { s with out := .number e.count } :=
  inDomain_returns (i := .szcount e) h s _

theorem exec_szenc (h : e.wf = true) (z : Size) (s : State) :
    exec (.szenc e z) s = .next { s with out := .code (e.encode z) } :=
  inDomain_returns (i := .szenc e z) h s _

theorem exec_szdec (h : e.wf = true) {b : Nat} (hb : b < 2 ^ e.width) (s : State) :
    exec (.szdec e b) s = .next { s with out := .size (e.decode b) } :=
  inDomain_returns (i := .szdec e b) (by simp [Instr.wf, h, hb]) s _

end

theorem exec_amdec {e : AmEnc} (h : e.wf = true) (w : Word) (s : State) :
    exec (.amdec e w) s = .next { s with out := .variant ((e.decode w).map fun v => (v, e.nField w)) } :=
  inDomain_returns (i := .amdec e w) h s _

/-! ### The obligations -/

/-- Settles O22: the width bounds the largest code, and the values that decode to a size are the codes. -/
theorem sizeFieldWidthAndCount : Obligations.SizeFieldWidthAndCount := by
  refine ⟨fun s e he => ⟨e.width, exec_szwidth he s, fun m => ?_⟩, fun s e he => ⟨e.count, exec_szcount he s, ?_, ?_,
    SizeEnc.count_eq_length_filter, (SizeEnc.decodable_perm_codes he).length_eq.symm⟩⟩
  · simp only [SizeEnc.width_le_iff, SizeEnc.mem_codes_iff]
  · exact List.length_pos_iff.2 (SizeEnc.codes_ne_nil he)
  · exact List.length_filterMap_le ..

/-- Settles O23: codes are distinct, so the size found for a value of the field is the one with that code, and every code is a value
of the field. -/
theorem szdecAndSzencAreInverse : Obligations.SzdecAndSzencAreInverse := by
  refine ⟨fun s e z he => exec_szenc he z s,
    fun s e b he hb => ⟨e.decode b, exec_szdec he hb s, fun z => SizeEnc.decode_eq_some_iff he⟩, fun s e z c he hz => ?_⟩
  rw [exec_szdec he (SizeEnc.lt_two_pow_width hz), (SizeEnc.decode_eq_some_iff he).2 hz]

/-- Settles O24: no two rows accept the same field values, so the first row found is the only one, and the dense table lists the
search's answer for every pair. -/
theorem amdecFindsTheOneVariant : Obligations.AmdecFindsTheOneVariant := by
  intro s e w he
  have hm : e.mField w < 2 ^ e.mWidth := BitVec.isLt _
  have hn : e.nField w < 2 ^ e.nWidth := BitVec.isLt _
  have hsize : 2 ^ (e.mWidth + e.nWidth) ≤ 2 ^ 6 := Nat.pow_le_pow_right (by decide) (AmEnc.widths_le he)
  refine ⟨_, exec_amdec he w s, fun v k => ?_, e.dense_length, e.dense_length.trans_le hsize, ?_⟩
  · rw [← amNumber, ← AmEnc.nField_eq_amNumber, ← AmEnc.mField_eq, ← AmEnc.variantOf_eq_some_iff he hm hn, ← AmEnc.decode]
    simp [and_comm, eq_comm]
  · rw [← amNumber, ← AmEnc.nField_eq_amNumber, ← AmEnc.mField_eq, AmEnc.dense_getElem? hm hn, ← AmEnc.decode]
    simp [Function.comp_def]

end Sys2Proof.Machine
end

section
/-! The microcode statements (44_microcode.md): the steps as one fetch, one access or one register update each, the three parts of an `ea`
step, and the two forms of `abcd` as the run of their five steps. -/

namespace Sys2Proof

theorem Size.bytes_eq (w : Size) : w.bytes = w.bits / 8 := by cases w <;> rfl

theorem Variant.usesRegister_parts {v : Variant} {c : Bool} {op : EaOp} :
    v.usesRegister c op = true ↔ v.usesRegister c .none = true ∨ v.usesRegister false op = true := by
  simp [Variant.usesRegister_iff]

end Sys2Proof

namespace Sys2Proof.Machine

/-! ### Operations that do one fetch -/

theorem toOutcome_eq_refused {x : Res State} {r : Refusal} : toOutcome x = .refused r ↔ x = refuse r := by
  match x with
  | .ok s => exact ⟨fun h => (by cases h), fun h => (by cases h)⟩
  | .error (.fault f) => exact ⟨fun h => (by cases h), fun h => (by cases h)⟩
  | .error (.refused q) => exact ⟨fun h => (by cases h; rfl), fun h => (by cases h; rfl)⟩

theorem exec_fetchw_eq_refused {w : Size} {s : State} {r : Refusal} :
    exec (.fetchw w) s = .refused r ↔ fetchStream w s = refuse r := by
  refine ⟨fun h => ?_, exec_fetchw_of_refused⟩
  rw [exec, execFetchw, toOutcome_eq_refused] at h
  cases hf : fetchStream w s with
  | ok p => rw [hf] at h; cases h
  | error e => rw [hf] at h; cases h; rfl

theorem fetched_ram {s : State} {w : Size} (h : s.streamReady w) : s.fetched w (s.streamValue w) (s.afterFetch w) :=
  fetched_iff.2 (fetchStream_ram h)

/-- An operation that fetches and then works without a stop: it does that work on what `FETCHW` gives, whatever the device, and it is
refused as `FETCHW` is. -/
theorem exec_of_fetch {i : Instr} {s : State} {w : Size} {g : Long × State → State}
    (h : exec i s = toOutcome (g <$> fetchStream w s)) :
    (∀ x f, s.fetched w x f → exec i s = .next (g (x, f))) ∧
      (∀ r, exec (.fetchw w) s = .refused r → exec i s = .refused r) := by
  refine ⟨fun x f hf => ?_, fun r hr => ?_⟩
  · rw [h, fetched_iff.1 hf]; rfl
  · rw [h, exec_fetchw_eq_refused.1 hr]; rfl

theorem streamValue_word_setWidth (s : State) : (s.streamValue .word).setWidth 16 = s.wordAt s.cpu.pc := by
  rw [State.streamValue, BitVec.setWidth_setWidth_of_le _ (by decide), BitVec.setWidth_eq]

theorem stepFetch_eq (s : State) : stepFetch s = (fun p => p.2.setIr (p.1.setWidth 16)) <$> fetchStream .word s := by
  rw [stepFetch]
  cases fetchStream .word s <;> rfl

theorem exec_fetch_eq (s : State) :
    exec .fetch s = toOutcome ((fun p => p.2.setIr (p.1.setWidth 16)) <$> fetchStream .word s) :=
  congrArg toOutcome (stepFetch_eq s)

theorem fetchDisp_eq (s : State) :
    fetchDisp s = (fun p => ((p.1.setWidth 16).signExtend 32, p.2)) <$> fetchStream .word s := by
  rw [fetchDisp]
  cases fetchStream .word s <;> rfl

/-- The fetch leaves every register but `pc`, so the index register is read as it was. -/
theorem extword_eq (s : State) :
    extword s = (fun p => (s.cpu.indexValue (p.1.setWidth 16), p.2)) <$> fetchStream .word s := by
  rw [extword]
  cases h : fetchStream .word s with
  | error e => rfl
  | ok p =>
    obtain ⟨x, f⟩ := p
    obtain ⟨xs, rfl⟩ := fetchStream_ok h
    rfl

theorem exec_extword_eq (s : State) :
    exec .extword s = toOutcome
      ((fun p => { p.2 with out := .bits 32 (s.cpu.indexValue (p.1.setWidth 16)).toNat }) <$> fetchStream .word s) := by
  rw [exec, execExtword, extword_eq]
  cases fetchStream .word s <;> rfl

/-- The value of an extension word takes no padding bit (R106). -/
theorem Cpu.indexValue_congr {e f : Word} (h : e &&& 0xF8FF = f &&& 0xF8FF) (c : Cpu) : c.indexValue e = c.indexValue f := by
  have hbit : ∀ i < 16, (0xF8FF : Word).getLsbD i = true → e.getLsbD i = f.getLsbD i := fun i _ hi => by
    simpa only [BitVec.getLsbD_and, hi, Bool.and_true] using congrArg (BitVec.getLsbD · i) h
  have hdisp : e.setWidth 8 = f.setWidth 8 := BitVec.eq_of_getLsbD_eq fun i hi => by
    simpa [hi] using hbit i (by omega) (by revert hi; revert i; decide)
  have hreg : e.extractLsb' 12 3 = f.extractLsb' 12 3 := BitVec.eq_of_getLsbD_eq fun i hi => by
    simpa [hi] using hbit (12 + i) (by omega) (by revert hi; revert i; decide)
  rw [Cpu.indexValue, Cpu.indexValue, hdisp, hreg, hbit 15 (by decide) (by decide), hbit 11 (by decide) (by decide)]

/-! ### Words at a width -/

theorem lowZero_eq_zeroLow (w : Size) (v : Long) : lowZero w v = Size.zeroLow w v := by
  rw [lowZero, ← zeroLow_toNat, BitVec.ofNat_toNat, BitVec.setWidth_eq]

theorem lowZero_toNat_lt (w : Size) (v : Long) : (lowZero w v).toNat < 2 ^ w.bits := by
  rw [lowZero_eq_zeroLow, zeroLow_toNat]
  exact Nat.mod_lt _ (Nat.two_pow_pos _)

theorem lowReplaced_eq_overwrite (w : Size) (old v : Long) : lowReplaced w old v = overwrite old (truncate w.bits v) := by
  have hbits : w.bits ≤ 32 := by cases w <;> decide
  rw [lowReplaced, ← BitVec.toNat_setWidth, ← truncate, ← overwrite_toNat hbits, BitVec.ofNat_toNat, BitVec.setWidth_eq]

theorem extract_three_eq_ofNat (x : Word) (lo : Nat) : extract x lo 3 = BitVec.ofNat 3 (x.toNat / 2 ^ lo) :=
  BitVec.eq_of_toNat_eq (by rw [extract_toNat, BitVec.toNat_ofNat])

theorem Cpu.loadReg_data (c : Cpu) (w : Size) (n : BitVec 3) : c.loadReg w .data n = lowZero w (c.getD n) :=
  (lowZero_eq_zeroLow w _).symm

theorem Cpu.loadReg_addr (c : Cpu) (w : Size) (n : BitVec 3) : c.loadReg w .addr n = lowSigned w (c.getA n) := rfl

theorem State.storeReg_data (s : State) (w : Size) (n : BitVec 3) (v : Long) :
    s.storeReg w .data n v = s.setD n (lowReplaced w (s.cpu.getD n) v) := by
  rw [State.storeReg, lowReplaced_eq_overwrite]

theorem State.storeReg_addr (s : State) (w : Size) (n : BitVec 3) (v : Long) :
    s.storeReg w .addr n v = s.setA n (lowSigned w v) := rfl

/-! ### The use of a slot -/

theorem State.useWord_eq (s : State) (v : Option Long) :
    s.useWord v = (s.slotWord v, { s with free := s.free + freeUsed v }) := by cases v <;> rfl

theorem storeToReg_eq (w : Size) (cls : RegClass) (n : BitVec 3) (t : Slot) (s : State) :
    storeToReg w cls n t s = .ok (State.storeReg { s with free := s.free + freeUsed (s.exec.slot t).data } w cls n
      (s.slotWord (s.exec.slot t).data)) := by
  rw [storeToReg, State.useData, State.useWord_eq]
  rfl

/-! ### The parts of an `ea` step -/

section
variable {s : State} {w : Size} {t : Slot} {c k : Bool} {op : EaOp} {enc : AmEnc} {v : Variant}

/-- An `ea` step that has a meaning is its three parts in order (R200). -/
theorem stepEa_eq (he : enc.wf = true) (hv : enc.decode s.cpu.ir = some v)
    (hn : v.usesRegister c op = true → amNumber enc s.cpu.ir < 8) :
    stepEa w t c k op enc s = eaAddress c v (amRegister enc s.cpu.ir) w t s >>= fun u =>
      eaTransfer op v (amRegister enc s.cpu.ir) w t (eaPenalty k v u) := by
  rw [← enc.nField_eq_amNumber] at hn
  rw [stepEa, if_neg (by simp [he]), hv]
  simp only [amRegister, ← enc.nField_eq_amNumber]
  exact if_neg fun h => absurd (hn h.1) (Nat.not_lt.2 h.2)

/-- Everything an `ea` step that completes has passed. -/
theorem stepEa_ok {u : State} (h : stepEa w t c k op enc s = .ok u) :
    enc.wf = true ∧ ∃ v, enc.decode s.cpu.ir = some v ∧ (v.usesRegister c op = true → amNumber enc s.cpu.ir < 8) := by
  by_cases he : enc.wf = true
  case neg => rw [stepEa_of_not_wf (by simpa using he)] at h; cases h
  cases hv : enc.decode s.cpu.ir with
  | none => rw [stepEa_of_absent he hv] at h; cases h
  | some v =>
    refine ⟨he, v, rfl, fun huse => Nat.lt_of_not_le fun hn => ?_⟩
    rw [← enc.nField_eq_amNumber] at hn
    rw [stepEa_of_registerAbsent he hv huse hn] at h
    cases h

theorem exec_eaStep_address (he : enc.wf = true) (hv : enc.decode s.cpu.ir = some v)
    (hn : v.usesRegister true .none = true → amNumber enc s.cpu.ir < 8) :
    exec (.eaStep w t true k .none enc) s =
      toOutcome (eaPenalty k v <$> calcAddress v (amRegister enc s.cpu.ir) w t s) := by
  rw [exec, execEaStep, stepEa_eq he hv hn, eaAddress, if_pos rfl]
  cases calcAddress v (amRegister enc s.cpu.ir) w t s <;> rfl

theorem exec_eaStep_transfer (he : enc.wf = true) (hv : enc.decode s.cpu.ir = some v)
    (hn : v.usesRegister false op = true → amNumber enc s.cpu.ir < 8) :
    exec (.eaStep w t false false op enc) s = toOutcome (eaTransfer op v (amRegister enc s.cpu.ir) w t s) := by
  rw [exec, execEaStep, stepEa_eq he hv hn]
  rfl

end

theorem eaPenalty_eq (k : Bool) (v : Variant) (s : State) :
    eaPenalty k v s = if k then s.addClk (if v ∈ [Variant.addrDec, .addrIdx, .pcIdx] then 2 else 0) else s := by
  cases v <;> rfl

/-! ### The address of a variant that reads the stream -/

/-- The address of a variant that reads one word `e` of the stream (R203); 0 for the others. -/
def wordAddress (c : Cpu) (n : BitVec 3) (v : Variant) (e : Word) : Long :=
  match v with
  | .addrDisp => c.getA n + e.signExtend 32
  | .addrIdx => c.getA n + c.indexValue e
  | .pcDisp => c.pc + e.signExtend 32
  | .pcIdx => c.pc + c.indexValue e
  | .absShort => e.signExtend 32
  | _ => 0

theorem calcAddress_of_word {v : Variant} (hv : v ∈ [Variant.addrDisp, .addrIdx, .pcDisp, .pcIdx, .absShort]) (n : BitVec 3)
    (w : Size) (t : Slot) (s : State) :
    calcAddress v n w t s =
      (fun p => p.2.setAddr t (wordAddress s.cpu n v (p.1.setWidth 16))) <$> fetchStream .word s := by
  cases v with
  | addrDisp | pcDisp | absShort => rw [calcAddress, fetchDisp_eq]; cases fetchStream .word s <;> rfl
  | addrIdx | pcIdx => rw [calcAddress, extword_eq]; cases fetchStream .word s <;> rfl
  | _ => simp at hv

theorem calcAddress_absLong (n : BitVec 3) (w : Size) (t : Slot) (s : State) :
    calcAddress .absLong n w t s = (fun p => p.2.setAddr t p.1) <$> fetchStream .long s := by
  rw [calcAddress]
  cases fetchStream .long s <;> rfl

/-! ### Loads and stores -/

theorem eaLoad_imm (n : BitVec 3) (w : Size) (t : Slot) (s : State) :
    eaLoad .imm n w t s = (fun p => p.2.setData t p.1) <$> fetchStream w s := by
  rw [eaLoad]
  cases fetchStream w s <;> rfl

section
variable {s : State} {w : Size} {t : Slot} {v : Variant}

theorem eaLoad_memory (hv : v ∉ [Variant.dataReg, .addrReg, .imm]) (n : BitVec 3) :
    eaLoad v n w t s = (fun p => p.2.setData t p.1) <$>
      memRead w (s.slotWord (s.exec.slot t).addr) { s with free := s.free + freeUsed (s.exec.slot t).addr } := by
  have hload : eaLoad v n w t s = loadMemory w t s := by
    cases v with
    | dataReg | addrReg | imm => simp at hv
    | _ => rfl
  rw [hload, loadMemory, State.useAddr, State.useWord_eq]
  dsimp only
  cases memRead w _ _ <;> rfl

theorem eaLoad_ram (hv : v ∉ [Variant.dataReg, .addrReg, .imm]) (hram : s.ramAccess w (s.slotWord (s.exec.slot t).addr))
    (n : BitVec 3) :
    eaLoad v n w t s = .ok ((State.afterRead { s with free := s.free + freeUsed (s.exec.slot t).addr } w
      (s.slotWord (s.exec.slot t).addr)).setData t (s.ramValue w (s.slotWord (s.exec.slot t).addr))) := by
  rw [eaLoad_memory hv, memRead_ram (s := { s with free := s.free + freeUsed (s.exec.slot t).addr }) hram]
  rfl

theorem eaLoad_memory_of_addr (hv : v ∉ [Variant.dataReg, .addrReg, .imm]) {addr : Long} (ha : (s.exec.slot t).addr = some addr)
    (n : BitVec 3) : eaLoad v n w t s = (fun p => p.2.setData t p.1) <$> memRead w addr s := by
  rw [eaLoad_memory hv, ha]
  rfl

/-- The data is used before the address, so it takes the first open value (log 11). -/
theorem eaStore_memory (hv : v ∉ [Variant.dataReg, .addrReg, .imm]) (n : BitVec 3) :
    let s1 : State := { s with free := s.free + freeUsed (s.exec.slot t).data }
    eaStore v n w t s = memWrite w (s1.slotWord (s.exec.slot t).addr) (lowZero w (s.slotWord (s.exec.slot t).data))
      { s1 with free := s1.free + freeUsed (s.exec.slot t).addr } := by
  have hstore : eaStore v n w t s = storeMemory w t s := by
    cases v with
    | dataReg | addrReg | imm => simp at hv
    | _ => rfl
  rw [hstore, storeMemory, State.useData, State.useWord_eq, lowZero_eq_zeroLow]
  dsimp only
  rw [State.useAddr, State.useWord_eq]

theorem eaStore_ram (hv : v ∉ [Variant.dataReg, .addrReg, .imm]) (hwf : Memory.wf s.mem) :
    let s1 : State := { s with free := s.free + freeUsed (s.exec.slot t).data }
    let addr := s1.slotWord (s.exec.slot t).addr
    let data := lowZero w (s.slotWord (s.exec.slot t).data)
    s.ramAccess w addr → ∀ n, ∃ m : Memory, s.bus.stores w addr data s.mem m ∧
      eaStore v n w t s =
        .ok (State.afterWrite { s1 with free := s1.free + freeUsed (s.exec.slot t).addr } w addr data m) := by
  intro s1 addr data hram n
  obtain ⟨m, hstores, -, hok⟩ :=
    memWrite_ram (s := { s1 with free := s1.free + freeUsed (s.exec.slot t).addr }) hwf hram data
  exact ⟨m, hstores, (eaStore_memory hv n).trans hok⟩

theorem eaStore_memory_of_slot (hv : v ∉ [Variant.dataReg, .addrReg, .imm]) {addr x : Long}
    (ha : (s.exec.slot t).addr = some addr) (hx : (s.exec.slot t).data = some x) (n : BitVec 3) :
    eaStore v n w t s = memWrite w addr (lowZero w x) s := by
  rw [eaStore_memory hv, ha, hx]
  rfl

end

/-! ### The other steps -/

theorem exec_of_stepInstr {width : Option Size} {st : Step} {i : Instr} (h : stepInstr width st = some i) (s : State) :
    exec i s = toOutcome (runStep width st s) := by
  cases st with
  | ea | ldReg | stReg =>
    cases width with
    | none => cases h
    | some w => cases h; rfl
  | fetch | bcd | cycles => cases h; rfl

theorem exec_ldReg {pos : Nat} (h : pos ≤ 13) (w : Size) (t : Slot) (cls : RegClass) (s : State) :
    exec (.ldReg w t cls pos) s = .next (s.setData t (s.cpu.loadReg w cls (extract s.cpu.ir pos 3))) := by
  rw [exec, execLdReg, stepLdReg, if_neg (Nat.not_lt.2 h), toOutcome_pure]

theorem exec_stReg {pos : Nat} (h : pos ≤ 13) (w : Size) (cls : RegClass) (s : State) :
    exec (.stReg w cls pos) s = .next (State.storeReg { s with free := s.free + freeUsed s.exec.dst.data } w cls
      (extract s.cpu.ir pos 3) (s.slotWord s.exec.dst.data)) := by
  rw [exec, execStReg, stepStReg, if_neg (Nat.not_lt.2 h), storeToReg_eq, toOutcome_eq_next]
  rfl

theorem bcdArith_eq_decimalArith (op : BcdOp) (dst src : Byte) (x : Bool) : bcdArith op dst src x = decimalArith op dst src x := by
  cases op with
  | add => exact bcdAdd_eq_decimalAdd dst src x
  | sub => exact bcdSub_eq_decimalSub dst src x

theorem stepBcd_eq (op : BcdOp) (s : State) :
    let s1 : State := { s with free := s.free + freeUsed s.exec.src.data }
    let r := decimalArith op ((s1.slotWord s.exec.dst.data).setWidth 8) ((s.slotWord s.exec.src.data).setWidth 8) s.cpu.sr.x
    stepBcd op s = .ok
      { s1 with
        cpu := { s.cpu with sr := { s.cpu.sr with c := r.2, x := r.2, z := s.cpu.sr.z && decide (r.1 = 0) } }
        exec := { s.exec with dst := { s.exec.dst with data := some (r.1.setWidth 32) }, clk := s.exec.clk + 2 }
        free := s1.free + freeUsed s.exec.dst.data } := by
  rw [stepBcd, State.useData, State.useWord_eq]
  dsimp only
  rw [State.useData, State.useWord_eq, bcdArith_eq_decimalArith]
  rfl

/-! ### The fields of an `abcd` word -/

theorem amNumber_lt_two_pow (e : AmEnc) (w : Word) : amNumber e w < 2 ^ e.nWidth := Nat.mod_lt _ (Nat.two_pow_pos _)

theorem abcdRS_wf : abcdRS.wf = true := by decide
theorem abcdRD_wf : abcdRD.wf = true := by decide
theorem abcdRS_decode_reg : ∀ dst src, abcdRS.decode (abcdWord 0 dst src) = some .dataReg := by decide
theorem abcdRD_decode_reg : ∀ dst src, abcdRD.decode (abcdWord 0 dst src) = some .dataReg := by decide
theorem abcdRS_decode_mem : ∀ dst src, abcdRS.decode (abcdWord 1 dst src) = some .addrDec := by decide
theorem abcdRD_decode_mem : ∀ dst src, abcdRD.decode (abcdWord 1 dst src) = some .addrDec := by decide
theorem amRegister_abcdRS : ∀ m dst src, amRegister abcdRS (abcdWord m dst src) = src := by decide
theorem amRegister_abcdRD : ∀ m dst src, amRegister abcdRD (abcdWord m dst src) = dst := by decide

/-! ### The states of an `abcd` run -/

/-- The state after the address part of a pre-decrement (R203). -/
def State.predec (s : State) (w : Size) (t : Slot) (n : BitVec 3) : State :=
  (s.setA n (s.cpu.getA n - BitVec.ofNat 32 w.bytes)).setAddr t (s.cpu.getA n - BitVec.ofNat 32 w.bytes)

/-- The state after a pre-decrement and a load from RAM (R203, R207). -/
def State.afterPredecLoad (s : State) (w : Size) (t : Slot) (n : BitVec 3) : State :=
  ((s.predec w t n).afterRead w (s.cpu.getA n - BitVec.ofNat 32 w.bytes)).setData t
    (s.ramValue w (s.cpu.getA n - BitVec.ofNat 32 w.bytes))

/-- The state after a `bcd` step with the result `r` (R221). -/
def State.afterBcd (s : State) (r : Byte × Bool) : State :=
  ((s.setData .dst (r.1.setWidth 32)).setSr
    { s.cpu.sr with c := r.2, x := r.2, z := s.cpu.sr.z && decide (r.1 = 0) }).addClk 2

/-- The state after the two loads of `abcd.b dS,dD`. -/
def abcdRegLoaded (s : State) (dst src : BitVec 3) : State :=
  ((s.handlerStart (abcdWord 0 dst src)).setData .src (lowZero .byte (s.cpu.getD src))).setData .dst
    (lowZero .byte (s.cpu.getD dst))

/-- The state after the two loads of `abcd.b -(aS),-(aD)`. -/
def abcdMemLoaded (s : State) (dst src : BitVec 3) : State :=
  ((s.handlerStart (abcdWord 1 dst src)).afterPredecLoad .byte .src src).afterPredecLoad .byte .dst dst

/-! ### The steps of an `abcd` run -/

theorem lowZero_byte_setWidth (v : Long) : (lowZero .byte v).setWidth 8 = v.setWidth 8 :=
  BitVec.eq_of_toNat_eq (by simp [lowZero, Size.bits])

theorem lowZero_byte_of_byte (b : Byte) : lowZero .byte (b.setWidth 32) = b.setWidth 32 := by
  rw [lowZero_eq_zeroLow]
  exact zeroLow_of_lt (w := .byte) (zext_toNat_lt 32 b)

theorem ramValue_byte_setWidth (s : State) (addr : Long) : (s.ramValue .byte addr).setWidth 8 = s.byteAtAddr addr := by
  rw [State.ramValue, BitVec.setWidth_setWidth_of_le _ (by decide), BitVec.setWidth_eq]

section
variable {s : State} {w : Size} {t : Slot} {c : Bool} {enc : AmEnc} {n : BitVec 3}

theorem stepEa_load_dataReg (he : enc.wf = true) (hv : enc.decode s.cpu.ir = some .dataReg) (hn : amNumber enc s.cpu.ir < 8)
    (hreg : amRegister enc s.cpu.ir = n) :
    stepEa w t c false .load enc s = .ok (s.setData t (lowZero w (s.cpu.getD n))) := by
  rw [stepEa_eq he hv fun _ => hn, hreg, ← Cpu.loadReg_data]
  cases c <;> rfl

theorem stepEa_store_dataReg (he : enc.wf = true) (hv : enc.decode s.cpu.ir = some .dataReg) (hn : amNumber enc s.cpu.ir < 8)
    (hreg : amRegister enc s.cpu.ir = n) {x : Long} (hx : (s.exec.slot t).data = some x) :
    stepEa w t false false .store enc s = .ok (s.setD n (lowReplaced w (s.cpu.getD n) x)) := by
  rw [stepEa_eq he hv fun _ => hn, hreg]
  refine (storeToReg_eq w .data n t s).trans ?_
  rw [hx, State.storeReg_data]
  rfl

theorem stepEa_load_addrDec (he : enc.wf = true) (hv : enc.decode s.cpu.ir = some .addrDec) (hn : amNumber enc s.cpu.ir < 8)
    (hreg : amRegister enc s.cpu.ir = n) (hram : s.ramAccess w (s.cpu.getA n - BitVec.ofNat 32 w.bytes)) :
    stepEa w t true false .load enc s = .ok (s.afterPredecLoad w t n) := by
  rw [stepEa_eq he hv fun _ => hn, hreg]
  have haddr : ((s.predec w t n).exec.slot t).addr = some (s.cpu.getA n - BitVec.ofNat 32 w.bytes) := by simp [State.predec]
  refine (eaLoad_memory_of_addr (v := .addrDec) (by decide) haddr n).trans ?_
  rw [memRead_ram (s := s.predec w t n) hram]
  rfl

theorem stepEa_store_addrDec (he : enc.wf = true) (hv : enc.decode s.cpu.ir = some .addrDec) (hn : amNumber enc s.cpu.ir < 8)
    {a x : Long} (ha : (s.exec.slot t).addr = some a) (hx : (s.exec.slot t).data = some x) :
    stepEa w t false false .store enc s = memWrite w a (lowZero w x) s := by
  rw [stepEa_eq he hv fun _ => hn]
  exact eaStore_memory_of_slot (v := .addrDec) (by decide) ha hx (amRegister enc s.cpu.ir)

theorem stepBcd_of_slots {op : BcdOp} {x y : Long} (hx : s.exec.src.data = some x) (hy : s.exec.dst.data = some y) :
    stepBcd op s = .ok (s.afterBcd (decimalArith op (y.setWidth 8) (x.setWidth 8) s.cpu.sr.x)) := by
  rw [stepBcd_eq, hx, hy]
  rfl

theorem stepFetch_ram (h : s.streamReady .word) : stepFetch s = .ok ((s.afterFetch .word).setIr (s.wordAt s.cpu.pc)) := by
  rw [stepFetch_eq, fetchStream_ram h, ← streamValue_word_setWidth]
  rfl

end

/-- The two loads of `abcd`, in a new context (R232, R290). -/
def abcdLoads (w : Word) (s : State) : Res State :=
  stepEa .byte .src true false .load abcdRS (s.handlerStart w) >>= stepEa .byte .dst true false .load abcdRD

theorem abcdLoads_reg (s : State) (dst src : BitVec 3) :
    abcdLoads (abcdWord 0 dst src) s = .ok (abcdRegLoaded s dst src) :=
  Res.bind_eq_ok.2 ⟨_,
    stepEa_load_dataReg abcdRS_wf (abcdRS_decode_reg dst src) (amNumber_lt_two_pow ..) (amRegister_abcdRS 0 dst src),
    stepEa_load_dataReg abcdRD_wf (abcdRD_decode_reg dst src) (amNumber_lt_two_pow ..) (amRegister_abcdRD 0 dst src)⟩

theorem abcdLoads_mem {s : State} {dst src : BitVec 3} (hsrc : s.ramAccess .byte (s.cpu.getA src - 1))
    (hdst : s.ramAccess .byte ((s.cpu.setA src (s.cpu.getA src - 1)).getA dst - 1)) :
    abcdLoads (abcdWord 1 dst src) s = .ok (abcdMemLoaded s dst src) :=
  Res.bind_eq_ok.2 ⟨_,
    stepEa_load_addrDec abcdRS_wf (abcdRS_decode_mem dst src) (amNumber_lt_two_pow ..) (amRegister_abcdRS 1 dst src) hsrc,
    stepEa_load_addrDec abcdRD_wf (abcdRD_decode_mem dst src) (amNumber_lt_two_pow ..) (amRegister_abcdRD 1 dst src) hdst⟩

/-- `abcd` after its loads: the sum of the two slots, the store, the prefetch, and the context released (R232, R290). -/
theorem stepAbcd_of_loads {s u v : State} {w : Word} {x y : Long} {r : Byte × Bool} (hload : abcdLoads w s = .ok u)
    (hx : u.exec.src.data = some x) (hy : u.exec.dst.data = some y)
    (hr : decimalAdd (y.setWidth 8) (x.setWidth 8) u.cpu.sr.x = r)
    (hstore : stepEa .byte .dst false false .store abcdRD (u.afterBcd r) = .ok v) (hstream : v.streamReady .word) :
    stepAbcd w s = .ok { (v.afterFetch .word).setIr (v.wordAt v.cpu.pc) with
      exec := ExecCtx.fresh, out := .cycles (v.exec.clk + 4) } := by
  have hbcd : stepBcd .add u = .ok (u.afterBcd r) := hr ▸ stepBcd_of_slots hx hy
  have hsteps : runHandler (.pipeline abcdCode.steps (some .byte)) (s.handlerStart w) = abcdLoads w s >>= fun t =>
      stepBcd .add t >>= fun t => stepEa .byte .dst false false .store abcdRD t >>= fun t => stepFetch t >>= pure := by
    rw [abcdLoads, bind_assoc]
    rfl
  have hrun : stepAbcd w s = runHandler (.pipeline abcdCode.steps (some .byte)) (s.handlerStart w) >>= fun t =>
      pure { t with exec := ExecCtx.fresh, out := .cycles t.exec.clk } := rfl
  rw [hrun, hsteps, hload, Res.ok_bind, hbcd, Res.ok_bind, hstore, Res.ok_bind, stepFetch_ram hstream]
  rfl

/-! ### The obligations -/

/-- Settles O8: each step is the operation of its kind, and the bind of the steps hands on its stop. -/
theorem handlerRunsItsStepsInListOrder : Obligations.HandlerRunsItsStepsInListOrder := by
  refine ⟨fun _ _ => rfl, fun width st rest i s hi => ?_⟩
  have hcons : runHandler (.pipeline (st :: rest) width) s = runStep width st s >>= runHandler (.pipeline rest width) := rfl
  rw [exec_of_stepInstr hi, hcons]
  match runStep width st s with
  | .ok t => rfl
  | .error (.fault f) => rfl
  | .error (.refused r) => rfl

/-- Settles O37: a variant that reads the stream is one fetch, then its address into the slot; the address of the others, where they
have one, comes from the register. -/
theorem eaStepComputesTheAddress : Obligations.EaStepComputesTheAddress := by
  intro s w t k enc v he hv hn
  have hexec : exec (.eaStep w t true k .none enc) s =
      toOutcome (eaPenalty k v <$> calcAddress v (amRegister enc s.cpu.ir) w t s) :=
    exec_eaStep_address he hv (fun huse => hn (by simpa [Variant.usesRegister_iff] using huse))
  simp only [← Size.bytes_eq, ← eaPenalty_eq]
  cases v with
  | dataReg | addrReg | imm | addr | addrInc | addrDec => exact ⟨fun _ _ => hexec, by simp, by simp⟩
  | absLong =>
    rw [calcAddress_absLong, Functor.map_map] at hexec
    obtain ⟨hdone, hrefused⟩ := exec_of_fetch hexec
    have hpenalty : ∀ u, eaPenalty k .absLong u = u := by cases k <;> exact fun _ => rfl
    refine ⟨fun _ hlong => hdone _ _ (fetched_ram (hlong rfl)), by simp, fun _ => ⟨?_, hrefused⟩⟩
    simpa [hpenalty] using hdone
  | addrDisp | addrIdx | pcDisp | pcIdx | absShort =>
    rw [calcAddress_of_word (by simp), Functor.map_map] at hexec
    obtain ⟨hdone, hrefused⟩ := exec_of_fetch hexec
    refine ⟨fun hword _ => ?_, fun _ => ⟨hdone, hrefused⟩, by simp⟩
    rw [hdone _ _ (fetched_ram (hword (by simp)))]
    simp only [streamValue_word_setWidth]
    rfl

/-- Settles O39: the address part and the penalty leave `ir`, so the transfer alone finds the same variant and register; and where it is
refused for want of the register, so is the whole step. -/
theorem eaStepIsAddressThenTransfer : Obligations.EaStepIsAddressThenTransfer := by
  intro s u w t c k op enc h
  have hu : stepEa w t c k .none enc s = .ok u := toOutcome_eq_next.1 h
  have hir : u.cpu.ir = s.cpu.ir := (stepEa_writesOnly (List.Subset.refl _) hu).ir (by simp [eaWrites])
  obtain ⟨he, v, hv, haddr⟩ := stepEa_ok hu
  have hvu : enc.decode u.cpu.ir = some v := hir ▸ hv
  rw [exec, exec, execEaStep, execEaStep]
  by_cases htrans : v.usesRegister false op = true → amNumber enc s.cpu.ir < 8
  · rw [stepEa_eq he hv haddr] at hu
    obtain ⟨s1, hs1, hu⟩ := Res.bind_eq_ok.1 hu
    obtain rfl : eaPenalty k v s1 = u := Res.pure_eq_ok.1 hu
    rw [stepEa_eq he hv (fun huse => (Variant.usesRegister_parts.1 huse).elim haddr htrans), stepEa_eq he hvu (hir ▸ htrans),
      hs1, hir]
    rfl
  · obtain ⟨huse, hn⟩ := Classical.not_imp.1 htrans
    rw [← enc.nField_eq_amNumber, Nat.not_lt] at hn
    rw [stepEa_of_registerAbsent he hv (Variant.usesRegister_parts.2 (.inr huse)) hn,
      stepEa_of_registerAbsent he hvu huse (hir ▸ hn)]

/-- Settles O40: a memory variant's load is one read at the slot's address, an immediate's one fetch. -/
theorem eaStepLoads : Obligations.EaStepLoads := by
  intro s w t enc v he hv hn
  have hload : exec (.eaStep w t false false .load enc) s = toOutcome (eaLoad v (amRegister enc s.cpu.ir) w t s) :=
    exec_eaStep_transfer he hv fun huse => hn (by simpa [Variant.usesRegister_iff] using huse)
  have himm := fun h : v = .imm => exec_of_fetch (hload.trans (by rw [h, eaLoad_imm]))
  refine ⟨?_, ?_, fun h hs => (himm h).1 _ _ (fetched_ram hs), himm, fun hm hram => ?_,
    fun hm addr ha => ⟨fun u x hu hx => ?_, fun r hr => ?_⟩⟩
  · rintro rfl
    rw [hload, eaLoad, Cpu.loadReg_data, toOutcome_pure]
  · rintro rfl
    rw [hload, eaLoad, Cpu.loadReg_addr, toOutcome_pure]
  · rw [hload, eaLoad_ram hm hram, toOutcome_eq_next]
  · obtain ⟨y, t', hread, rfl⟩ := exec_read_eq_next hu
    obtain ⟨-, hxy⟩ := Result.bits.inj hx
    rw [hload, eaLoad_memory_of_addr hm ha, hread, ← hxy, BitVec.ofNat_toNat, BitVec.setWidth_eq, ← (memRead_hostOnly hread).out]
    rfl
  · rw [hload, eaLoad_memory_of_addr hm ha, exec_read_eq_refused.1 hr]
    rfl

/-- Settles O41: a memory variant's store is one write of the data's low bits at the slot's address. -/
theorem eaStepStores : Obligations.EaStepStores := by
  intro s w t enc v he hv hn
  have hstore : exec (.eaStep w t false false .store enc) s = toOutcome (eaStore v (amRegister enc s.cpu.ir) w t s) :=
    exec_eaStep_transfer he hv fun huse => hn (by simpa [Variant.usesRegister_iff] using huse)
  refine ⟨?_, ?_, ?_, fun hm hwf hram => ?_, fun hm addr x ha hx => ?_⟩
  · rintro rfl
    rw [hstore, eaStore, storeToReg_eq, State.storeReg_data, toOutcome_eq_next]
  · rintro rfl
    rw [hstore, eaStore, storeToReg_eq, State.storeReg_addr, toOutcome_eq_next]
  · rintro rfl
    rw [hstore, eaStore, toOutcome_pure]
  · obtain ⟨m, hstores, hok⟩ := eaStore_ram hm hwf hram (amRegister enc s.cpu.ir)
    exact ⟨m, hstores, hstore.trans (toOutcome_eq_next.2 hok)⟩
  · rw [hstore, eaStore_memory_of_slot hm ha hx, exec_write (lowZero_toNat_lt w x)]

/-- Settles O42: the three bits of the opcode are the register's number. -/
theorem ldregAndStregMoveARegister : Obligations.LdregAndStregMoveARegister := by
  refine ⟨fun s w t pos h => ?_, fun s w pos h => ?_⟩
  · rw [exec_ldReg h, exec_ldReg h, Cpu.loadReg_data, Cpu.loadReg_addr, extract_three_eq_ofNat]
    exact ⟨rfl, rfl⟩
  · rw [exec_stReg h, exec_stReg h, State.storeReg_data, State.storeReg_addr, extract_three_eq_ofNat]
    exact ⟨rfl, rfl⟩

/-- Settles O43: `Fetch` is one fetch of a word, put into `ir`. -/
theorem fetchLoadsTheInstructionRegister : Obligations.FetchLoadsTheInstructionRegister := by
  have hfetch := fun s => exec_of_fetch (exec_fetch_eq s)
  refine ⟨fun s hs => ?_, fun s => (hfetch s).1, fun s => (hfetch s).2⟩
  rw [(hfetch s).1 _ _ (fetched_ram hs), streamValue_word_setWidth]
  rfl

/-- Settles O44: the tables' arithmetic is decimal arithmetic. -/
theorem bcdAndCyclesSteps : Obligations.BcdAndCyclesSteps :=
  ⟨fun s op => toOutcome_eq_next.2 (stepBcd_eq op s), fun _ _ => rfl⟩

/-- Settles O45: `EXTWORD` is one fetch of a word, whose value reads the bits that R99 names. -/
theorem extwordReadsTheExtensionWord : Obligations.ExtwordReadsTheExtensionWord := by
  have hext := fun s => exec_of_fetch (exec_extword_eq s)
  refine ⟨fun s hs => ?_, fun s => (hext s).1, fun s => (hext s).2, fun c e f h => Cpu.indexValue_congr h c⟩
  rw [(hext s).1 _ _ (fetched_ram hs), streamValue_word_setWidth]

/-- Settles O53: the low bytes of the two registers go to the slots, their sum to the low byte of the destination, and the prefetch is the
one fetch. -/
theorem abcdRegisterForm : Obligations.AbcdRegisterForm := by
  intro s dst src hs r
  have hr : decimalAdd ((lowZero .byte (s.cpu.getD dst)).setWidth 8) ((lowZero .byte (s.cpu.getD src)).setWidth 8)
      s.cpu.sr.x = r := by
    rw [lowZero_byte_setWidth, lowZero_byte_setWidth]
  have hstore := stepEa_store_dataReg (s := (abcdRegLoaded s dst src).afterBcd r) (w := .byte) (t := .dst)
    abcdRD_wf (abcdRD_decode_reg dst src) (amNumber_lt_two_pow ..) (amRegister_abcdRD 0 dst src) rfl
  have hrun := stepAbcd_of_loads (abcdLoads_reg s dst src) rfl rfl hr hstore hs
  exact toOutcome_eq_next.2 hrun

/-- Settles O54: the second load decrements the register that the first has left, the store writes at the address that the second has put
into the slot, and the prefetch reads the RAM that the store has left. -/
theorem abcdMemoryForm : Obligations.AbcdMemoryForm := by
  intro s dst src sa c1 da c2 hwf hsa hda hs r
  have hr : decimalAdd ((s.ramValue .byte da).setWidth 8) ((s.ramValue .byte sa).setWidth 8) s.cpu.sr.x = r := by
    rw [ramValue_byte_setWidth, ramValue_byte_setWidth]
  obtain ⟨m, hstores, -, hwrite⟩ := memWrite_ram (s := (abcdMemLoaded s dst src).afterBcd r) hwf hda (r.1.setWidth 32)
  have hstore := stepEa_store_addrDec (s := (abcdMemLoaded s dst src).afterBcd r) (w := .byte) (t := .dst)
    abcdRD_wf (abcdRD_decode_mem dst src) (amNumber_lt_two_pow ..) (a := da) rfl rfl
  rw [lowZero_byte_of_byte, hwrite] at hstore
  have hrun := stepAbcd_of_loads (abcdLoads_mem hsa hda) rfl rfl hr hstore hs
  exact ⟨m, hstores, toOutcome_eq_next.2 hrun⟩

/-- Settles O38: neither part works without its request, and no register is used. -/
theorem eaStepWithoutRequestsDoesNothing : Obligations.EaStepWithoutRequestsDoesNothing := by
  intro s w t enc v he hv
  have hn : v.usesRegister false .none = true → amNumber enc s.cpu.ir < 8 := by simp [Variant.usesRegister_iff]
  have hstep : ∀ k, exec (.eaStep w t false k .none enc) s = .next (eaPenalty k v s) := fun k => by
    rw [exec, execEaStep, stepEa_eq he hv hn]
    rfl
  rw [hstep, hstep, eaPenalty_eq true]
  exact ⟨rfl, rfl⟩

end Sys2Proof.Machine
end

section
/-! The permutation statements (45_permutation.md): the bits of a refined pattern, the permutations of a descriptor, and the stable
sort by wildcards. -/

namespace Sys2Proof

/-! ### Refined patterns -/

theorem Pattern.eq_iff_bits {p q : Pattern} :
    p = q ↔ ∀ b < 16, p.set.getLsbD b = q.set.getLsbD b ∧ p.any.getLsbD b = q.any.getLsbD b := by
  refine ⟨fun h _ _ => h ▸ ⟨rfl, rfl⟩, fun h => ?_⟩
  obtain ⟨pset, pany⟩ := p
  obtain ⟨qset, qany⟩ := q
  rw [mk.injEq]
  exact ⟨BitVec.eq_of_getLsbD_eq fun b hb => (h b hb).1, BitVec.eq_of_getLsbD_eq fun b hb => (h b hb).2⟩

section
variable {p q : Pattern} {pos bw code b : Nat}

/-- The field's value is the number whose bits are the field's bits. -/
theorem fieldValue_eq_iff {x : Word} (hfit : pos + bw ≤ 16) (hcode : code < 2 ^ bw) :
    x.toNat / 2 ^ pos % 2 ^ bw = code ↔ ∀ b < 16, pos ≤ b ∧ b < pos + bw → x.getLsbD b = code.testBit (b - pos) := by
  have hbit : ∀ j, (x.toNat / 2 ^ pos % 2 ^ bw).testBit j = (decide (j < bw) && x.getLsbD (j + pos)) := fun j => by
    rw [Nat.testBit_mod_two_pow, Nat.testBit_div_two_pow, BitVec.testBit_toNat]
  constructor
  · rintro rfl b - ⟨hle, hlt⟩
    rw [hbit, Nat.sub_add_cancel hle, decide_eq_true (by omega), Bool.true_and]
  · intro h
    refine Nat.eq_of_testBit_eq fun j => ?_
    rw [hbit]
    by_cases hj : j < bw
    · rw [h (j + pos) (by omega) (by omega), Nat.add_sub_cancel, decide_eq_true hj, Bool.true_and]
    · rw [decide_eq_false hj, Bool.false_and,
        Nat.testBit_lt_two_pow (hcode.trans_le (Nat.pow_le_pow_right (by decide) (Nat.le_of_not_lt hj)))]

/-- `fm` of R242 has the field's bits. -/
theorem fieldMask_bit (hb : b < 16) :
    (BitVec.ofNat 16 ((2 ^ bw - 1) * 2 ^ pos)).getLsbD b = decide (pos ≤ b ∧ b < pos + bw) := by
  rw [BitVec.getLsbD_ofNat, Nat.testBit_mul_two_pow, Nat.testBit_two_pow_sub_one, decide_eq_true hb, Bool.true_and, ← Bool.decide_and,
    decide_eq_decide]
  omega

theorem Pattern.refine_any_bit (hb : b < 16) :
    (p.refine pos bw code).any.getLsbD b = if pos ≤ b ∧ b < pos + bw then false else p.any.getLsbD b := by
  rw [refine, BitVec.getLsbD_and, BitVec.getLsbD_not, fieldMask_bit hb]
  split_ifs with h <;> simp [h, hb]

theorem Pattern.refine_set_bit (hcode : code < 2 ^ bw) (hb : b < 16) :
    (p.refine pos bw code).set.getLsbD b = if pos ≤ b ∧ b < pos + bw then code.testBit (b - pos) else p.set.getLsbD b := by
  rw [refine, BitVec.getLsbD_or, BitVec.getLsbD_and, BitVec.getLsbD_not, fieldMask_bit hb, BitVec.getLsbD_ofNat,
    Nat.testBit_mul_two_pow]
  split_ifs with h
  · simp [h, hb]
  · by_cases hle : pos ≤ b
    · have hhigh : code.testBit (b - pos) = false :=
        Nat.testBit_lt_two_pow (hcode.trans_le (Nat.pow_le_pow_right (by decide) (by omega)))
      simp [h, hb, hhigh]
    · simp [hb, hle]

/-- `REFINE` by its bits: the code in the field, no wildcard there, and the old pattern outside it (R242). -/
theorem Pattern.eq_refine_iff (hfit : pos + bw ≤ 16) (hcode : code < 2 ^ bw) :
    q = p.refine pos bw code ↔ q.set.toNat / 2 ^ pos % 2 ^ bw = code ∧
      ∀ b < 16, (pos ≤ b ∧ b < pos + bw → q.any.getLsbD b = false) ∧
        (b < pos ∨ pos + bw ≤ b → q.any.getLsbD b = p.any.getLsbD b ∧ q.set.getLsbD b = p.set.getLsbD b) := by
  rw [eq_iff_bits, fieldValue_eq_iff hfit hcode]
  simp only [← forall_and]
  refine forall₂_congr fun b hb => ?_
  rw [refine_set_bit hcode hb, refine_any_bit hb]
  by_cases h : pos ≤ b ∧ b < pos + bw
  · have hout : ¬ (b < pos ∨ pos + bw ≤ b) := by omega
    simp [h, hout]
  · have hout : b < pos ∨ pos + bw ≤ b := by omega
    simp [h, hout, and_comm]

theorem Pattern.refine_set_fieldValue (hfit : pos + bw ≤ 16) (hcode : code < 2 ^ bw) :
    (p.refine pos bw code).set.toNat / 2 ^ pos % 2 ^ bw = code := ((eq_refine_iff hfit hcode).1 rfl).1

end

theorem SizeSpec.wf_dynamic_iff {pos : Nat} {enc : SizeEnc} :
    (SizeSpec.dynamic pos enc).wf = true ↔ enc.wf = true ∧ pos + enc.width ≤ 16 := by
  rw [wf, Bool.and_eq_true, decide_eq_true_iff]

end Sys2Proof

namespace Sys2Proof.Machine

/-- A word that matches a refined pattern has the code in its field. -/
theorem fieldValue_of_matchesWord_refine {p : Pattern} {pos bw code : Nat} {w : Word} (hfit : pos + bw ≤ 16)
    (hcode : code < 2 ^ bw) (h : (p.refine pos bw code).matchesWord w = true) : w.toNat / 2 ^ pos % 2 ^ bw = code := by
  rw [fieldValue_eq_iff hfit hcode]
  intro b hb hin
  have hany : (p.refine pos bw code).any.getLsbD b = false := by rw [Pattern.refine_any_bit hb, if_pos hin]
  rw [(matchesWord_iff_fixedBits (set_and_any_eq_zero_of_matchesWord h) w).1 h b hb hany, Pattern.refine_set_bit hcode hb, if_pos hin]

/-! ### The permutations of a descriptor -/

theorem permute_absent {d : Descriptor} (h : d.size = .absent) (i : Nat) :
    permute i d = [{ size := none, pattern := d.opcode, instr := i }] := by
  rw [permute, h]

theorem permute_static {d : Descriptor} {z : Size} (h : d.size = .static z) (i : Nat) :
    permute i d = [{ size := some z, pattern := d.opcode, instr := i }] := by
  rw [permute, h]

theorem permute_dynamic {d : Descriptor} {pos : Nat} {enc : SizeEnc} (h : d.size = .dynamic pos enc) (i : Nat) :
    permute i d = (List.range (2 ^ enc.width)).filterMap fun code => (enc.decode code).map fun z =>
      { size := some z, pattern := d.opcode.refine pos enc.width code, instr := i } := by
  rw [permute, h]

section
variable {i pos : Nat} {d : Descriptor} {enc : SizeEnc} (hsize : d.size = .dynamic pos enc)
include hsize

/-- The permutations stand in ascending order of code (D33). -/
theorem permute_dynamic_pairwise (hfit : pos + enc.width ≤ 16) :
    (permute i d).Pairwise fun p q =>
      p.pattern.set.toNat / 2 ^ pos % 2 ^ enc.width < q.pattern.set.toNat / 2 ^ pos % 2 ^ enc.width := by
  rw [permute_dynamic hsize, List.pairwise_filterMap]
  refine (List.pairwise_lt_range (n := 2 ^ enc.width)).imp_of_mem fun {c c'} hc hc' hlt p hp q hq => ?_
  obtain ⟨_, -, rfl⟩ := Option.map_eq_some_iff.1 hp
  obtain ⟨_, -, rfl⟩ := Option.map_eq_some_iff.1 hq
  rwa [Pattern.refine_set_fieldValue hfit (List.mem_range.1 hc), Pattern.refine_set_fieldValue hfit (List.mem_range.1 hc')]

variable (henc : enc.wf = true)
include henc

/-- One permutation for each size mapped (R241). -/
theorem mem_permute_dynamic {p : Permutation} :
    p ∈ permute i d ↔ ∃ z code, enc.encode z = some code ∧
      p = { size := some z, pattern := d.opcode.refine pos enc.width code, instr := i } := by
  simp only [permute_dynamic hsize, List.mem_filterMap, List.mem_range, Option.map_eq_some_iff, SizeEnc.decode_eq_some_iff henc]
  constructor
  · rintro ⟨code, -, z, hz, rfl⟩
    exact ⟨z, code, hz, rfl⟩
  · rintro ⟨z, code, hz, rfl⟩
    exact ⟨code, SizeEnc.lt_two_pow_width hz, z, hz, rfl⟩

theorem permute_dynamic_length : (permute i d).length = enc.count := by
  rw [permute_dynamic hsize, List.length_filterMap_eq_countP, List.countP_eq_length_filter]
  simp only [Option.isSome_map]
  exact (SizeEnc.decodable_perm_codes henc).length_eq

end

/-- A word matches at most one permutation of a descriptor (R247). -/
theorem eq_of_mem_permute_of_matchesWord {i : Nat} {d : Descriptor} {p q : Permutation} {w : Word} (hwf : d.size.wf = true)
    (hp : p ∈ permute i d) (hq : q ∈ permute i d) (hpw : p.pattern.matchesWord w = true) (hqw : q.pattern.matchesWord w = true) :
    p = q := by
  cases hsize : d.size with
  | absent =>
    rw [permute_absent hsize, List.mem_singleton] at hp hq
    exact hp.trans hq.symm
  | static z =>
    rw [permute_static hsize, List.mem_singleton] at hp hq
    exact hp.trans hq.symm
  | dynamic pos enc =>
    obtain ⟨henc, hfit⟩ := SizeSpec.wf_dynamic_iff.1 (hsize ▸ hwf)
    obtain ⟨z, code, hz, rfl⟩ := (mem_permute_dynamic hsize henc).1 hp
    obtain ⟨z', code', hz', rfl⟩ := (mem_permute_dynamic hsize henc).1 hq
    obtain rfl : w.toNat / 2 ^ pos % 2 ^ enc.width = code :=
      fieldValue_of_matchesWord_refine hfit (SizeEnc.lt_two_pow_width hz) hpw
    obtain rfl : w.toNat / 2 ^ pos % 2 ^ enc.width = code' :=
      fieldValue_of_matchesWord_refine hfit (SizeEnc.lt_two_pow_width hz') hqw
    have hzz' : some z = some z' :=
      ((SizeEnc.decode_eq_some_iff henc).2 hz).symm.trans ((SizeEnc.decode_eq_some_iff henc).2 hz')
    rw [hzz']

/-! ### The sort -/

theorem sortPerms_perm (ps : List Permutation) : (sortPerms ps).Perm ps := List.perm_insertionSort ..

theorem sortPerms_pairwise (ps : List Permutation) :
    (sortPerms ps).Pairwise fun p q => p.pattern.specificity ≤ q.pattern.specificity := by
  have : Std.Total fun p q : Permutation => p.pattern.specificity ≤ q.pattern.specificity := ⟨fun _ _ => Nat.le_total ..⟩
  have : IsTrans Permutation fun p q => p.pattern.specificity ≤ q.pattern.specificity := ⟨fun _ _ _ => Nat.le_trans⟩
  exact List.pairwise_insertionSort ..

/-- The permutations of one key are a sorted part of the list, which the sort keeps in its order; and it adds none (D4). -/
theorem filter_specificity_sortPerms (k : Nat) (ps : List Permutation) :
    (sortPerms ps).filter (fun p => p.pattern.specificity == k) = ps.filter (fun p => p.pattern.specificity == k) := by
  have hkey : ∀ p ∈ ps.filter (fun p => p.pattern.specificity == k), p.pattern.specificity = k := fun p hp =>
    beq_iff_eq.1 (List.mem_filter.1 hp).2
  have hkept : (ps.filter fun p => p.pattern.specificity == k).Sublist (sortPerms ps) :=
    List.sublist_insertionSort (List.pairwise_of_forall_mem_list fun p hp q hq => ((hkey p hp).trans (hkey q hq).symm).le)
      List.filter_sublist
  have hsub := hkept.filter fun p => p.pattern.specificity == k
  simp only [List.filter_filter, Bool.and_self] at hsub
  exact (hsub.eq_of_length ((sortPerms_perm ps).filter _).length_eq.symm).symm

/-! ### The operations -/

theorem exec_permute {s : State} {i : Nat} {d : Descriptor} (hd : s.isd[i]? = some d) (hwf : d.size.wf = true) :
    exec (.permute i) s = .next { s with
      builder := { s.builder with unsorted := s.builder.unsorted ++ permute i d }, out := .perms (permute i d) } := by
  simp only [exec, execPermute, hd, hwf]
  rfl

theorem exec_permute_of_no_descriptor {s : State} {i : Nat} (h : ∀ d, s.isd[i]? = some d → d.size.wf = false) :
    exec (.permute i) s = .refused .noSuchDescriptor := by
  rw [exec, execPermute]
  split
  · rfl
  · next d hd => rw [if_pos (h d hd)]

/-- `PERMUTE` answers only for a descriptor of ISD with a size field inside the word. -/
theorem exists_descriptor_of_exec_permute {s t : State} {i : Nat} (h : exec (.permute i) s = .next t) :
    ∃ d, s.isd[i]? = some d ∧ d.size.wf = true := by
  by_contra hnone
  rw [exec_permute_of_no_descriptor fun d hd => Bool.eq_false_iff.2 fun hwf => hnone ⟨d, hd, hwf⟩] at h
  cases h

theorem exec_sort (s : State) :
    exec .sort s = .next { s with
      builder := { s.builder with perms := sortPerms s.builder.unsorted }, out := .perms (sortPerms s.builder.unsorted) } := rfl

/-! ### The obligations -/

/-- Settles O25: the values of the field that decode to a size are the codes, in ascending order, and a refined pattern is known by its
field's value and its bits outside the field. -/
theorem permuteGivesOneEntryPerSize : Obligations.PermuteGivesOneEntryPerSize := by
  refine ⟨fun s i d hd hwf => ⟨permute i d, exec_permute hd hwf, fun h => permute_absent h i, fun z h => permute_static h i,
    fun pos enc hsize => ?_⟩, fun s i h => exec_permute_of_no_descriptor h⟩
  obtain ⟨henc, hfit⟩ := SizeSpec.wf_dynamic_iff.1 (hsize ▸ hwf)
  refine ⟨(permute_dynamic_length hsize henc).trans SizeEnc.count_eq_length_filter, permute_dynamic_pairwise hsize hfit,
    fun p => (mem_permute_dynamic hsize henc).trans (exists₂_congr fun z code => and_congr_right fun hz => ?_)⟩
  obtain ⟨size, pattern, instr⟩ := p
  rw [Permutation.mk.injEq, Pattern.eq_refine_iff hfit (SizeEnc.lt_two_pow_width hz)]
  exact and_congr_right fun _ => and_comm

/-- Settles O26: two permutations that match one word are equal, as the word has one value in the size field. -/
theorem permutationsOfOneInstructionNeverOverlap : Obligations.PermutationsOfOneInstructionNeverOverlap := by
  rintro s t i ps ht hout p hp q hq hne w ⟨hpw, hqw⟩
  obtain ⟨d, hd, hwf⟩ := exists_descriptor_of_exec_permute ht
  rw [exec_permute hd hwf] at ht
  cases ht
  cases hout
  exact hne (eq_of_mem_permute_of_matchesWord hwf hp hq hpw hqw)

/-- Settles O27: an insertion sort is a permutation, in order, and keeps every sorted part of the list in its order. -/
theorem sortIsStableByWildcards : Obligations.SortIsStableByWildcards := fun s =>
  ⟨_, exec_sort s, sortPerms_perm _, sortPerms_pairwise _, fun k => filter_specificity_sortPerms k _⟩

end Sys2Proof.Machine
end

section
/-! The trie construction statements (46_trie_build.md): what the shared operations on the page list keep, the paths that `STUB` and
`VISIT` lay through it, and the constants of a whole build. -/

namespace Sys2Proof.Machine

/-! ### Match indices -/

theorem matchIdx_le_length (perms : List Permutation) (w : Word) : matchIdx perms w ≤ perms.length := List.findIdx_le_length

theorem matchesWord_of_getElem?_matchIdx {perms : List Permutation} {w : Word} {p : Permutation}
    (h : perms[matchIdx perms w]? = some p) : p.pattern.matchesWord w = true := by
  obtain ⟨hlt, rfl⟩ := List.getElem?_eq_some_iff.1 h
  exact List.findIdx_getElem (xs := perms) (w := hlt)

theorem not_matchesWord_of_lt_matchIdx {perms : List Permutation} {w : Word} {j : Nat} {p : Permutation}
    (hj : j < matchIdx perms w) (h : perms[j]? = some p) : p.pattern.matchesWord w = false := by
  obtain ⟨hlt, rfl⟩ := List.getElem?_eq_some_iff.1 h
  exact List.not_of_lt_findIdx hj

theorem matchIdx_eq_length_iff {perms : List Permutation} {w : Word} :
    matchIdx perms w = perms.length ↔ ∀ p ∈ perms, p.pattern.matchesWord w = false := List.findIdx_eq_length

/-- In a list sorted by wildcards the first match has the fewest (R256). -/
theorem specificity_le_of_getElem?_matchIdx {perms : List Permutation}
    (hsort : perms.Pairwise fun p q => p.pattern.specificity ≤ q.pattern.specificity) {w : Word} {p q : Permutation}
    (hp : perms[matchIdx perms w]? = some p) (hq : q ∈ perms) (hqw : q.pattern.matchesWord w = true) :
    p.pattern.specificity ≤ q.pattern.specificity := by
  obtain ⟨j, hj⟩ := List.mem_iff_getElem?.1 hq
  obtain hlt | rfl | hgt := Nat.lt_trichotomy j (matchIdx perms w)
  · rw [not_matchesWord_of_lt_matchIdx hlt hj] at hqw
    cases hqw
  · exact (Option.some.inj (hp.symm.trans hj) ▸ Nat.le_refl _)
  · obtain ⟨hi, rfl⟩ := List.getElem?_eq_some_iff.1 hp
    obtain ⟨hj', rfl⟩ := List.getElem?_eq_some_iff.1 hj
    exact List.pairwise_iff_getElem.1 hsort _ _ hi hj' hgt

/-! ### Growing the page list -/

/-- A number that an entry of the page list may hold where no match index is above `most`: a page's index or a match index (R272). -/
def IsEntry (most : Nat) (pages : List Page) (x : Nat) : Prop := x < pages.length ∨ x ≤ most

/-- Every entry of every page is a page's index or a match index up to `most`. -/
def HoldsEntries (most : Nat) (pages : List Page) : Prop := ∀ page ∈ pages, ∀ x ∈ page.toList, IsEntry most pages x

/-- `pages'` is `pages` with pages added, with no equal pages and only right entries if `pages` is such a list. -/
structure Grows (most : Nat) (pages pages' : List Page) : Prop where
  isPrefix : pages <+: pages'
  nodup : pages.Nodup → pages'.Nodup
  holds : HoldsEntries most pages → HoldsEntries most pages'

section
variable {most x i : Nat} {page : Page} {pages pages' pages'' : List Page}

theorem Grows.refl (most : Nat) (pages : List Page) : Grows most pages pages := ⟨List.prefix_rfl, id, id⟩

theorem Grows.trans (h : Grows most pages pages') (k : Grows most pages' pages'') : Grows most pages pages'' :=
  ⟨h.isPrefix.trans k.isPrefix, k.nodup ∘ h.nodup, k.holds ∘ h.holds⟩

theorem IsEntry.of_prefix (h : IsEntry most pages x) (hpre : pages <+: pages') : IsEntry most pages' x :=
  h.imp_left fun hx => hx.trans_le hpre.length_le

/-! ### Interning -/

/-- `INTERN` finds the first equal page or appends the page (R264). -/
theorem intern_cases (page : Page) (pages : List Page) :
    (∃ i, intern page pages = (i, pages) ∧ pages[i]? = some page ∧ ∀ j < i, pages[j]? ≠ some page) ∨
      (page ∉ pages ∧ intern page pages = (pages.length, pages ++ [page])) := by
  rw [intern]
  cases hfind : pages.findIdx? fun q => q == page with
  | some i =>
    obtain ⟨hi, hpage, hfirst⟩ := List.findIdx?_eq_some_iff_getElem.1 hfind
    refine .inl ⟨i, rfl, List.getElem?_eq_some_iff.2 ⟨hi, beq_iff_eq.1 hpage⟩, fun j hj heq => ?_⟩
    obtain ⟨_, heq⟩ := List.getElem?_eq_some_iff.1 heq
    exact hfirst j hj (beq_iff_eq.2 heq)
  | none => exact .inr ⟨fun hmem => by simpa using List.findIdx?_eq_none_iff.1 hfind page hmem, rfl⟩

theorem intern_getElem? (page : Page) (pages : List Page) : (intern page pages).2[(intern page pages).1]? = some page := by
  obtain ⟨i, h, hi, -⟩ | ⟨-, h⟩ := intern_cases page pages
  · rw [h]
    exact hi
  · rw [h]
    exact List.getElem?_concat_length

theorem intern_prefix (page : Page) (pages : List Page) : pages <+: (intern page pages).2 := by
  obtain ⟨i, h, -⟩ | ⟨-, h⟩ := intern_cases page pages
  · rw [h]
  · rw [h]
    exact List.prefix_append ..

theorem intern_nodup (page : Page) (h : pages.Nodup) : (intern page pages).2.Nodup := by
  obtain ⟨i, heq, -⟩ | ⟨hnew, heq⟩ := intern_cases page pages
  · rwa [heq]
  · rw [heq]
    exact List.concat_eq_append ▸ h.concat hnew

theorem intern_holdsEntries (hpage : ∀ x ∈ page.toList, IsEntry most pages x) (h : HoldsEntries most pages) :
    HoldsEntries most (intern page pages).2 := by
  intro q hq x hx
  refine IsEntry.of_prefix ?_ (intern_prefix page pages)
  obtain ⟨i, heq, -⟩ | ⟨-, heq⟩ := intern_cases page pages
  · rw [heq] at hq
    exact h q hq x hx
  · rw [heq, List.mem_append, List.mem_singleton] at hq
    obtain hq | rfl := hq
    · exact h q hq x hx
    · exact hpage x hx

theorem intern_grows (hpage : ∀ x ∈ page.toList, IsEntry most pages x) : Grows most pages (intern page pages).2 :=
  ⟨intern_prefix page pages, intern_nodup page, intern_holdsEntries hpage⟩

/-! ### Paths -/

theorem tableRead_of_getElem? (h : pages[i]? = some page) (k : Fin 16) : tableRead pages i k = some page[k] := by
  rw [tableRead, h, Option.map_some]

theorem lt_length_of_tableRead {k : Fin 16} (h : tableRead pages i k = some x) : i < pages.length := by
  obtain ⟨page, hpage, -⟩ := Option.map_eq_some_iff.1 h
  exact (List.getElem?_eq_some_iff.1 hpage).1

theorem tableRead_of_prefix {k : Fin 16} (h : tableRead pages i k = some x) (hpre : pages <+: pages') :
    tableRead pages' i k = some x := by
  obtain ⟨page, hpage, rfl⟩ := Option.map_eq_some_iff.1 h
  obtain ⟨hi, rfl⟩ := List.getElem?_eq_some_iff.1 hpage
  exact tableRead_of_getElem? (List.prefix_iff_getElem?.1 hpre i hi) k

@[simp] theorem follow_nil (pages : List Page) (i : Nat) : follow pages i [] = some i := rfl

theorem follow_cons (pages : List Page) (i : Nat) (k : Fin 16) (ks : List (Fin 16)) :
    follow pages i (k :: ks) = (tableRead pages i k).bind fun j => follow pages j ks := by
  rw [follow]
  cases tableRead pages i k <;> rfl

theorem follow_of_getElem? (h : pages[i]? = some page) (k : Fin 16) (ks : List (Fin 16)) :
    follow pages i (k :: ks) = follow pages page[k] ks := by
  rw [follow_cons, tableRead_of_getElem? h, Option.bind_some]

/-- Pages that are added change no path. -/
theorem follow_of_prefix {ks : List (Fin 16)} (h : follow pages i ks = some x) (hpre : pages <+: pages') :
    follow pages' i ks = some x := by
  induction ks generalizing i with
  | nil => exact h
  | cons k ks ih =>
    rw [follow_cons, Option.bind_eq_some_iff] at h ⊢
    obtain ⟨j, hj, hrest⟩ := h
    exact ⟨j, tableRead_of_prefix hj hpre, ih hrest⟩

theorem lt_length_of_follow_cons {k : Fin 16} {ks : List (Fin 16)} (h : follow pages i (k :: ks) = some x) : i < pages.length := by
  rw [follow_cons, Option.bind_eq_some_iff] at h
  obtain ⟨j, hj, -⟩ := h
  exact lt_length_of_tableRead hj

/-- The start of a path to a match index is an entry. -/
theorem isEntry_of_follow {ks : List (Fin 16)} (h : follow pages i ks = some x) (hx : x ≤ most) : IsEntry most pages i := by
  cases ks with
  | nil => exact .inr (Option.some.inj h ▸ hx)
  | cons k ks => exact .inl (lt_length_of_follow_cons h)

/-- A path through the page that `INTERN` places. -/
theorem follow_intern {k : Fin 16} {ks : List (Fin 16)} (h : follow pages page[k] ks = some x) :
    follow (intern page pages).2 (intern page pages).1 (k :: ks) = some x := by
  rw [follow_of_getElem? (intern_getElem? page pages)]
  exact follow_of_prefix h (intern_prefix page pages)

/-! ### Stubs -/

theorem Page.all_getElem (x : Nat) (k : Fin 16) : (Page.all x)[k] = x := Vector.getElem_replicate ..

theorem Page.eq_of_mem_all {x y : Nat} (h : y ∈ (Page.all x).toList) : y = x :=
  (Vector.mem_replicate.1 (Vector.mem_toList_iff.1 h)).2

theorem stub_succ (x k : Nat) (pages : List Page) :
    stub x (k + 1) pages = intern (Page.all (stub x k pages).1) (stub x k pages).2 := rfl

/-- Every path through a stub leads to its index (R262). -/
theorem follow_stub (x : Nat) (pages : List Page) (ks : List (Fin 16)) :
    follow (stub x ks.length pages).2 (stub x ks.length pages).1 ks = some x := by
  induction ks with
  | nil => rfl
  | cons k ks ih =>
    rw [List.length_cons, stub_succ]
    exact follow_intern (by rwa [Page.all_getElem])

theorem stub_isEntry (hx : x ≤ most) (k : Nat) (pages : List Page) : IsEntry most (stub x k pages).2 (stub x k pages).1 := by
  have hpath := follow_stub x pages (List.replicate k 0)
  rw [List.length_replicate] at hpath
  exact isEntry_of_follow hpath hx

theorem stub_grows (hx : x ≤ most) (k : Nat) (pages : List Page) : Grows most pages (stub x k pages).2 := by
  induction k with
  | zero => exact .refl most pages
  | succ k ih =>
    rw [stub_succ]
    exact ih.trans (intern_grows fun y hy => Page.eq_of_mem_all hy ▸ stub_isEntry hx k pages)

/-! ### The nibbles of a word -/

theorem two_pow_four_mul (k : Nat) : 2 ^ (4 * k) = 16 ^ k := Nat.pow_mul 2 4 k

theorem nibble_val (w : Word) (k : Nat) : (nibble w k).val = w.toNat / 16 ^ k % 16 := by
  rw [nibble, BitVec.val_toFin, extract_toNat, two_pow_four_mul]
  rfl

/-- The leading nibbles of a word with its next nibble are the leading nibbles one level deeper. -/
theorem leading_extend_nibble (w : Word) (k : Nat) : w.toNat / 16 ^ (k + 1) * 16 + (nibble w k).val = w.toNat / 16 ^ k := by
  rw [nibble_val, Nat.pow_succ, ← Nat.div_div_eq_div_mul, Nat.div_add_mod']

theorem lastNibbles_succ (w : Word) (k : Nat) : lastNibbles w (k + 1) = nibble w k :: lastNibbles w k := by
  rw [lastNibbles, List.range_succ_eq_map, List.map_cons, List.map_map]
  refine congrArg (_ :: ·) (List.map_congr_left fun j _ => ?_)
  rw [Function.comp_apply, Nat.add_sub_cancel, Nat.sub_sub, Nat.add_comm 1 j]

@[simp] theorem lastNibbles_length (w : Word) (k : Nat) : (lastNibbles w k).length = k := by
  rw [lastNibbles, List.length_map, List.length_range]

/-- A word is the one below its own leading bits with its own low bits. -/
theorem subWord_of_prefix {w : Word} {pfx r : Nat} (h : w.toNat / 2 ^ r = pfx) : subWord pfx r (w.toNat % 2 ^ r) = w := by
  rw [subWord, ← h, Nat.div_add_mod', BitVec.ofNat_toNat, BitVec.setWidth_eq]

/-! ### Visits -/

/-- From `i` the nibbles still open lead every word below `pfx` to its match index, and `i` may stand in a page. -/
structure LeadsToMatches (perms : List Permutation) (openLevels pfx i : Nat) (pages : List Page) : Prop where
  isEntry : IsEntry perms.length pages i
  leads : ∀ w : Word, w.toNat / 16 ^ openLevels = pfx → follow pages i (lastNibbles w openLevels) = some (matchIdx perms w)

theorem LeadsToMatches.of_prefix {perms : List Permutation} {k pfx : Nat} (h : LeadsToMatches perms k pfx i pages)
    (hpre : pages <+: pages') : LeadsToMatches perms k pfx i pages' :=
  ⟨h.isEntry.of_prefix hpre, fun w hw => follow_of_prefix (h.leads w hw) hpre⟩

end

/-- What `f` does to the page list and says of its index holds of `mapPages`, if pages that are added leave it true. -/
theorem mapPages_spec {most : Nat} {f : Nat → List Page → Nat × List Page} {Good : Nat → Nat → List Page → Prop}
    (hstable : ∀ {c i pages pages'}, Good c i pages → pages <+: pages' → Good c i pages')
    (hf : ∀ c pages, Grows most pages (f c pages).2 ∧ Good c (f c pages).1 (f c pages).2) (cs : List Nat) (pages : List Page) :
    Grows most pages (mapPages f cs pages).2 ∧
      List.Forall₂ (fun c i => Good c i (mapPages f cs pages).2) cs (mapPages f cs pages).1 := by
  induction cs generalizing pages with
  | nil => exact ⟨.refl most pages, .nil⟩
  | cons c cs ih =>
    obtain ⟨hgrow, hgood⟩ := hf c pages
    obtain ⟨hgrows, hgoods⟩ := ih (f c pages).2
    exact ⟨hgrow.trans hgrows, .cons (hstable hgood hgrows.isPrefix) hgoods⟩

theorem pageOf_getElem {cells : List Nat} (h : cells.length = 16) (k : Fin 16) : (pageOf cells)[k] = cells[k.val] := by
  rw [pageOf, Fin.getElem_fin, Vector.getElem_ofFn, List.getD_eq_getElem]

/-- An entry of a page of sixteen results is one of them. -/
theorem pageOf_forall {P : Nat → Nat → Prop} {cells : List Nat} (h : List.Forall₂ P (List.range 16) cells) (k : Fin 16) :
    P k.val (pageOf cells)[k] := by
  have hlen : cells.length = 16 := h.length_eq.symm.trans List.length_range
  rw [pageOf_getElem hlen]
  simpa using h.get (i := k.val) (by simp) (by omega)

section
variable {perms : List Permutation} {k pfx x : Nat} {pages : List Page} {page : Page}

/-- A stub serves a `pfx` whose words have one match index (R260, R267). -/
theorem leadsToMatches_stub (hx : ∀ s < 2 ^ (4 * k), matchIdx perms (subWord pfx (4 * k) s) = x) (pages : List Page) :
    Grows perms.length pages (stub x k pages).2 ∧ LeadsToMatches perms k pfx (stub x k pages).1 (stub x k pages).2 := by
  have hle : x ≤ perms.length := hx 0 (Nat.two_pow_pos _) ▸ matchIdx_le_length ..
  refine ⟨stub_grows hle k pages, stub_isEntry hle k pages, fun w hw => ?_⟩
  rw [← two_pow_four_mul] at hw
  have hmatch := hx _ (Nat.mod_lt w.toNat (Nat.two_pow_pos _))
  have hpath := follow_stub x pages (lastNibbles w k)
  rw [lastNibbles_length] at hpath
  rwa [← subWord_of_prefix hw, hmatch, subWord_of_prefix hw]

/-- The page of what serves the sixteen extensions of `pfx` by a nibble serves `pfx` (R260). -/
theorem leadsToMatches_intern (h : ∀ c : Fin 16, LeadsToMatches perms k (pfx * 16 + c.val) page[c] pages) :
    LeadsToMatches perms (k + 1) pfx (intern page pages).1 (intern page pages).2 := by
  refine ⟨.inl (List.getElem?_eq_some_iff.1 (intern_getElem? page pages)).1, fun w hw => ?_⟩
  rw [lastNibbles_succ]
  refine follow_intern ((h (nibble w k)).leads w ?_)
  rw [← hw, leading_extend_nibble]

/-- `VISIT` of a full word (R260). -/
theorem visit_zero (perms : List Permutation) (pfx : Nat) (pages : List Page) :
    visit perms 0 pfx pages = (matchIdx perms (BitVec.ofNat 16 pfx), pages) := rfl

/-- `VISIT` where nibbles are open: a stub if the words below `pfx` have one match index, otherwise the page of its
sixteen extensions by a nibble (R260). -/
theorem visit_succ_cases (perms : List Permutation) (k pfx : Nat) (pages : List Page) :
    (∃ x, (∀ s < 2 ^ (4 * (k + 1)), matchIdx perms (subWord pfx (4 * (k + 1)) s) = x) ∧
        visit perms (k + 1) pfx pages = stub x (k + 1) pages) ∨
      ∃ r, r = mapPages (fun c => visit perms k (pfx * 16 + c)) (List.range 16) pages ∧
        visit perms (k + 1) pfx pages = intern (pageOf r.1) r.2 := by
  rw [visit]
  split_ifs with hall
  · exact .inl ⟨_, fun s hs => beq_iff_eq.1 (List.all_eq_true.1 hall s (List.mem_range.2 hs)), rfl⟩
  · exact .inr ⟨_, rfl, rfl⟩

theorem visit_spec (perms : List Permutation) (k pfx : Nat) (pages : List Page) :
    Grows perms.length pages (visit perms k pfx pages).2 ∧
      LeadsToMatches perms k pfx (visit perms k pfx pages).1 (visit perms k pfx pages).2 := by
  induction k generalizing pfx pages with
  | zero =>
    refine ⟨.refl .., .inr (matchIdx_le_length ..), fun w hw => congrArg some ?_⟩
    rw [Nat.pow_zero, Nat.div_one] at hw
    rw [visit_zero, ← hw, BitVec.ofNat_toNat, BitVec.setWidth_eq]
  | succ k ih =>
    obtain ⟨x, hx, heq⟩ | ⟨r, hr, heq⟩ := visit_succ_cases perms k pfx pages
    · rw [heq]
      exact leadsToMatches_stub hx pages
    · obtain ⟨hgrow, hcells⟩ := mapPages_spec (Good := fun c => LeadsToMatches perms k (pfx * 16 + c)) .of_prefix
        (fun c => ih (pfx * 16 + c)) (List.range 16) pages
      rw [← hr] at hgrow hcells
      have hpage := pageOf_forall hcells
      rw [heq]
      refine ⟨hgrow.trans (intern_grows fun y hy => ?_), leadsToMatches_intern hpage⟩
      obtain ⟨c, hc, rfl⟩ := Vector.mem_iff_getElem.1 (Vector.mem_toList_iff.1 hy)
      exact (hpage ⟨c, hc⟩).isEntry

end

/-! ### The walk and the narrowed table -/

/-- The four lookups are the path of the word's nibbles (47_trie_decode.md R280). -/
theorem walk_eq_follow (pages : List Page) (top : Nat) (w : Word) : walk pages top w = follow pages top (lastNibbles w 4) := by
  have hnone : lastNibbles w 0 = [] := rfl
  simp [walk, lastNibbles_succ, hnone, follow_cons]

theorem indexWidth_le_iff {numPages numPerms m : Nat} :
    indexWidth numPages numPerms ≤ m ↔ numPages ≤ 2 ^ m ∧ numPerms + 1 ≤ 2 ^ m := ceilLog2_le_iff.trans max_le_iff

/-- The index width holds every page index and every match index (R270, R272). -/
theorem HoldsEntries.entriesFit {numPerms : Nat} {pages : List Page} (h : HoldsEntries numPerms pages) :
    entriesFit (indexWidth pages.length numPerms) pages = true := by
  obtain ⟨hpages, hperms⟩ := indexWidth_le_iff.1 (Nat.le_refl (indexWidth pages.length numPerms))
  refine entriesFit_iff.2 fun page hpage x hx => ?_
  obtain hlt | hle := h page hpage x hx
  · exact hlt.trans_le hpages
  · exact Nat.lt_of_le_of_lt hle hperms

theorem compress_pages_length (use : Nat) (pages : List Page) (numPerms : Nat) :
    (compress use pages numPerms).pages.length = pages.length := by
  rw [compress, List.length_map, List.length_zipIdx]

/-! ### The whole build -/

theorem except_bind_eq_ok {ε α β : Type} {x : Except ε α} {f : α → Except ε β} {b : β} :
    (x >>= f) = .ok b ↔ ∃ a, x = .ok a ∧ f a = .ok b := by
  cases x <;> simp [bind, Except.bind]

theorem except_pure_eq_ok {ε α : Type} {a b : α} : (pure a : Except ε α) = .ok b ↔ b = a := by
  simp [pure, Except.pure, eq_comm]

/-- A list on which `f` never fails is mapped entry by entry. -/
theorem mapM_eq_ok_iff {ε α β : Type} {f : α → Except ε β} {as : List α} {bs : List β} :
    as.mapM f = .ok bs ↔ List.Forall₂ (fun a b => f a = .ok b) as bs := by
  induction as generalizing bs with
  | nil =>
    rw [List.mapM_nil, List.forall₂_nil_left_iff, except_pure_eq_ok]
  | cons a as ih =>
    rw [List.mapM_cons, List.forall₂_cons_left_iff]
    simp only [except_bind_eq_ok, except_pure_eq_ok, ih, exists_and_left]

theorem exists_forall₂ {α β : Type} {R : α → β → Prop} {as : List α} (h : ∀ a ∈ as, ∃ b, R a b) : ∃ bs, List.Forall₂ R as bs := by
  induction as with
  | nil => exact ⟨[], .nil⟩
  | cons a as ih =>
    obtain ⟨⟨b, hb⟩, has⟩ := List.forall_mem_cons.1 h
    obtain ⟨bs, hbs⟩ := ih has
    exact ⟨b :: bs, .cons hb hbs⟩

theorem bindHandlers_eq_ok_iff {isd : List Descriptor} {fallback : Handler} {perms : List Permutation} {handlers : List Handler} :
    bindHandlers isd fallback perms = .ok handlers ↔
      ∃ hs, List.Forall₂ (fun p h => finalise isd p = .ok h) perms hs ∧ handlers = hs ++ [fallback] := by
  simp only [bindHandlers, except_bind_eq_ok, except_pure_eq_ok, mapM_eq_ok_iff]

/-- A step that is an operation at no width is not parameterised (44_microcode.md R227). -/
theorem parameterized_eq_false_of_stepInstr {st : Step} (h : (stepInstr none st).isSome = true) : st.parameterized = false := by
  cases st with
  | ea | ldReg | stReg => cases h
  | fetch | bcd | cycles => rfl

theorem finalise_of_steps {isd : List Descriptor} {p : Permutation} {d : Descriptor} (hd : isd[p.instr]? = some d)
    (hsteps : p.size = none → ∀ st ∈ d.code.steps, (stepInstr none st).isSome = true) :
    finalise isd p = .ok (.pipeline d.code.steps p.size) := by
  have hwidth : ¬ (p.size.isNone = true ∧ d.code.steps.any Step.parameterized = true) := by
    rintro ⟨hsize, hany⟩
    obtain ⟨st, hst, hparam⟩ := List.any_eq_true.1 hany
    have hfalse := parameterized_eq_false_of_stepInstr (hsteps (Option.isNone_iff_eq_none.1 hsize) st hst)
    rw [hfalse] at hparam
    cases hparam
  simp only [finalise, hd, if_neg hwidth]

/-- A permutation names its descriptor, and has a size where the descriptor has one (R241). -/
theorem instr_and_size_of_mem_permute {i : Nat} {d : Descriptor} {p : Permutation} (h : p ∈ permute i d) :
    p.instr = i ∧ (p.size = none → d.size = .absent) := by
  cases hsize : d.size with
  | absent =>
    rw [permute_absent hsize, List.mem_singleton] at h
    exact h ▸ ⟨rfl, fun _ => rfl⟩
  | static z =>
    rw [permute_static hsize, List.mem_singleton] at h
    exact h ▸ ⟨rfl, nofun⟩
  | dynamic pos enc =>
    rw [permute_dynamic hsize, List.mem_filterMap] at h
    obtain ⟨code, -, hp⟩ := h
    obtain ⟨z, -, rfl⟩ := Option.map_eq_some_iff.1 hp
    exact ⟨rfl, nofun⟩

theorem exists_descriptor_of_mem_permuteAll {isd : List Descriptor} {p : Permutation} (h : p ∈ permuteAll isd) :
    ∃ d, isd[p.instr]? = some d ∧ (p.size = none → d.size = .absent) := by
  obtain ⟨_, hps, hp⟩ := List.mem_flatten.1 h
  obtain ⟨⟨d, i⟩, hd, rfl⟩ := List.mem_map.1 hps
  obtain ⟨rfl, hsize⟩ := instr_and_size_of_mem_permute hp
  exact ⟨d, List.mem_zipIdx_iff_getElem?.1 hd, hsize⟩

/-- `BIND` refuses no permutation of an ISD whose size-less pipelines need no width (R335). -/
theorem exists_bindHandlers {isd : List Descriptor}
    (h : ∀ d ∈ isd, d.size = .absent → ∀ st ∈ d.code.steps, (stepInstr none st).isSome = true) (fallback : Handler) :
    ∃ handlers, bindHandlers isd fallback (sortPerms (permuteAll isd)) = .ok handlers := by
  obtain ⟨hs, hhs⟩ : ∃ hs, List.Forall₂ (fun p h => finalise isd p = .ok h) (sortPerms (permuteAll isd)) hs := by
    refine exists_forall₂ fun p hp => ?_
    obtain ⟨d, hd, hsize⟩ := exists_descriptor_of_mem_permuteAll ((sortPerms_perm _).mem_iff.1 hp)
    exact ⟨_, finalise_of_steps hd fun hnone => h d (List.mem_of_getElem? hd) (hsize hnone)⟩
  exact ⟨_, bindHandlers_eq_ok_iff.2 ⟨hs, hhs, rfl⟩⟩

/-- The constants of a permutation list, its handlers, and the root and pages of `VISIT`, all of whose entries have the index width. -/
def romOf (perms : List Permutation) (handlers : List Handler) (root : Nat × List Page) : Rom :=
  { perms := perms, handlers := handlers, table := { iw := indexWidth root.2.length perms.length, pages := root.2 }, top := root.1 }

/-- The build is `BIND` and `VISIT` from the root; `COMPRESS` leaves the pages, as every entry fits (70_reset_and_hazards.md R333). -/
theorem buildRom_eq_some_iff {isd : List Descriptor} {fallback : Handler} {rom : Rom} :
    buildRom isd fallback = some rom ↔ isd.all Descriptor.wf = true ∧
      ∃ handlers, bindHandlers isd fallback (sortPerms (permuteAll isd)) = .ok handlers ∧
        rom = romOf (sortPerms (permuteAll isd)) handlers (visit (sortPerms (permuteAll isd)) 4 0 []) := by
  simp only [buildRom]
  generalize sortPerms (permuteAll isd) = perms
  have hfit := ((visit_spec perms 4 0 []).1.holds nofun).entriesFit
  generalize visit perms 4 0 [] = root at hfit ⊢
  cases isd.all Descriptor.wf with
  | false => simp
  | true =>
    cases bindHandlers isd fallback perms with
    | error e => simp
    | ok handlers => simp [hfit, compress_of_fits hfit, romOf, eq_comm]

/-- The constants of a build, with what `VISIT` says of its root and pages. -/
theorem exists_romOf_of_buildRom {isd : List Descriptor} {fallback : Handler} {rom : Rom} (h : buildRom isd fallback = some rom) :
    ∃ perms handlers root, rom = romOf perms handlers root ∧ perms = sortPerms (permuteAll isd) ∧
      bindHandlers isd fallback perms = .ok handlers ∧ Grows perms.length [] root.2 ∧
      LeadsToMatches perms 4 0 root.1 root.2 := by
  obtain ⟨-, handlers, hbind, hrom⟩ := buildRom_eq_some_iff.1 h
  obtain ⟨hgrow, hleads⟩ := visit_spec (sortPerms (permuteAll isd)) 4 0 []
  exact ⟨_, handlers, _, hrom, rfl, hbind, hgrow, hleads⟩

/-- The nibbles of every word lead from the root to its match index (R256). -/
theorem LeadsToMatches.follow_root {perms : List Permutation} {top : Nat} {pages : List Page}
    (h : LeadsToMatches perms 4 0 top pages) (w : Word) : follow pages top (lastNibbles w 4) = some (matchIdx perms w) :=
  h.leads w (Nat.div_eq_of_lt w.isLt)

/-- The walk over the constants of a build is the search for the first match (47_trie_decode.md R283). -/
theorem walk_of_buildRom {isd : List Descriptor} {fallback : Handler} {rom : Rom} (h : buildRom isd fallback = some rom) (w : Word) :
    walk rom.table.pages rom.top w = some (matchIdx rom.perms w) := by
  obtain ⟨perms, handlers, root, rfl, -, -, -, hleads⟩ := exists_romOf_of_buildRom h
  rw [walk_eq_follow]
  exact hleads.follow_root w

theorem perms_of_buildRom {isd : List Descriptor} {fallback : Handler} {rom : Rom} (h : buildRom isd fallback = some rom) :
    rom.perms = sortPerms (permuteAll isd) := by
  obtain ⟨perms, handlers, root, rfl, hperms, -⟩ := exists_romOf_of_buildRom h
  exact hperms

/-! ### The operations -/

theorem exec_matchidx (w : Word) (s : State) : exec (.matchidx w) s = .next { s with out := .index (matchIdx s.rom.perms w) } :=
  inDomain_returns (i := .matchidx w) rfl s _

theorem exec_intern (page : Page) (s : State) :
    exec (.intern page) s = .next { s with
      builder := { s.builder with pages := (intern page s.builder.pages).2 }, out := .index (intern page s.builder.pages).1 } :=
  rfl

theorem exec_stub {k : Nat} (hpos : 1 ≤ k) (hle : k ≤ 4) (x : Nat) (s : State) :
    exec (.stub x k) s = .next { s with
      builder := { s.builder with pages := (stub x k s.builder.pages).2 }, out := .index (stub x k s.builder.pages).1 } :=
  inDomain_of_wf (i := .stub x k) (decide_eq_true ⟨hpos, hle⟩) _

theorem exec_visit {pfx level : Nat} (hlevel : level ≤ 4) (hpfx : pfx < 16 ^ level) (s : State) :
    exec (.visit pfx level) s =
      let r := visit s.builder.perms (4 - level) pfx s.builder.pages
      .next { s with
        builder := { s.builder with pages := r.2, top := if level = 0 then r.1 else s.builder.top }, out := .index r.1 } :=
  inDomain_of_wf (i := .visit pfx level) (decide_eq_true ⟨hlevel, hpfx⟩) _

theorem exec_compress (s : State) :
    exec .compress s =
      let t := compress s.free s.builder.pages s.builder.perms.length
      .next { s with
        builder := { s.builder with table := t }
        out := .table t s.builder.top
        free := s.free + if entriesFit t.iw s.builder.pages then 0 else 1 } := rfl

/-- `DECODE` of the constants of a build is `MATCHIDX` (47_trie_decode.md R283). -/
theorem exec_decode {s : State} (h : buildRom s.isd s.fallback = some s.rom) (w : Word) :
    exec (.decode w) s = .next { s with out := .index (matchIdx s.rom.perms w) } := by
  rw [exec, execDecode, walk_of_buildRom h]
  rfl

/-! ### The obligations -/

/-- Settles O28: the search for the first match. -/
theorem matchidxIsTheFirstMatch : Obligations.MatchidxIsTheFirstMatch := fun s w =>
  ⟨_, exec_matchidx w s, matchIdx_le_length .., fun _ hj _ => not_matchesWord_of_lt_matchIdx hj,
    fun _ => matchesWord_of_getElem?_matchIdx⟩

/-- Settles O29: the search finds the first equal page, or there is none and the page is new. -/
theorem internReusesAnEqualPage : Obligations.InternReusesAnEqualPage := by
  refine fun s page => ⟨_, _, exec_intern page s, intern_getElem? .., ?_⟩
  have hnodup := intern_nodup (pages := s.builder.pages) page
  obtain ⟨i, heq, hi, hfirst⟩ | ⟨hnew, heq⟩ := intern_cases page s.builder.pages
  · rw [heq] at hnodup ⊢
    exact ⟨fun _ => ⟨rfl, hfirst⟩, fun hnew => absurd (List.mem_of_getElem? hi) hnew, hnodup⟩
  · rw [heq] at hnodup ⊢
    exact ⟨fun hold => absurd hold hnew, fun _ => ⟨rfl, rfl⟩, hnodup⟩

/-- Settles O30: a stub is the page of sixteen indices of the next smaller stub, so every path through it takes the same way. -/
theorem stubPadsTheRemainingLevels : Obligations.StubPadsTheRemainingLevels := by
  refine fun s x => ⟨?_, fun k hk hle => ?_, fun k hpos hle => ?_⟩
  · rw [exec_stub (by decide) (by decide), exec_intern]
    rfl
  · obtain ⟨k, rfl⟩ := Nat.exists_eq_add_of_le' hk
    refine ⟨_, _, exec_stub (by omega) (by omega) x s, rfl, ?_⟩
    rw [exec_stub (by omega) hle, exec_intern]
    rfl
  · refine ⟨_, _, exec_stub hpos hle x s, (stub_grows (Nat.le_refl x) k _).isPrefix, fun ks hks => ?_⟩
    rw [← hks]
    exact follow_stub x s.builder.pages ks

/-- Settles O31: by induction on the nibbles still open, a stub or an interned page lays the path of every word below `pfx`. -/
theorem visitBuildsTheSubtree : Obligations.VisitBuildsTheSubtree := by
  intro s pfx level hlevel hpfx
  obtain ⟨hgrow, hleads⟩ := visit_spec s.builder.perms (4 - level) pfx s.builder.pages
  exact ⟨_, _, exec_visit hlevel hpfx s, hgrow.isPrefix, hgrow.nodup, hleads.leads⟩

/-- Settles O32: the width is the least logarithm of both counts, and a page is stored entry by entry. -/
theorem compressNarrowsTheIndex : Obligations.CompressNarrowsTheIndex := by
  refine fun s => ⟨_, _, fun m => indexWidth_le_iff, compress_pages_length s.free .., fun k page narrowed hpage hnarrowed c => ?_,
    _, ?_, exec_compress s⟩
  · obtain rfl := Option.some.inj (hnarrowed.symm.trans (compress_page hpage))
    rw [Fin.getElem_fin, Vector.getElem_ofFn]
    exact ⟨narrowEntry_lt .., fun h => narrowEntry_of_lt h ..⟩
  · rw [← entriesFit_iff]
    split_ifs with hfit
    · exact iff_of_true rfl hfit
    · exact iff_of_false (by decide) hfit

/-- Settles O34: a permutation without a size comes from a size-less descriptor, whose steps need no width; and the pages hold page
indices below their number and match indices only, so the index width fits all of them. -/
theorem everyWellFormedIsdHasOrderlyConstants : Obligations.EveryWellFormedIsdHasOrderlyConstants := by
  refine ⟨fun isd fallback h => ?_, fun isd fallback rom h => ?_⟩
  · obtain ⟨handlers, hbind⟩ := exists_bindHandlers (fun d hd => (h d hd).2) fallback
    exact ⟨_, buildRom_eq_some_iff.2 ⟨List.all_eq_true.2 fun d hd => (h d hd).1, handlers, hbind, rfl⟩⟩
  · obtain ⟨perms, handlers, root, rfl, rfl, hbind, hgrow, hleads⟩ := exists_romOf_of_buildRom h
    obtain ⟨hs, hhs, rfl⟩ := bindHandlers_eq_ok_iff.1 hbind
    have hlen := hhs.length_eq
    refine ⟨hgrow.nodup .nil, entriesFit_iff.1 (hgrow.holds nofun).entriesFit, fun m => indexWidth_le_iff,
      lt_length_of_follow_cons (hleads.follow_root 0), sortPerms_perm _, sortPerms_pairwise _, ?_, ?_⟩
    · rw [romOf, List.length_append, hlen, List.length_singleton]
    · rw [romOf, hlen]
      exact List.getElem?_concat_length

/-- Settles O36: the walk gives the first match, and the list is sorted by wildcards. -/
theorem decodeGivesTheMostSpecificMatch : Obligations.DecodeGivesTheMostSpecificMatch := by
  intro s t w i hrom ht hout
  rw [exec_decode hrom] at ht
  cases ht
  cases hout
  refine ⟨matchIdx_eq_length_iff, fun p hp => ⟨matchesWord_of_getElem?_matchIdx hp, fun q hq => ?_⟩⟩
  exact specificity_le_of_getElem?_matchIdx (perms_of_buildRom hrom ▸ sortPerms_pairwise _) hp hq

end Sys2Proof.Machine
end

section
/-! The decode and reset statements (47_trie_decode.md, 70_reset_and_hazards.md): what `BIND` answers, the handler that `STEP` and the
decode miss run, and where a handler of the host ends the run. -/

namespace Sys2Proof

/-! ### The words of `abcd` -/

/-- A form's word holds the registers in bits 11 to 9 and 2 to 0 (30_encoding.md R108). -/
theorem abcdWord_extract (m : BitVec 1) (w : Word) :
    abcdWord m (extract w 9 3) (extract w 0 3) = abcdWord m 0 0 ||| (w &&& 0x0E07) := by
  refine BitVec.eq_of_getLsbD_eq fun i hi => ?_
  interval_cases i <;> simp [abcdWord, extract]

/-- A word with the fixed bits of a form is the form's word of its own registers (R232). -/
theorem abcdWord_of_fixedBits {m : BitVec 1} {w : Word} (h : w &&& 0xF1F8 = abcdWord m 0 0) :
    abcdWord m (extract w 9 3) (extract w 0 3) = w := by
  rw [abcdWord_extract, ← h, ← BitVec.and_or_distrib_left]
  exact BitVec.and_allOnes

end Sys2Proof

namespace Sys2Proof.Machine

/-! ### The step of the machine -/

theorem step_of_no_request {s : State} (h : s.port = []) : step s = exec .step s := by
  simp [step, stepMachine, h]

theorem serve_of_decode_ok {r : Request} {i : Instr} (h : decode (.select r.opsel r.operands) = .ok i) (s : State) :
    serve r s = exec i s := by
  simp [serve, h]

/-! ### `BIND` -/

theorem except_bind_eq_error {ε α β : Type} {x : Except ε α} {f : α → Except ε β} {e : ε} :
    (x >>= f) = .error e ↔ x = .error e ∨ ∃ a, x = .ok a ∧ f a = .error e := by
  cases x <;> simp [bind, Except.bind]

/-- A list is mapped to the failure of one of its elements. -/
theorem exists_eq_error_of_mapM_eq_error {ε α β : Type} {f : α → Except ε β} {as : List α} {e : ε} (h : as.mapM f = .error e) :
    ∃ a ∈ as, f a = .error e := by
  induction as with
  | nil => cases h
  | cons a as ih =>
    rw [List.mapM_cons, except_bind_eq_error] at h
    obtain ha | ⟨b, -, h⟩ := h
    · exact ⟨a, List.mem_cons_self, ha⟩
    · obtain has | ⟨bs, -, h⟩ := except_bind_eq_error.1 h
      · obtain ⟨a', hmem, ha'⟩ := ih has
        exact ⟨a', List.mem_cons_of_mem a hmem, ha'⟩
      · cases h

theorem exists_finalise_eq_error {isd : List Descriptor} {fallback : Handler} {perms : List Permutation} {e : BindError}
    (h : bindHandlers isd fallback perms = .error e) : ∃ p ∈ perms, finalise isd p = .error e := by
  obtain hm | ⟨hs, -, h⟩ := except_bind_eq_error.1 h
  · exact exists_eq_error_of_mapM_eq_error hm
  · cases h

section
variable {isd : List Descriptor} {p : Permutation} {d : Descriptor}

/-- A step that is no operation at no width is parameterised (44_microcode.md R227). -/
theorem parameterized_of_stepInstr {st : Step} (h : (stepInstr none st).isSome = false) : st.parameterized = true := by
  cases st with
  | ea | ldReg | stReg => rfl
  | fetch | bcd | cycles => cases h

theorem finalise_of_parameterized (hd : isd[p.instr]? = some d) (hsize : p.size = none)
    (hst : ∃ st ∈ d.code.steps, (stepInstr none st).isSome = false) :
    finalise isd p = .error .parameterizedStepWithoutSize := by
  obtain ⟨st, hmem, hnone⟩ := hst
  have hany : d.code.steps.any Step.parameterized = true := List.any_eq_true.2 ⟨st, hmem, parameterized_of_stepInstr hnone⟩
  simp [finalise, hd, hsize, hany]

/-- A permutation of a descriptor gets the descriptor's pipeline at its size, or the one error of R227. -/
theorem finalise_of_descriptor (hd : isd[p.instr]? = some d) :
    finalise isd p = .ok (.pipeline d.code.steps p.size) ∨ finalise isd p = .error .parameterizedStepWithoutSize := by
  by_cases hst : p.size = none ∧ ∃ st ∈ d.code.steps, (stepInstr none st).isSome = false
  · obtain ⟨hsize, hstep⟩ := hst
    exact .inr (finalise_of_parameterized hd hsize hstep)
  · exact .inl (finalise_of_steps hd fun hsize st hmem => Bool.not_eq_false _ ▸ fun hnone => hst ⟨hsize, st, hmem, hnone⟩)

theorem eq_pipeline_of_finalise (hd : isd[p.instr]? = some d) {h : Handler} (hh : finalise isd p = .ok h) :
    h = .pipeline d.code.steps p.size := by
  obtain hok | herr := finalise_of_descriptor hd
  · exact Except.ok.inj (hh.symm.trans hok)
  · cases hh.symm.trans herr

end

/-- Where `BIND` answers handlers, none of the permutations fails. -/
theorem exists_finalise_eq_ok {isd : List Descriptor} {fallback : Handler} {perms : List Permutation} {handlers : List Handler}
    {p : Permutation} (h : bindHandlers isd fallback perms = .ok handlers) (hp : p ∈ perms) : ∃ hd, finalise isd p = .ok hd := by
  obtain ⟨hs, hhs, -⟩ := bindHandlers_eq_ok_iff.1 h
  obtain ⟨k, hk, rfl⟩ := List.mem_iff_getElem.1 hp
  exact ⟨_, hhs.get hk (hhs.length_eq ▸ hk)⟩

/-- Where every permutation is of a descriptor, a size that is missing for one of them is the error of `BIND` (R227). -/
theorem bindHandlers_of_parameterized {isd : List Descriptor} {fallback : Handler} {perms : List Permutation}
    (hdescr : ∀ p ∈ perms, ∃ d, isd[p.instr]? = some d) {p : Permutation} (hp : p ∈ perms)
    (hfail : finalise isd p = .error .parameterizedStepWithoutSize) :
    bindHandlers isd fallback perms = .error .parameterizedStepWithoutSize := by
  cases hbind : bindHandlers isd fallback perms with
  | ok handlers =>
    obtain ⟨hd, hok⟩ := exists_finalise_eq_ok hbind hp
    cases hok.symm.trans hfail
  | error e =>
    obtain ⟨q, hq, herr⟩ := exists_finalise_eq_error hbind
    obtain ⟨d, hd⟩ := hdescr q hq
    obtain hok | herr' := finalise_of_descriptor hd
    · cases herr.symm.trans hok
    · exact congrArg _ (Except.error.inj (herr.symm.trans herr'))

/-- `handlers` are the handlers of `perms`: each the pipeline of its permutation's descriptor at its size, then FALLBACK (R286, R28). -/
structure HandlersOf (isd : List Descriptor) (fallback : Handler) (perms : List Permutation) (handlers : List Handler) : Prop where
  length : handlers.length = perms.length + 1
  last : handlers[perms.length]? = some fallback
  pipeline : ∀ {k : Nat} {p : Permutation} {d : Descriptor}, perms[k]? = some p → isd[p.instr]? = some d →
    handlers[k]? = some (.pipeline d.code.steps p.size)

theorem bindHandlers_handlersOf {isd : List Descriptor} {fallback : Handler} {perms : List Permutation} {handlers : List Handler}
    (h : bindHandlers isd fallback perms = .ok handlers) : HandlersOf isd fallback perms handlers := by
  obtain ⟨hs, hhs, rfl⟩ := bindHandlers_eq_ok_iff.1 h
  have hlen := hhs.length_eq
  refine ⟨by rw [List.length_append, hlen, List.length_singleton], ?_, fun {k p d} hp hd => ?_⟩
  · rw [hlen]
    exact List.getElem?_concat_length
  · obtain ⟨hk, rfl⟩ := List.getElem?_eq_some_iff.1 hp
    have hk' : k < hs.length := hlen ▸ hk
    rw [List.getElem?_append_left hk', List.getElem?_eq_getElem hk']
    exact congrArg some (eq_pipeline_of_finalise hd (hhs.get hk hk'))

theorem buildRom_handlersOf {isd : List Descriptor} {fallback : Handler} {rom : Rom} (h : buildRom isd fallback = some rom) :
    HandlersOf isd fallback rom.perms rom.handlers := by
  obtain ⟨perms, handlers, root, rfl, -, hbind, -⟩ := exists_romOf_of_buildRom h
  exact bindHandlers_handlersOf hbind

theorem exec_bind_of_ok {s : State} {hs : List Handler} (h : bindHandlers s.isd s.fallback s.builder.perms = .ok hs) :
    exec .bind s = .next { s with builder := { s.builder with handlers := hs }, out := .handlers hs } := by
  rw [exec, execBind, h]
  rfl

theorem exec_bind_of_error {s : State}
    (h : bindHandlers s.isd s.fallback s.builder.perms = .error .parameterizedStepWithoutSize) :
    exec .bind s = .next { s with out := .error .parameterizedStepWithoutSize } := by
  rw [exec, execBind, h]
  rfl

/-! ### The handler that runs -/

theorem hostStep_congr {run run' : State → Res State} {s : State}
    (h : run { s with exec := ExecCtx.fresh } = run' { s with exec := ExecCtx.fresh }) : hostStep run s = hostStep run' s := by
  rw [hostStep, hostStep, h]

/-- A place of a matching permutation before which none matches is the match index. -/
theorem matchIdx_eq_of_first {perms : List Permutation} {w : Word} {k : Nat} {p : Permutation} (hp : perms[k]? = some p)
    (hmatch : p.pattern.matchesWord w = true)
    (hfirst : ∀ j < k, ∀ q, perms[j]? = some q → q.pattern.matchesWord w = false) : matchIdx perms w = k := by
  obtain ⟨hk, rfl⟩ := List.getElem?_eq_some_iff.1 hp
  exact (List.findIdx_eq hk).2 ⟨hmatch, fun j hj => hfirst j hj _ (List.getElem?_eq_getElem _)⟩

/-- `STEP` over the constants of a build runs the handler at the match index of `ir` (R290, R283). -/
theorem exec_step_of_handler {s : State} {h : Handler} (hrom : buildRom s.isd s.fallback = some s.rom)
    (hh : s.rom.handlers[matchIdx s.rom.perms s.cpu.ir]? = some h) : exec .step s = toOutcome (hostStep (runHandler h) s) := by
  refine congrArg toOutcome (hostStep_congr ?_)
  simp only [decodeAndRun, walk_of_buildRom hrom, runIndex, hh]

theorem exec_step_of_miss {s : State} (hrom : buildRom s.isd s.fallback = some s.rom)
    (hmiss : ∀ p ∈ s.rom.perms, p.pattern.matchesWord s.cpu.ir = false) :
    exec .step s = toOutcome (hostStep (runHandler s.fallback) s) := by
  refine exec_step_of_handler hrom ?_
  rw [matchIdx_eq_length_iff.2 hmiss]
  exact (buildRom_handlersOf hrom).last

theorem exec_step_of_firstMatch {s : State} {k : Nat} {p : Permutation} {d : Descriptor}
    (hrom : buildRom s.isd s.fallback = some s.rom) (hp : s.rom.perms[k]? = some p) (hd : s.isd[p.instr]? = some d)
    (hmatch : p.pattern.matchesWord s.cpu.ir = true)
    (hfirst : ∀ j < k, ∀ q, s.rom.perms[j]? = some q → q.pattern.matchesWord s.cpu.ir = false) :
    exec .step s = toOutcome (hostStep (runHandler (.pipeline d.code.steps p.size)) s) := by
  refine exec_step_of_handler hrom ?_
  rw [matchIdx_eq_of_first hp hmatch hfirst]
  exact (buildRom_handlersOf hrom).pipeline hp hd

/-- The miss runs the handler at `P` (60_exceptions.md R303, R305). -/
theorem exec_illegal_of_handler {s : State} {h : Handler} (hh : s.rom.handlers[s.rom.perms.length]? = some h) :
    exec .illegal s = toOutcome (hostStep (runHandler h) (s.setIr 0x4AFC)) := by
  refine congrArg toOutcome (hostStep_congr ?_)
  simp only [runIndex, State.setIr_rom, hh]

theorem hostStep_fallbackNop (s : State) :
    hostStep (runHandler fallbackNop) s = .ok { s with exec := ExecCtx.fresh, out := .cycles 0 } := rfl

/-- A handler of the prefetch alone: the next opcode word in `ir`, `pc` past it, four cycles (R219, R72, R73). -/
theorem hostStep_fetch {s : State} (h : s.streamReady .word) (width : Option Size) :
    hostStep (runHandler (.pipeline [.fetch] width)) s = .ok
      { s with cpu := { s.cpu with pc := s.cpu.pc + 2, ir := s.wordAt s.cpu.pc }
               exec := ExecCtx.fresh
               trace := s.trace ++ [s.accessAt s.cpu.pc 0 none]
               out := .cycles 4 } := by
  have hrun : runHandler (.pipeline [.fetch] width) { s with exec := ExecCtx.fresh } =
      stepFetch { s with exec := ExecCtx.fresh } >>= pure := rfl
  rw [hostStep, hrun, stepFetch_ram (s := { s with exec := ExecCtx.fresh }) h]
  rfl

/-! ### Where a run ends -/

/-- An operation that stops by a refusal only. -/
structure NeverFaults {α : Type} (x : Res α) : Prop where
  ne_fault : ∀ f, x ≠ .error (.fault f)

theorem NeverFaults.bind {α β : Type} {x : Res α} {f : α → Res β} (hx : NeverFaults x) (hf : ∀ a, NeverFaults (f a)) :
    NeverFaults (x >>= f) := by
  cases x with
  | ok a => exact hf a
  | error e => exact ⟨fun g h => hx.ne_fault g (by cases h; rfl)⟩

theorem neverFaults_ok {α : Type} (a : α) : NeverFaults (.ok a : Res α) := ⟨nofun⟩

theorem neverFaults_refuse {α : Type} (r : Refusal) : NeverFaults (refuse r : Res α) := ⟨nofun⟩

theorem busRead_neverFaults {w : Nat} (addr : Long) (mask : BitVec w) (s : State) : NeverFaults (busRead addr mask s) := by
  cases howner : s.bus.owner (s.bus.address addr) with
  | none => simpa only [busRead, howner] using neverFaults_refuse _
  | some r => simpa only [busRead, howner] using neverFaults_ok _

theorem busWrite_neverFaults {w : Nat} (addr : Long) (mask data : BitVec w) (s : State) :
    NeverFaults (busWrite addr mask data s) := by
  cases howner : s.bus.owner (s.bus.address addr) with
  | none => simpa only [busWrite, howner] using neverFaults_refuse _
  | some r => simpa only [busWrite, howner] using neverFaults_ok _

theorem memRead_neverFaults (w : Size) (addr : Long) (s : State) : NeverFaults (memRead w addr s) := by
  unfold memRead
  split
  · exact neverFaults_refuse _
  cases w with
  | byte => exact (busRead_neverFaults ..).bind fun _ => neverFaults_ok _
  | word =>
    dsimp only
    split
    · exact neverFaults_refuse _
    · exact (busRead_neverFaults ..).bind fun _ => neverFaults_ok _
  | long =>
    dsimp only
    split
    · exact neverFaults_refuse _
    · exact (busRead_neverFaults ..).bind fun _ => (busRead_neverFaults ..).bind fun _ => neverFaults_ok _

theorem memWrite_neverFaults (w : Size) (addr v : Long) (s : State) : NeverFaults (memWrite w addr v s) := by
  unfold memWrite
  split
  · exact neverFaults_refuse _
  cases w with
  | byte => exact (busWrite_neverFaults ..).bind fun _ => neverFaults_ok _
  | word =>
    dsimp only
    split
    · exact neverFaults_refuse _
    · exact (busWrite_neverFaults ..).bind fun _ => neverFaults_ok _
  | long =>
    dsimp only
    split
    · exact neverFaults_refuse _
    · exact (busWrite_neverFaults ..).bind fun _ => (busWrite_neverFaults ..).bind fun _ => neverFaults_ok _

theorem runHostAccess_neverFaults (a : HostAccess) (s : State) : NeverFaults (runHostAccess a s) := by
  cases a with
  | read w addr => exact (memRead_neverFaults ..).bind fun _ => neverFaults_ok _
  | write w addr v => exact (memWrite_neverFaults ..).bind fun _ => neverFaults_ok _
  | busRead addr mask => exact (busRead_neverFaults ..).bind fun _ => neverFaults_ok _
  | busWrite addr mask data => exact (busWrite_neverFaults ..).bind fun _ => neverFaults_ok _

theorem runHostAccesses_neverFaults (call : Nat) (cpu : Cpu) (exec : ExecCtx) (bound : Nat) (seen : List Nat) (s : State) :
    NeverFaults (runHostAccesses call cpu exec bound seen s) := by
  induction bound generalizing seen s with
  | zero => exact neverFaults_ok _
  | succ k ih =>
    rw [runHostAccesses]
    cases Config.hostAccess call cpu exec seen with
    | none => exact neverFaults_ok _
    | some a => exact (runHostAccess_neverFaults a s).bind fun _ => ih ..

/-! ### A handler of the host -/

/-- The accesses of a call of a handler of the host from the state `s` (log 5). -/
def State.hostAccesses (s : State) : Res (List Nat × State) :=
  runHostAccesses s.free s.cpu s.exec (Config.hostBound s.free s.cpu s.exec) [] { s with free := s.free + 1 }

/-- What that call does beside them, by what they have read (log 5). -/
def State.hostEffect (s : State) (seen : List Nat) : HostEffect := Config.hostEffect s.free s.cpu s.exec seen

section
variable {s t : State} {seen : List Nat}

theorem runHost_of_terminates (h : s.hostAccesses = .ok (seen, t)) (hend : (s.hostEffect seen).terminates = true) :
    runHost s = .error (.fault .hostTerminated) := by
  rw [State.hostAccesses] at h
  rw [State.hostEffect] at hend
  rw [runHost, h, Res.ok_bind]
  exact if_pos hend

theorem runHost_of_goesOn (h : s.hostAccesses = .ok (seen, t)) (hend : (s.hostEffect seen).terminates = false) :
    runHost s = .ok ({ t with cpu := (s.hostEffect seen).cpu }.addClk (s.hostEffect seen).cycles) := by
  rw [State.hostAccesses] at h
  rw [State.hostEffect] at hend
  rw [runHost, h, Res.ok_bind]
  exact if_neg (Bool.eq_false_iff.1 hend)

/-- A handler of the host faults exactly where its accesses are made and it then terminates the run (R302). -/
theorem runHost_eq_fault_iff :
    runHost s = .error (.fault .hostTerminated) ↔
      ∃ seen t, s.hostAccesses = .ok (seen, t) ∧ (s.hostEffect seen).terminates = true := by
  refine ⟨fun h => ?_, fun ⟨seen, t, h, hend⟩ => runHost_of_terminates h hend⟩
  obtain hacc | ⟨⟨seen, t⟩, hacc, -⟩ := except_bind_eq_error.1 h
  · exact absurd hacc ((runHostAccesses_neverFaults ..).ne_fault _)
  · refine ⟨seen, t, hacc, by_contra fun hend => ?_⟩
    rw [runHost_of_goesOn hacc (Bool.not_eq_true _ ▸ hend)] at h
    cases h

end

theorem toOutcome_eq_fault {x : Res State} {f : Fault} : toOutcome x = .fault f ↔ x = .error (.fault f) := by
  match x with
  | .ok s => exact ⟨nofun, nofun⟩
  | .error (.fault g) => exact ⟨fun h => (by cases h; rfl), fun h => (by cases h; rfl)⟩
  | .error (.refused r) => exact ⟨nofun, nofun⟩

/-- `STEP` stops exactly as its handler does. -/
theorem hostStep_eq_error {run : State → Res State} {s : State} {e : Stop} :
    hostStep run s = .error e ↔ run { s with exec := ExecCtx.fresh } = .error e := by
  rw [hostStep, except_bind_eq_error]
  exact or_iff_left fun ⟨_, _, h⟩ => (by cases h)

/-! ### The obligations -/

/-- Settles O35: both give the match index, the walk by the paths that the build lays. -/
theorem decodeIsMatchidx : Obligations.DecodeIsMatchidx := fun s w h => ⟨_, exec_decode h w, exec_matchidx w s⟩

/-- Settles O33: `BIND` fails only as one of its permutations does, and a permutation of a descriptor only for want of a size. -/
theorem bindFinalisesEachPermutation : Obligations.BindFinalisesEachPermutation := by
  refine fun s hdescr => ⟨fun hsteps => ?_, fun hbad => ?_⟩
  · cases hbind : bindHandlers s.isd s.fallback s.builder.perms with
    | ok hs =>
      have hhs := bindHandlers_handlersOf hbind
      exact ⟨hs, exec_bind_of_ok hbind, hhs.length, hhs.last, fun _ _ _ => hhs.pipeline⟩
    | error e =>
      obtain ⟨p, hp, herr⟩ := exists_finalise_eq_error hbind
      obtain ⟨d, hd⟩ := hdescr p hp
      cases herr.symm.trans (finalise_of_steps hd (hsteps p hp d hd))
  · obtain ⟨p, hp, d, hd, hsize, hst⟩ := hbad
    exact exec_bind_of_error (bindHandlers_of_parameterized hdescr hp (finalise_of_parameterized hd hsize hst))

/-- Settles O7: the walk gives the match index, at which the build has put the pipeline of the matching permutation, or FALLBACK. -/
theorem stepRunsTheHandlerOfTheFirstMatch : Obligations.StepRunsTheHandlerOfTheFirstMatch := by
  refine ⟨fun s hrom => ⟨exec_step_of_miss hrom, fun k p d => exec_step_of_firstMatch hrom⟩, ?_⟩
  intro s k p d hrom hp hd hmatch hfirst hfetch hstream
  rw [exec_step_of_firstMatch hrom hp hd hmatch hfirst, hfetch, hostStep_fetch hstream, toOutcome_eq_next]

/-- Settles O6: `ir` already holds the word that each row puts there, and `STEP` runs the handler that the row runs. -/
theorem stepOnATableWordRunsItsInstruction : Obligations.StepOnATableWordRunsItsInstruction := by
  intro s i hrom hport hdec hill habcd
  have hrow : i ≠ .illegal → step s = toOutcome (stepAbcd s.cpu.ir s) := fun hi => by
    obtain ⟨k, p, d, hp, hd, hmatch, hfirst, hsize, hsteps⟩ := habcd hi
    rw [step_of_no_request hport, exec_step_of_firstMatch hrom hp hd hmatch hfirst, hsize, hsteps]
    rfl
  obtain ⟨hw, hi⟩ | ⟨hw, hi⟩ | ⟨hw, hi⟩ | ⟨-, -, -, hi⟩ := decodeOpcode_cases s.cpu.ir
  · cases hi.symm.trans hdec
    rw [hrow nofun, exec, execAbcdReg, abcdWord_of_fixedBits hw]
  · cases hi.symm.trans hdec
    rw [hrow nofun, exec, execAbcdMem, abcdWord_of_fixedBits hw]
  · cases hi.symm.trans hdec
    rw [step_of_no_request hport, exec_step_of_miss hrom (hill rfl), exec_illegal_of_handler (buildRom_handlersOf hrom).last, ← hw]
    rfl
  · cases hi.symm.trans hdec

/-- Settles O9: the miss runs the last handler; one of the host ends the run only by its effect, since an access only refuses. -/
theorem missRunsTheFallback : Obligations.MissRunsTheFallback := by
  refine ⟨fun s => ⟨fun h => exec_illegal_of_handler, fun hh => ?_, fun hh hstream => ?_, fun hrom hnop hmiss => ?_⟩,
    fun s hh => ?_⟩
  · rw [exec_illegal_of_handler hh, hostStep_fallbackNop, toOutcome_eq_next]
    rfl
  · rw [exec_illegal_of_handler hh, fallbackSkip, hostStep_fetch (s := s.setIr 0x4AFC) hstream, toOutcome_eq_next]
    rfl
  · have hstep := exec_step_of_miss hrom hmiss
    rw [hnop, hostStep_fallbackNop] at hstep
    exact hstep
  · intro cpu accesses
    rw [exec_illegal_of_handler hh]
    refine ⟨?_, fun seen t hacc hend => ?_⟩
    · rw [toOutcome_eq_fault, hostStep_eq_error]
      exact runHost_eq_fault_iff
    · have hrun := runHost_of_goesOn (s := s.handlerStart 0x4AFC) hacc hend
      have hstep : hostStep (runHandler .host) (s.setIr 0x4AFC) =
          runHost (s.handlerStart 0x4AFC) >>= fun u => pure { u with exec := ExecCtx.fresh, out := .cycles u.exec.clk } := rfl
      rw [hstep, hrun]
      rfl

/-- Settles O5: the oldest request leaves the port and its instruction runs; without one the host loop runs `STEP`. -/
theorem stepRunsTheDecodedInstruction : Obligations.StepRunsTheDecodedInstruction :=
  ⟨fun _ _ _ _ hport hi => (step_of_port hport).trans (serve_of_decode_ok hi _), fun _ => step_of_no_request⟩

/-- Settles O56: RAM is empty, the bus is the valid test bus, and the constants are the build of the toy set. -/
theorem resetMeetsTheInvariant : Obligations.ResetMeetsTheInvariant :=
  ⟨⟨Memory.wf_nil, testBus_valid, test_toy_build⟩, rfl, rfl⟩

end Sys2Proof.Machine
end
